-- ==== Sys2Proof/Word.lean ====
section
/-! DEFINITION. The two word types of the block: a byte of memory (also a symbol) and a 32-bit register word (00_scope.md
R7, R8). Counts, lengths and addresses under computation are `Nat`, as R12 asks (unbounded non-negative integers unless a
width is stated). -/

namespace Sys2Proof

/-- One byte: a memory byte, a container byte or a symbol (R7, R16). -/
abbrev Byte := BitVec 8

/-- One 32-bit host register (R8, 10_state.md section 2). -/
abbrev Word := BitVec 32

end Sys2Proof
end

