-- ==== Sys2Proof/Config.lean ====
section
/-! DEFINITION. What one chip fixes: the constants of 00_scope.md R7 and R8, the platform's register base (R9) and the free
values that the spec leaves unspecified. -/

namespace Sys2Proof

/-- Number of byte addresses of system memory, `2^ADDR_W` with `ADDR_W = 32` (R8, R60). -/
abbrev Config.addressSpace : Nat := 2 ^ 32

/-- The largest value of a 32-bit register, at which ERR_INFO saturates for DST_FULL (R152, R192). -/
abbrev Config.wordMax : Nat := 2 ^ 32 - 1

/-- Number of symbols of the alphabet (R7). -/
abbrev Config.symbols : Nat := 256

/-- The longest code, in bits (R7). -/
abbrev Config.maxCodeLength : Nat := 64

/-- The constant the ID register reads, "HUF" and revision 7 (R22). -/
abbrev Config.idValue : Word := 0x48554607#32

/-- `REG_BASE`, the bus address of the register window: an open parameter of the platform (R9, R85). -/
opaque Config.regBase : Word

/-- FREE VALUE (log entry 2). The value of the unspecified memory byte at address `a` that draw number `draw` made unspecified:
memory before anything is written, the destination window after an error (R229) or after a reset while BUSY (R261), and
what a host read of a destination byte returns while BUSY (R271). Nothing constrains it. -/
opaque Config.freeByte (draw a : Nat) : Byte

/-- FREE VALUE (log entry 16). What ERR_INFO holds after an error whose detail value does not fit its 32 bits: only the bit index of
FMT_OVERRUN (R221) can be that large, and the spec does not say what is stored then (R12). Nothing constrains it. -/
opaque Config.freeInfo (draw : Nat) : Word

end Sys2Proof
end

