-- ==== Sys2Proof/Syntax.lean ====
section
/-! DEFINITION. The instructions of spec/opcode_table.json (one constructor a row), the register names they use, and the raw
words a host presents before they are decoded. -/

namespace Sys2Proof

/-- The sixteen register indexes of the register window, by name (10_state.md R22 to R32). The reserved offsets 0x28 to 0x3C
are `reserved 0` to `reserved 5`. -/
inductive Reg where
  | id | ctrl | cmd | status | srcAddr | srcLen | dstAddr | dstCap | outLen | errInfo
  | reserved (k : Fin 6)
  deriving DecidableEq, Repr

/-- The instruction set: the command words of 30_encoding.md R82 and R83 and the host register accesses of
40_host_commands.md R110 and R111. -/
inductive Instr where
  /-- NOP, command word 0x00000000 (R124). -/
  | nop
  /-- ENCODE, command word 0x00000001 (R125). -/
  | encode
  /-- DECODE, command word 0x00000002 (R126). -/
  | decode
  /-- Any other command word `w` (R83, R117). -/
  | illegal (w : Word)
  /-- RD: a host read of register `r` (R110). -/
  | rd (r : Reg)
  /-- WR: a host write of `data` to register `r` (R111). -/
  | wr (r : Reg) (data : Word)
  deriving DecidableEq, Repr

/-- An instruction before decoding, in one of the two formats of the opcode table. -/
inductive HostWord where
  /-- Format CMD32: the word `w` written to CMD (R80). -/
  | command (w : Word)
  /-- Format HOSTBUS: the transaction descriptor in the low seven bits of `t`, and the data word beside it (R86). -/
  | bus (t : Byte) (data : Word)
  deriving DecidableEq, Repr

/-- Why the decoder refuses a host access (R85, R86). -/
inductive DecodeError where
  /-- The low offset bits are not zero: the access is not at a multiple of 4. -/
  | misaligned
  /-- Bit 7 of the descriptor's byte is set: the byte is no 7-bit descriptor. -/
  | notADescriptor
  /-- The access is not four bytes wide. -/
  | badWidth
  /-- The bus address is outside the register window `REG_BASE + 0x00 … REG_BASE + 0x3F`. -/
  | outsideWindow
  deriving DecidableEq, Repr

end Sys2Proof
end

