-- ==== Sys2Proof/WellFormed.lean ====
section
/-! DEFINITION. Which terms of `Instr` are instructions: an `illegal` word is none of the three legal command words
(30_encoding.md R83). Register names and data words are legal at every value (R26 to R29, R32). -/

namespace Sys2Proof

/-- The command words that select an operation (R82). -/
def legalCommand (w : Word) : Bool := w == 0#32 || w == 1#32 || w == 2#32

/-- An instruction is well formed when its `illegal` word is really illegal (R83). -/
def Instr.wellFormed : Instr → Bool
  | .nop => true
  | .encode => true
  | .decode => true
  | .illegal w => !legalCommand w
  | .rd _ => true
  | .wr _ _ => true

end Sys2Proof
end

