-- ==== Sys2Proof/Decode.lean ====
section
/-! DEFINITION. The decoder and the encoder of the two formats of 30_encoding.md (CMD32: R80 to R83; HOSTBUS: R85, R86), the
decoding of a raw bus access, and the opcode table's numbering of an instruction's bits. -/

namespace Sys2Proof

/-- IDX, the register's index in the window: its offset is `4 * IDX` (R86, 10_state.md section 2). -/
def Reg.index : Reg → BitVec 4
  | .id => 0
  | .ctrl => 1
  | .cmd => 2
  | .status => 3
  | .srcAddr => 4
  | .srcLen => 5
  | .dstAddr => 6
  | .dstCap => 7
  | .outLen => 8
  | .errInfo => 9
  | .reserved k => BitVec.ofNat 4 (10 + k.val)

/-- The register at an index (10_state.md section 2). -/
def Reg.ofIndex (i : BitVec 4) : Reg :=
  match i.toNat with
  | 0 => .id
  | 1 => .ctrl
  | 2 => .cmd
  | 3 => .status
  | 4 => .srcAddr
  | 5 => .srcLen
  | 6 => .dstAddr
  | 7 => .dstCap
  | 8 => .outLen
  | 9 => .errInfo
  | 10 => .reserved 0
  | 11 => .reserved 1
  | 12 => .reserved 2
  | 13 => .reserved 3
  | 14 => .reserved 4
  | _ => .reserved 5

/-- Decoding a command word (R81): `OP = w[3:0]` selects an operation only when `RSVD = w[31:4]` is 0; every other word is
illegal (R83). -/
def decodeCommand (w : Word) : Instr :=
  let op : BitVec 4 := w.extractLsb' 0 4
  let rsvd : BitVec 28 := w.extractLsb' 4 28
  if rsvd = 0 then
    match op.toNat with
    | 0 => .nop
    | 1 => .encode
    | 2 => .decode
    | _ => .illegal w
  else .illegal w

/-- Decoding a transaction descriptor (R86): `T[6] = W`, `T[5:2] = IDX`, and `T[1:0]` must be 0. The data word belongs to a
write only. -/
def decodeTransaction (t : Byte) (data : Word) : Except DecodeError Instr :=
  if t.getLsbD 7 then .error .notADescriptor
  else if t.extractLsb' 0 2 ≠ (0 : BitVec 2) then .error .misaligned
  else
    let r := Reg.ofIndex (t.extractLsb' 2 4)
    if t.getLsbD 6 then .ok (.wr r data) else .ok (.rd r)

/-- Decoding either format. -/
def decode : HostWord → Except DecodeError Instr
  | .command w => .ok (decodeCommand w)
  | .bus t data => decodeTransaction t data

/-- The descriptor of an access to register `r` (R86). -/
def descriptor (write : Bool) (r : Reg) : Byte :=
  (0#1 ++ BitVec.ofBool write ++ r.index ++ 0#2 : BitVec 8)

/-- Decoding a raw bus access of `bytes` bytes at bus address `addr` (R85): only an aligned 32-bit access inside the register
window is a transaction; `write` holds a write's data word. The offset is the bus address minus `REG_BASE` in 32 bits (log
entry 11). -/
def decodeAccess (addr : Word) (bytes : Nat) (write : Option Word) : Except DecodeError Instr :=
  let off := (addr - Config.regBase).toNat
  if 64 ≤ off then .error .outsideWindow
  else if bytes ≠ 4 then .error .badWidth
  else if off % 4 ≠ 0 then .error .misaligned
  else
    let r := Reg.ofIndex (BitVec.ofNat 4 (off / 4))
    match write with
    | some data => .ok (.wr r data)
    | none => .ok (.rd r)

/-- The encoder: the words of a well-formed instruction (R82, R86). -/
def encode : Instr → HostWord
  | .nop => .command 0x00000000#32
  | .encode => .command 0x00000001#32
  | .decode => .command 0x00000002#32
  | .illegal w => .command w
  | .rd r => .bus (descriptor false r) 0
  | .wr r data => .bus (descriptor true r) data

/-- The raw word of the opcode table's numbering: a CMD32 row has 32 bits; a HOSTBUS row has the descriptor in its first byte
(7 bits), and a longer word carries the data word in the bits above it. -/
def tableWord (nbits w : Nat) : HostWord :=
  if nbits = 32 then .command (BitVec.ofNat 32 w)
  else .bus (BitVec.ofNat 8 w) (BitVec.ofNat 32 (w / 256))

/-- The instruction the decoder reads from an instruction whose bits are `w`, numbered as spec/opcode_table.json numbers
them; `none` where it refuses. -/
def decodeTableWord (nbits w : Nat) : Option Instr :=
  match decode (tableWord nbits w) with
  | .ok i => some i
  | .error _ => none

end Sys2Proof
end

