-- ==== Sys2Proof/Machine/State.lean ====
section
/-! DEFINITION. The state of the machine: the block's host registers, flags, latched operands and working state
(10_state.md), system memory and the platform's parameters (20_memory.md, 00_scope.md R9), and the pending acts of the agents
around the block. Plain data throughout. INVENTORY.md lists every field with its rule and reset value. -/

namespace Sys2Proof.Machine

/-- A half-open range of byte addresses, `lo ≤ a < hi`. -/
structure Span where
  lo : Nat
  hi : Nat
  deriving DecidableEq, Repr

/-- A range of addresses whose bytes are unspecified: the byte at `a` is the free value `Config.freeByte draw a`. -/
structure FreeSpan where
  span : Span
  draw : Nat
  deriving DecidableEq, Repr

/-- System memory (R60). `cells` lists bytes in strictly rising address order; `free` lists the ranges that are unspecified.
An address that neither names reads as 0 (`Memory.background` in Machine/Ops.lean; log entry 1). -/
structure Memory where
  cells : List Host.Cell
  free : List FreeSpan
  deriving DecidableEq, Repr

/-- `PHASE ∈ {IDLE, BUSY}` (R21). -/
inductive Phase where
  | idle
  | busy
  deriving DecidableEq, Repr

/-- The commands that start (R116): the values `L_OP` can hold. -/
inductive Op where
  | encode
  | decode
  deriving DecidableEq, Repr

/-- The latched operands (R40). -/
structure Latched where
  op : Op
  srcAddr : Word
  srcLen : Word
  dstAddr : Word
  dstCap : Word
  blkle : Bool
  wrap256 : Bool
  deriving DecidableEq, Repr

/-- The windows of one command, on which the host has the duties of R270. -/
structure Duty where
  source : Span
  destination : Span
  deriving DecidableEq, Repr

/-- A node of the tree arena (R42); children are arena indices. -/
inductive Node where
  | leaf (sym : Byte) (freq : Nat)
  | internal (left right : Nat) (freq : Nat)
  deriving DecidableEq, Repr

/-- A triple `(len, val, sym)` of the reverse map (R45). -/
structure RevEntry where
  len : Nat
  val : Nat
  sym : Byte
  deriving DecidableEq, Repr

/-- The block's internal working state (R41 to R46). The host cannot observe it (R47). -/
structure Work where
  /-- `FREQ[0..255]` (R41). -/
  freq : List Nat
  /-- `NODE[k]`, the arena (R42). -/
  nodes : List Node
  /-- `Q`, the node indices waiting to be merged (R43). -/
  queue : List Nat
  /-- `CB_LEN[0..255]` (R44). -/
  cbLen : List Nat
  /-- `CB_VAL[0..255]` (R44). -/
  cbVal : List Nat
  /-- `RMAP` (R45). -/
  rmap : List RevEntry
  /-- `CAND_LEN` (R46). -/
  candLen : Nat
  /-- `CAND_VAL` (R46). -/
  candVal : Nat
  /-- `OUTCNT` (R46). -/
  outCnt : Nat
  deriving DecidableEq, Repr

/-- The platform's parameters about system memory. -/
structure Platform where
  /-- The addresses at which `memOk` is false (R9, R61). -/
  failing : List Span
  /-- The addresses whose memory has read or write side effects, where R69 forbids a window. -/
  sideEffects : List Span
  deriving DecidableEq, Repr

/-- A change of the platform's parameters, an act of an agent outside the block. -/
inductive PlatformChange where
  /-- `memOk` becomes true on the span. -/
  | answers (w : Span)
  /-- `memOk` becomes false on the span. -/
  | fails (w : Span)
  /-- The span's memory becomes idempotent. -/
  | plain (w : Span)
  /-- The span's memory gets read or write side effects. -/
  | device (w : Span)
  deriving DecidableEq, Repr

/-- Acts of the host and the platform that are not instructions of the block (30_encoding.md R87, 70_reset_and_hazards.md). -/
inductive EnvEvent where
  /-- MEMW: the host writes bytes to system memory. -/
  | memWrite (addr : Nat) (data : List Byte)
  /-- MEMR: the host reads bytes of system memory. -/
  | memRead (addr : Nat) (count : Nat)
  /-- POLL: the host repeats RD until `read &&& mask = value`. -/
  | poll (r : Reg) (mask value : Word)
  /-- The host reads the interrupt line once (R240). -/
  | readIrq
  /-- The host waits until the interrupt line is 1 (R240). -/
  | waitIrq
  /-- The platform asserts reset (R260). -/
  | reset
  /-- The platform changes `memOk` or puts side effects on memory (R61, R69, R270). -/
  | platform (c : PlatformChange)
  deriving DecidableEq, Repr

/-- One pending act. The order of the list of pending acts is the order in which the agents move: it stands for the
interleaving that R123 and R275 leave open. -/
inductive Input where
  /-- A host transaction or command word. -/
  | host (t : HostWord)
  /-- A raw bus access of `bytes` bytes at `addr`; `write` holds a write's data (R85). -/
  | access (addr : Word) (bytes : Nat) (write : Option Word)
  /-- The block agent's turn: its completion step if a command is running (R123). -/
  | block
  /-- Any other act. -/
  | env (e : EnvEvent)
  deriving DecidableEq, Repr

/-- The whole machine. -/
structure State where
  /-- CTRL[2:0] = BLKLE, WRAP256, IE (R23); the reserved bits hold nothing. -/
  ctrl : BitVec 3
  /-- SRC_ADDR (R26). -/
  srcAddr : Word
  /-- SRC_LEN (R27). -/
  srcLen : Word
  /-- DST_ADDR (R28). -/
  dstAddr : Word
  /-- DST_CAP (R29). -/
  dstCap : Word
  /-- OUT_LEN (R30). -/
  outLen : Word
  /-- ERR_INFO (R31). -/
  errInfo : Word
  /-- PHASE, read as STATUS.BUSY (R21, R25). -/
  phase : Phase
  /-- STATUS.DONE (R25). -/
  done : Bool
  /-- STATUS.ERR (R25). -/
  err : Bool
  /-- STATUS.CMDOVR (R25). -/
  cmdOvr : Bool
  /-- STATUS.ERRCODE (R25). -/
  errCode : BitVec 4
  /-- STATUS.LASTOP (R25). -/
  lastOp : BitVec 4
  /-- The latched operands (R40). -/
  latched : Latched
  /-- The internal working state (R41 to R46). -/
  work : Work
  /-- System memory (R60). -/
  mem : Memory
  /-- The platform's parameters (R9, R61, R69). -/
  platform : Platform
  /-- The host duties of R270 in force: the windows of every started command whose end the host has not yet observed, the last
  started first (log entry 9). -/
  duties : List Duty
  /-- Pending acts of the agents, the next one first (the model's own). -/
  inputs : List Input
  /-- The value the last RD returned to the host (the model's own). -/
  hostData : Word
  /-- The level of the interrupt line the host last read (the model's own). -/
  hostIrq : Bool
  /-- The bytes the last MEMR returned to the host (the model's own). -/
  hostBytes : List Byte
  /-- The number of the next draw of free values (the model's own). -/
  draws : Nat
  deriving DecidableEq, Repr

/-- Why the machine stops. -/
inductive Fault where
  /-- Raised by a host write (MEMW) into the source or destination window while the duties of R270 are in force: a breach
  (R271), for which 93_implementation_defined.md I10 prefers a fault. Safe. -/
  | hostDutyWrite
  /-- Raised by a change of `memOk` on a window while the duties of R270 are in force (R271, I10). Safe. -/
  | hostDutyMemOk
  /-- Raised by the completion step, or by a platform change to or from such memory, when a window lies on memory with side
  effects while the duties of R270 are in force (R69, R271, I10). Safe. -/
  | hostDutySideEffects
  /-- Raised by a host memory access that leaves the `2^32` addresses of system memory (R60). Safe. -/
  | outsideMemory
  deriving DecidableEq, Repr

/-- Why an input has no meaning. -/
inductive Refusal where
  /-- Raised by `exec` for an instruction without a meaning yet; no arm does so. Safe. -/
  | notModelled (mnemonic : String)
  /-- Raised by the decoder for a host access that is no aligned 32-bit register transaction (R85, R86). Safe. -/
  | illegalAccess (why : DecodeError)
  deriving DecidableEq, Repr

/-- The latched operands right after reset: R40 leaves them unspecified (log entry 3, DESIGN CHOICE). -/
def Latched.reset : Latched :=
  { op := .encode, srcAddr := 0, srcLen := 0, dstAddr := 0, dstCap := 0, blkle := false, wrap256 := false }

/-- The working state right after reset: R41 to R46 leave it unspecified (log entry 3, DESIGN CHOICE). -/
def Work.reset : Work :=
  { freq := List.replicate Config.symbols 0, nodes := [], queue := [],
    cbLen := List.replicate Config.symbols 0, cbVal := List.replicate Config.symbols 0,
    rmap := [], candLen := 0, candVal := 0, outCnt := 0 }

/-- Memory of which nothing is known: no cell is listed and every address is unspecified (draw 0; log entry 1). -/
def Memory.unknown : Memory :=
  { cells := [], free := [{ span := { lo := 0, hi := Config.addressSpace }, draw := 0 }] }

/-- The machine right after reset (R48, R260). Memory and the platform are not the block's; their values here are those of log
entries 1 and 4, and the model's own fields are those of log entry 5. -/
def State.reset : State :=
  { ctrl := 0, srcAddr := 0, srcLen := 0, dstAddr := 0, dstCap := 0, outLen := 0, errInfo := 0,
    phase := .idle, done := false, err := false, cmdOvr := false, errCode := 0, lastOp := 0,
    latched := Latched.reset, work := Work.reset,
    mem := Memory.unknown, platform := { failing := [], sideEffects := [] },
    duties := [], inputs := [], hostData := 0, hostIrq := false, hostBytes := [], draws := 1 }

end Sys2Proof.Machine
end

