-- ==== Sys2Proof/Machine/Ops.lean ====
section
/-! DEFINITION. The shared operations: address ranges, system memory, bit strings, the code block's byte order, the end of a
command (success and error) and reset. -/

namespace Sys2Proof.Machine

/-! ## Address ranges -/

/-- `a` lies in the span. -/
def Span.has (w : Span) (a : Nat) : Bool := decide (w.lo ≤ a) && decide (a < w.hi)

/-- The span holds no address. -/
def Span.isEmpty (w : Span) : Bool := decide (w.hi ≤ w.lo)

/-- The common part of two spans. -/
def Span.meet (v w : Span) : Span := { lo := max v.lo w.lo, hi := min v.hi w.hi }

/-- Two spans have an address in common. -/
def Span.overlaps (v w : Span) : Bool := !(v.meet w).isEmpty

/-- The part of a span inside system memory's `2^32` addresses (R60). -/
def Span.clip (w : Span) : Span := { lo := w.lo, hi := min w.hi Config.addressSpace }

/-- What is left of `v` without the addresses of `w`: at most two spans, none empty when `v` is not. -/
def Span.carve (v w : Span) : List Span :=
  if v.overlaps w then
    [{ lo := v.lo, hi := w.lo }, { lo := w.hi, hi := v.hi }].filter (fun p => !p.isEmpty)
  else [v]

/-- The address lies in one of the spans. -/
def inSpans (l : List Span) (a : Nat) : Bool := l.any (fun v => v.has a)

/-- The spans without the addresses of `w`. -/
def carveSpans (l : List Span) (w : Span) : List Span := l.flatMap (fun v => v.carve w)

/-- The spans with the addresses of `w` added, still pairwise disjoint and none empty. -/
def addSpan (l : List Span) (w : Span) : List Span := if w.isEmpty then l else w :: carveSpans l w

/-- The lowest address of `w` that lies in one of the spans. -/
def firstIn (l : List Span) (w : Span) : Option Nat :=
  (l.filterMap (fun v => if v.overlaps w then some (max v.lo w.lo) else none)).min?

/-- Some address of `w` lies in none of the spans. -/
def someOutside (l : List Span) (w : Span) : Bool :=
  (l.foldl carveSpans [w]).any (fun p => !p.isEmpty)

/-! ## System memory -/

/-- What an address that no cell lists reads as: the free value of the range that holds it, and 0 outside every such range
(log entries 1 and 2). -/
def Memory.background (m : Memory) (a : Nat) : Byte :=
  match m.free.find? (fun f => f.span.has a) with
  | some f => Config.freeByte f.draw a
  | none => 0

/-- `MemRead(a, 1)` (R13, R66). -/
def Memory.read (m : Memory) (a : Nat) : Byte :=
  match m.cells.find? (fun c => c.1 == a) with
  | some c => c.2
  | none => m.background a

/-- The unspecified ranges without the addresses of `w`. -/
def carveFree (l : List FreeSpan) (w : Span) : List FreeSpan :=
  l.flatMap (fun f => (f.span.carve w).map (fun p => { span := p, draw := f.draw }))

/-- The cells after byte `b` is put at `a`, in canonical form: rising addresses, no cell that holds 0. -/
def setCell (a : Nat) (b : Byte) : List Host.Cell → List Host.Cell
  | [] => if b = 0 then [] else [(a, b)]
  | c :: rest =>
    if a < c.1 then (if b = 0 then c :: rest else (a, b) :: c :: rest)
    else if a = c.1 then (if b = 0 then rest else (a, b) :: rest)
    else c :: setCell a b rest

/-- `MemWrite(a, 1, b)` (R13, R66). -/
def Memory.write (m : Memory) (a : Nat) (b : Byte) : Memory :=
  { cells := setCell a b m.cells, free := carveFree m.free { lo := a, hi := a + 1 } }

/-- Bytes written at increasing addresses from `a` (R63, R154). -/
def Memory.writeBytes (m : Memory) (a : Nat) : List Byte → Memory
  | [] => m
  | b :: bs => (m.write a b).writeBytes (a + 1) bs

/-- The `n` bytes from address `a` on (R15). -/
def Memory.readBytes (m : Memory) (a n : Nat) : List Byte := (List.range' a n).map m.read

/-- Every byte of the span becomes unspecified: the free values of draw number `draw` (R229, R261, I6). -/
def Memory.unspecify (m : Memory) (w : Span) (draw : Nat) : Memory :=
  if w.isEmpty then m
  else { cells := m.cells.filter (fun c => !w.has c.1), free := { span := w, draw := draw } :: carveFree m.free w }

/-- Every byte of every span becomes unspecified (one draw). -/
def Memory.unspecifyAll (m : Memory) (draw : Nat) : List Span → Memory
  | [] => m
  | w :: ws => (m.unspecify w.clip draw).unspecifyAll draw ws

/-- The canonical form of memory: the cells rise strictly, lie in the address space and hold no 0; the unspecified ranges are
nonempty, lie in the address space and do not overlap; no cell lies in one of them. So no cell holds what its address would
read as without it. -/
def Memory.wf (m : Memory) : Bool :=
  decide (m.cells.Pairwise (fun c d => c.1 < d.1)) &&
  m.cells.all (fun c => decide (c.1 < Config.addressSpace) && c.2 != 0 && m.free.all (fun f => !f.span.has c.1)) &&
  m.free.all (fun f => !f.span.isEmpty && decide (f.span.hi ≤ Config.addressSpace)) &&
  decide (m.free.Pairwise (fun f g => f.span.overlaps g.span = false))

/-- `memOk(a)`, the platform's predicate (R9, R61). -/
def Platform.memOk (p : Platform) (a : Nat) : Bool := !inSpans p.failing a

/-! ## Bit strings (R11, R14) -/

/-- `val(c)`: the first bit is the most significant (R14). -/
def bitsVal (c : List Bool) : Nat := c.foldl (fun v b => 2 * v + b.toNat) 0

/-- `bits_L(v)`: the `L`-bit string whose value is `v mod 2^L` (R14). -/
def bitsOf (L v : Nat) : List Bool := (List.range L).map (fun i => v.testBit (L - 1 - i))

/-- `msb_bits(b)`: the eight bits of a byte, most significant first (R15, R65). -/
def msbBits (b : Byte) : List Bool := bitsOf 8 b.toNat

/-- The byte whose bits, most significant first, are the given ones (R65, R98). -/
def byteOfBits (c : List Bool) : Byte := BitVec.ofNat 8 (bitsVal c)

/-- The first `m` payload bytes of a bit string, eight bits a byte (R98, R158). -/
def packBits : Nat → List Bool → List Byte
  | 0, _ => []
  | m + 1, p => byteOfBits (p.take 8) :: packBits m (p.drop 8)

/-- `pad = (8 - (B mod 8)) mod 8` (R98, R152). -/
def padCount (B : Nat) : Nat := (8 - B % 8) % 8

/-- The eight bytes of a 64-bit code block: most significant byte first, or least significant first when `le` (R97). -/
def blockBytes (le : Bool) (v : Nat) : List Byte :=
  let be := (List.range 8).map (fun j => BitVec.ofNat 8 (v >>> (56 - 8 * j)))
  if le then be.reverse else be

/-- The 64-bit value of the eight bytes of a code block (R97). -/
def blockValue (le : Bool) (k : List Byte) : Nat :=
  (if le then k.reverse else k).foldl (fun v b => 256 * v + b.toNat) 0

/-! ## Errors and the end of a command -/

/-- The errors of R220. -/
inductive CmdError where
  | illegalCmd | config | io | dstFull | alphabetFull | codeTooLong
  | fmtTruncated | fmtBadLength | fmtCollision | fmtBadPadding | fmtOverrun | fmtUnterminated
  deriving DecidableEq, Repr

/-- STATUS.ERRCODE of an error (R220). -/
def CmdError.code : CmdError → BitVec 4
  | .illegalCmd => 0x1
  | .config => 0x2
  | .io => 0x3
  | .dstFull => 0x4
  | .alphabetFull => 0x5
  | .codeTooLong => 0x6
  | .fmtTruncated => 0x7
  | .fmtBadLength => 0x8
  | .fmtCollision => 0x9
  | .fmtBadPadding => 0xA
  | .fmtOverrun => 0xB
  | .fmtUnterminated => 0xC

/-- The source document's classes of errors (R220). -/
inductive ErrorClass where
  | argumentError | ioError | formatError
  deriving DecidableEq, Repr

/-- The class of an error (R220). -/
def CmdError.errorClass : CmdError → ErrorClass
  | .illegalCmd => .argumentError
  | .config => .argumentError
  | .io => .ioError
  | .dstFull => .ioError
  | .alphabetFull => .formatError
  | .codeTooLong => .formatError
  | .fmtTruncated => .formatError
  | .fmtBadLength => .formatError
  | .fmtCollision => .formatError
  | .fmtBadPadding => .formatError
  | .fmtOverrun => .formatError
  | .fmtUnterminated => .formatError

/-- How the stages of a command end: with the bytes of the destination window, or with an error and its ERR_INFO. -/
inductive CmdEnd where
  | finish (out : List Byte)
  | raise (e : CmdError) (info : Nat)
  deriving DecidableEq, Repr

/-- The latched source window (R18). -/
def Latched.source (l : Latched) : Span := { lo := l.srcAddr.toNat, hi := l.srcAddr.toNat + l.srcLen.toNat }

/-- The latched destination window (R18). -/
def Latched.destination (l : Latched) : Span := { lo := l.dstAddr.toNat, hi := l.dstAddr.toNat + l.dstCap.toNat }

/-- The windows of a command, as the host duties of R270 name them. -/
def Latched.duty (l : Latched) : Duty := { source := l.source, destination := l.destination }

/-- The two windows. -/
def Duty.windows (d : Duty) : List Span := [d.source, d.destination]

/-- A window has an address in the span. -/
def Duty.touches (d : Duty) (w : Span) : Bool := d.windows.any (fun v => v.overlaps w)

/-- What an error leaves of memory (R229): CONFIG and ILLEGAL_CMD wrote nothing; after any other error every byte of the
destination window is unspecified and no byte outside it was written. -/
def memoryAfterError (e : CmdError) (s : State) : Memory :=
  match e with
  | .illegalCmd => s.mem
  | .config => s.mem
  | _ => s.mem.unspecify s.latched.destination.clip s.draws

/-- The value ERR_INFO takes (R221): the detail value, or a free value where it does not fit 32 bits (log entry 16). -/
def errInfoValue (info draw : Nat) : Word :=
  if info < 2 ^ 32 then BitVec.ofNat 32 info else Config.freeInfo draw

/-- `raise E(info)`: error entry, the one operation that ends a running command in an error (R122, R228, R229). -/
def raise (e : CmdError) (info : Nat) (s : State) : State :=
  { s with
    err := true, errCode := e.code, errInfo := errInfoValue info s.draws, outLen := 0, phase := .idle,
    mem := memoryAfterError e s, draws := s.draws + 1 }

/-- `finish(len)`: the running command ends successfully with `out` in the destination window (R121, R154, R160, R192). -/
def finish (out : List Byte) (s : State) : State :=
  { s with
    outLen := BitVec.ofNat 32 out.length, done := true, phase := .idle,
    mem := s.mem.writeBytes s.latched.dstAddr.toNat out }

/-- The end of a command, either way (R121, R122). -/
def endCommand (r : CmdEnd) (s : State) : State :=
  match r with
  | .finish out => finish out s
  | .raise e info => raise e info s

/-- Error return (R230): the host acknowledges an error by the write-1-to-clear of STATUS.ERR, which also clears ERRCODE and
keeps ERR_INFO (R25, R31). There is no return instruction. -/
def acknowledgeError (s : State) : State := { s with err := false, errCode := 0 }

/-- Memory after a reset (R261, R262): a reset while BUSY leaves the running command's destination window unspecified; no
other byte changes. -/
def memoryAfterReset (s : State) : Memory :=
  match s.phase with
  | .idle => s.mem
  | .busy => s.mem.unspecify s.latched.destination.clip s.draws

/-- A reset of the block (R260 to R262). Memory, the platform and the acts still pending are not the block's and stay. -/
def resetBlock (s : State) : State :=
  { State.reset with
    mem := memoryAfterReset s, platform := s.platform, inputs := s.inputs,
    hostData := s.hostData, hostIrq := s.hostIrq, hostBytes := s.hostBytes, draws := s.draws + 1 }

end Sys2Proof.Machine
end

