-- ==== Sys2Proof/Machine/Flags.lean ====
section
/-! DEFINITION. The flags (10_state.md R25, R33), the bits of CTRL (R23), the value STATUS reads, its write-1-to-clear, and the
interrupt line (60_exceptions.md R240). -/

namespace Sys2Proof.Machine

/-- STATUS.BUSY: 1 while PHASE = BUSY (R25). -/
def State.busy (s : State) : Bool := decide (s.phase = .busy)

/-- CTRL.IE, bit 0 (R23). -/
def State.ie (s : State) : Bool := s.ctrl.getLsbD 0

/-- CTRL.WRAP256, bit 1 (R23). -/
def State.wrap256 (s : State) : Bool := s.ctrl.getLsbD 1

/-- CTRL.BLKLE, bit 2 (R23). -/
def State.blkle (s : State) : Bool := s.ctrl.getLsbD 2

/-- The interrupt line (R240). -/
def State.irq (s : State) : Bool := s.ie && (s.done || s.err)

/-- The value STATUS reads (R25), from bit 31 down: reserved, LASTOP, ERRCODE, reserved, CMDOVR, ERR, DONE, BUSY. -/
def State.statusWord (s : State) : Word :=
  (0#16 ++ s.lastOp ++ s.errCode ++ 0#4 ++ BitVec.ofBool s.cmdOvr ++ BitVec.ofBool s.err
    ++ BitVec.ofBool s.done ++ BitVec.ofBool s.busy : BitVec 32)

/-- The write-1-to-clear of STATUS (R25, R111). -/
def clearStatus (w : Word) (s : State) : State :=
  let s := if w.getLsbD 1 then { s with done := false } else s
  let s := if w.getLsbD 2 then acknowledgeError s else s
  if w.getLsbD 3 then { s with cmdOvr := false } else s

end Sys2Proof.Machine
end

