-- ==== Sys2Proof/Machine/Operands.lean ====
section
/-! DEFINITION. Where a command's operands come from and how they are checked: the latching at a command's start
(40_host_commands.md R116, 10_state.md R40), the configuration check (R119), the source access check (R120) and the source
bytes (R118). -/

namespace Sys2Proof.Machine

/-- The OP field of the command word that starts `op` (R82, R116). -/
def Op.code : Op → BitVec 4
  | .encode => 1
  | .decode => 2

/-- The operands latched when `op` starts (R40, R116). -/
def latchOperands (op : Op) (s : State) : Latched :=
  { op := op, srcAddr := s.srcAddr, srcLen := s.srcLen, dstAddr := s.dstAddr, dstCap := s.dstCap,
    blkle := s.blkle, wrap256 := s.wrap256 }

/-- The configuration check: the `info` of CONFIG, or none when the windows are legal (R119). -/
def configCheck (l : Latched) : Option Nat :=
  if Config.addressSpace < l.source.hi then some 1
  else if Config.addressSpace < l.destination.hi then some 2
  else if 0 < l.srcLen.toNat ∧ 0 < l.dstCap.toNat ∧ l.source.lo < l.destination.hi ∧ l.destination.lo < l.source.hi then some 3
  else none

/-- The lowest address of the span with `memOk` false (R120, R153). -/
def firstFailing (p : Platform) (w : Span) : Option Nat := firstIn p.failing w

/-- `SRC[0 .. L_SRC_LEN-1]`, the source bytes of the running command (R15, R118). -/
def sourceBytes (s : State) : List Byte := s.mem.readBytes s.latched.srcAddr.toNat s.latched.srcLen.toNat

end Sys2Proof.Machine
end

