-- ==== Sys2Proof/Machine/Decoder.lean ====
section
/-! DEFINITION. huffman_decoder: the stages of DECODE after the configuration and source checks (42_decoder.md R182 to R193). -/

namespace Sys2Proof.Machine

/-! ## Codebook deserialize and reverse lookup table -/

/-- The symbol that the reverse map gives the code `(len, val)` (R45). -/
def rmapFind (m : List RevEntry) (len val : Nat) : Option Byte :=
  (m.find? (fun e => e.len == len && e.val == val)).map (·.sym)

/-- Deserialize `n` entries from `body`, the first of them entry number `k` (R184 to R186): the reverse map, and the error that
ended the stage if one did. -/
def deserialize (le : Bool) : Nat → Nat → List Byte → List RevEntry → List RevEntry × Option (CmdError × Nat)
  | 0, _, _, m => (m, none)
  | n + 1, k, body, m =>
    let sym := body.getD 0 0
    let L := (body.getD 1 0).toNat
    if L = 0 ∨ Config.maxCodeLength < L then (m, some (.fmtBadLength, 2 + 10 * k))
    else
      let V := blockValue le ((body.drop 2).take 8) % 2 ^ L
      match rmapFind m L V with
      | some s' =>
        if s' = sym then deserialize le n (k + 1) (body.drop 10) m
        else (m, some (.fmtCollision, 1 + 10 * k))
      | none => deserialize le n (k + 1) (body.drop 10) (m ++ [{ len := L, val := V, sym := sym }])

/-! ## Bitstream walk -/

/-- The walk registers (R46) and the bytes emitted so far, the last one first. -/
structure Walk where
  candLen : Nat
  candVal : Nat
  outCnt : Nat
  emitted : List Byte
  deriving DecidableEq, Repr

/-- The walk at its start (R190). -/
def Walk.start : Walk := { candLen := 0, candVal := 0, outCnt := 0, emitted := [] }

/-- `emit(s)` (R192). -/
def emitSymbol (l : Latched) (p : Platform) (s : Byte) (w : Walk) : Walk × Option (CmdError × Nat) :=
  if w.outCnt = l.dstCap.toNat then (w, some (.dstFull, min (l.dstCap.toNat + 1) Config.wordMax))
  else if p.memOk (l.dstAddr.toNat + w.outCnt) = false then (w, some (.io, l.dstAddr.toNat + w.outCnt))
  else ({ candLen := 0, candVal := 0, outCnt := w.outCnt + 1, emitted := s :: w.emitted }, none)

/-- The walk step for bit number `i` of `T` (R191). -/
def walkStep (l : Latched) (p : Platform) (m : List RevEntry) (i : Nat) (b : Bool) (w : Walk) :
    Walk × Option (CmdError × Nat) :=
  if w.candLen = Config.maxCodeLength then (w, some (.fmtOverrun, i))
  else
    let w := { w with candVal := 2 * w.candVal + b.toNat, candLen := w.candLen + 1 }
    match rmapFind m w.candLen w.candVal with
    | some s => emitSymbol l p s w
    | none => (w, none)

/-- The walk over the remaining bits of `T`, the next of them bit number `i` (R191), and its end (R193). -/
def walkBits (l : Latched) (p : Platform) (m : List RevEntry) : Nat → List Bool → Walk → Walk × Option (CmdError × Nat)
  | _, [], w => (w, if 0 < w.candLen then some (.fmtUnterminated, w.candLen) else none)
  | i, b :: bs, w =>
    match walkStep l p m i b w with
    | (w', some e) => (w', some e)
    | (w', none) => walkBits l p m (i + 1) bs w'

/-! ## Payload region -/

/-- `T`: the payload bytes expanded and the padding bits stripped (R189). -/
def payloadToBits (bytes : List Byte) (pad : Nat) : List Bool :=
  let Q := bytes.flatMap msbBits
  Q.take (Q.length - pad)

/-! ## The stages in order -/

/-- The payload region, its padding check and the walk (R187 to R193). `tail` is the container after the entries. -/
def expandPayload (l : Latched) (p : Platform) (m : List RevEntry) (tail : List Byte) (w : Work) : Work × CmdEnd :=
  let bytes := tail.dropLast
  let pad := (tail.getLastD 0).toNat
  if 7 < pad ∨ 8 * bytes.length < pad then (w, .raise .fmtBadPadding pad)
  else
    let r := walkBits l p m 0 (payloadToBits bytes pad) Walk.start
    let w := { w with candLen := r.1.candLen, candVal := r.1.candVal, outCnt := r.1.outCnt }
    match r.2 with
    | some (e, info) => (w, .raise e info)
    | none => (w, .finish r.1.emitted.reverse)

/-- Stages 3 to 6 of DECODE over the container `C` (R180, R182, R183). -/
def decodeStages (l : Latched) (p : Platform) (C : List Byte) (w : Work) : Work × CmdEnd :=
  let entries := (C.getD 0 0).toNat
  if C.length < 2 then (w, .raise .fmtTruncated C.length)
  else if C.length < 2 + 10 * entries then (w, .raise .fmtTruncated C.length)
  else
    let r := deserialize l.blkle entries 0 (C.drop 1) []
    let w := { w with rmap := r.1 }
    match r.2 with
    | some (e, info) => (w, .raise e info)
    | none => expandPayload l p r.1 (C.drop (1 + 10 * entries)) w

end Sys2Proof.Machine
end

