-- ==== Sys2Proof/Machine/Encoder.lean ====
section
/-! DEFINITION. huffman_encoder: the stages of ENCODE after the configuration and source checks (41_encoder.md R141 to R160). -/

namespace Sys2Proof.Machine

/-! ## Frequency analysis -/

/-- `FREQ[0..255]` of the source bytes (R141). -/
def frequencies (src : List Byte) : List Nat :=
  src.foldl (fun f b => f.modify b.toNat (· + 1)) (List.replicate Config.symbols 0)

/-- `t[s]` of a table indexed by the symbols. -/
def entry (t : List Nat) (s : Byte) : Nat := t.getD s.toNat 0

/-- The alphabet `A`: the symbols present, in ascending order (R142). -/
def alphabet (freq : List Nat) : List Byte :=
  ((List.range Config.symbols).map (BitVec.ofNat 8)).filter (fun s => decide (1 ≤ entry freq s))

/-! ## Tree build -/

/-- `NODE[k].freq`. -/
def Node.freq : Node → Nat
  | .leaf _ f => f
  | .internal _ _ f => f

/-- The freq of the node at an index of the arena. -/
def nodeFreq (nodes : List Node) (k : Nat) : Nat := (nodes[k]?.map Node.freq).getD 0

/-- Node `j` comes before node `k`: the key `(NODE[k].freq, k)` compared lexicographically (R146). -/
def keyBefore (nodes : List Node) (j k : Nat) : Bool :=
  decide (nodeFreq nodes j < nodeFreq nodes k) || (nodeFreq nodes j == nodeFreq nodes k && decide (j < k))

/-- `extractMin(Q)`: the member with the least key, and the others (R146). -/
def extractMin (nodes : List Node) : List Nat → Option (Nat × List Nat)
  | [] => none
  | k :: q =>
    let m := q.foldl (fun m j => if keyBefore nodes j m then j else m) k
    some (m, (k :: q).erase m)

/-- The merge loop (R147): while `Q` has two members, the two least are merged, the second extracted on the left and the first
on the right, and the new node joins `Q`. The first argument bounds the number of rounds. -/
def mergeLoop : Nat → List Node → List Nat → List Node × List Nat
  | 0, nodes, q => (nodes, q)
  | n + 1, nodes, q =>
    match extractMin nodes q with
    | none => (nodes, q)
    | some (x, q1) =>
      match extractMin nodes q1 with
      | none => (nodes, q)
      | some (y, q2) =>
        mergeLoop n (nodes ++ [.internal y x (nodeFreq nodes x + nodeFreq nodes y)]) (nodes.length :: q2)

/-- Seeding: one leaf a present symbol, in ascending order (R145). -/
def seedLeaves (freq : List Nat) (A : List Byte) : List Node := A.map (fun s => .leaf s (entry freq s))

/-- The arena and `Q` after the tree build (R145, R147, R148): at the end `Q` holds the root alone. -/
def buildTree (freq : List Nat) (A : List Byte) : List Node × List Nat :=
  mergeLoop A.length (seedLeaves freq A) (List.range A.length)

/-! ## Code assignment -/

/-- `walk(k, c)`: the codes of the leaves below node `k`, which is reached by the path `c` (R149). The first argument bounds the
depth. -/
def leafCodes (nodes : List Node) : Nat → Nat → List Bool → List (Byte × List Bool)
  | 0, _, _ => []
  | d + 1, k, c =>
    match nodes[k]? with
    | none => []
    | some (.leaf s _) => [(s, c)]
    | some (.internal l r _) => leafCodes nodes d l (c ++ [false]) ++ leafCodes nodes d r (c ++ [true])

/-- The codes of the alphabet: the root paths (R149), or the code "0" for an alphabet of one symbol (R150). -/
def assignCodes (nodes : List Node) (queue : List Nat) : List Byte → List (Byte × List Bool)
  | [] => []
  | [s] => [(s, [false])]
  | _ => leafCodes nodes nodes.length (queue.headD 0) []

/-- `CB_LEN[0..255]` (R149, R150). -/
def codeLengths (codes : List (Byte × List Bool)) : List Nat :=
  codes.foldl (fun t c => t.set c.1.toNat c.2.length) (List.replicate Config.symbols 0)

/-- `CB_VAL[0..255]`, written for the codes of at most 64 bits (R149, R150). DESIGN CHOICE (log entry 3): the entry of an absent
symbol and of a longer code, which R149 does not write and R44 and R47 leave unspecified, is 0 after the code stage. -/
def codeValues (codes : List (Byte × List Bool)) : List Nat :=
  codes.foldl (fun t c => if c.2.length ≤ Config.maxCodeLength then t.set c.1.toNat (bitsVal c.2) else t)
    (List.replicate Config.symbols 0)

/-- `code(s)` as the emit stage reads it from the codebook (R157). -/
def codeOf (cbLen cbVal : List Nat) (s : Byte) : List Bool := bitsOf (entry cbLen s) (entry cbVal s)

/-- The smallest present symbol whose code is too long (R151). -/
def tooLong (cbLen : List Nat) (A : List Byte) : Option Byte :=
  A.find? (fun s => decide (Config.maxCodeLength < entry cbLen s))

/-! ## Output size -/

/-- `B`, the number of payload bits (R152). -/
def payloadBits (freq cbLen : List Nat) (A : List Byte) : Nat := (A.map (fun s => entry freq s * entry cbLen s)).sum

/-- `m`, the number of payload bytes (R152). -/
def payloadBytes (B : Nat) : Nat := (B + padCount B) / 8

/-- `N`, the container's length (R100, R152). -/
def containerLength (entries B : Nat) : Nat := 2 + 10 * entries + payloadBytes B

/-! ## Container emit -/

/-- One codebook entry (R92, R156). -/
def codebookEntry (le : Bool) (cbLen cbVal : List Nat) (s : Byte) : List Byte :=
  [s, BitVec.ofNat 8 (entry cbLen s)] ++ blockBytes le (entry cbVal s)

/-- The payload bit sequence `P` (R157). -/
def payload (cbLen cbVal : List Nat) (src : List Byte) : List Bool := src.flatMap (codeOf cbLen cbVal)

/-- The container: entryCount, entries, packed payload, paddingCount (R155 to R159). -/
def container (le : Bool) (freq cbLen cbVal : List Nat) (A src : List Byte) : List Byte :=
  let B := payloadBits freq cbLen A
  [BitVec.ofNat 8 (A.length % 256)] ++ A.flatMap (codebookEntry le cbLen cbVal)
    ++ packBits (payloadBytes B) (payload cbLen cbVal src ++ List.replicate (padCount B) false)
    ++ [BitVec.ofNat 8 (padCount B)]

/-! ## The stages in order -/

/-- The working state after the tree and code stages; with an empty alphabet neither runs (R143). -/
def buildCodebook (freq : List Nat) (A : List Byte) (w : Work) : Work :=
  if A.isEmpty then w
  else
    let t := buildTree freq A
    let codes := assignCodes t.1 t.2 A
    { w with nodes := t.1, queue := t.2, cbLen := codeLengths codes, cbVal := codeValues codes }

/-- The size and destination checks and the emit (R152 to R160). -/
def emitContainer (l : Latched) (p : Platform) (A src : List Byte) (w : Work) : CmdEnd :=
  let N := containerLength A.length (payloadBits w.freq w.cbLen A)
  if l.dstCap.toNat < N then .raise .dstFull (min N Config.wordMax)
  else
    match firstFailing p { lo := l.dstAddr.toNat, hi := l.dstAddr.toNat + N } with
    | some a => .raise .io a
    | none => .finish (container l.blkle w.freq w.cbLen w.cbVal A src)

/-- Stages 3 to 8 of ENCODE over the source bytes (R140). -/
def encodeStages (l : Latched) (p : Platform) (src : List Byte) (w : Work) : Work × CmdEnd :=
  let freq := frequencies src
  let A := alphabet freq
  let w := { w with freq := freq }
  if A.length = Config.symbols ∧ l.wrap256 = false then (w, .raise .alphabetFull 256)
  else
    let w := buildCodebook freq A w
    match tooLong w.cbLen A with
    | some s => (w, .raise .codeTooLong s.toNat)
    | none => (w, emitContainer l p A src w)

end Sys2Proof.Machine
end

