-- ==== Sys2Proof/Machine/Command.lean ====
section
/-! DEFINITION. The command family: the command write (40_host_commands.md R114 to R117), the meanings of NOP, ENCODE, DECODE
and an illegal word, and the block agent's completion step (R123). -/

namespace Sys2Proof.Machine

/-! ## The command write -/

/-- `drop(w)`: a command written while BUSY (R115). -/
def dropCommand (s : State) : State := { s with cmdOvr := true }

/-- `start(w)`: the command begins (R116). The host duties of R270 come into force on its windows; those on the windows of an
earlier command whose end the host has not observed stay in force beside them (log entry 9). -/
def startCommand (op : Op) (s : State) : State :=
  { s with
    done := false, err := false, errCode := 0, outLen := 0, errInfo := 0, lastOp := op.code,
    latched := latchOperands op s, phase := .busy, duties := (latchOperands op s).duty :: s.duties }

/-- `illegal(w)`: an illegal word written while IDLE (R117). -/
def illegalCommand (w : Word) (s : State) : State :=
  { s with
    done := false, outLen := 0, lastOp := w.extractLsb' 0 4,
    err := true, errCode := CmdError.illegalCmd.code, errInfo := w }

/-- `issue(w)`: a write of `w` to CMD (R114). -/
def issue (w : Word) (s : State) : State :=
  if s.phase = .busy then dropCommand s
  else if w = 0x00000000#32 then s
  else if w = 0x00000001#32 then startCommand .encode s
  else if w = 0x00000002#32 then startCommand .decode s
  else illegalCommand w s

/-! ## The meanings -/

/-- NOP (R124): nothing when IDLE; dropped when BUSY (R115). -/
def execNop (s : State) : Host.Outcome State Fault Refusal :=
  .next (if s.phase = .busy then dropCommand s else s)

/-- ENCODE (R125): starts the encoder when IDLE (R116); dropped when BUSY (R115). The command's work is the block agent's
completion step, `completeEncode` (R123). -/
def execEncode (s : State) : Host.Outcome State Fault Refusal :=
  .next (if s.phase = .busy then dropCommand s else startCommand .encode s)

/-- DECODE (R126): starts the decoder when IDLE (R116); dropped when BUSY (R115). The command's work is the block agent's
completion step, `completeDecode` (R123). -/
def execDecode (s : State) : Host.Outcome State Fault Refusal :=
  .next (if s.phase = .busy then dropCommand s else startCommand .decode s)

/-- An illegal command word (R83, R117): ILLEGAL_CMD when IDLE; dropped when BUSY (R115). -/
def execIllegal (w : Word) (s : State) : Host.Outcome State Fault Refusal :=
  .next (if s.phase = .busy then dropCommand s else illegalCommand w s)

/-! ## The completion step -/

/-- The first two stages of either command (R119, R120): the error they raise, if any. -/
def commonChecks (s : State) : Option (CmdError × Nat) :=
  match configCheck s.latched with
  | some info => some (.config, info)
  | none =>
    match firstFailing s.platform s.latched.source with
    | some a => some (.io, a)
    | none => none

/-- A running command whose stages after the common checks are `stages` runs to its end (R123, R140, R180). -/
def completeWith (stages : Latched → Platform → List Byte → Work → Work × CmdEnd) (s : State) : State :=
  match commonChecks s with
  | some (e, info) => raise e info s
  | none =>
    let r := stages s.latched s.platform (sourceBytes s) s.work
    endCommand r.2 { s with work := r.1 }

/-- ENCODE from its start to its end (R125, R140). -/
def completeEncode (s : State) : State := completeWith encodeStages s

/-- DECODE from its start to its end (R126, R180). -/
def completeDecode (s : State) : State := completeWith decodeStages s

/-- A window of the running command has an address in the span. -/
def touchesWindows (s : State) (w : Span) : Bool := s.latched.duty.touches w

/-- The completion step of the block agent, from BUSY to IDLE (R123). A window on memory with side effects is a breach of the
host duties (R69, R270), a fault (R271, I10). -/
def completeCommand (s : State) : Host.Outcome State Fault Refusal :=
  if s.platform.sideEffects.any (touchesWindows s) then .fault .hostDutySideEffects
  else
    match s.latched.op with
    | .encode => .next (completeEncode s)
    | .decode => .next (completeDecode s)

end Sys2Proof.Machine
end

