-- ==== Sys2Proof/Machine/Register.lean ====
section
/-! DEFINITION. The register family: RD and WR, the host's reads and writes of the register window (40_host_commands.md R110,
R111; 10_state.md R22 to R32). -/

namespace Sys2Proof.Machine

/-- The value a host read of a register returns (R110). -/
def readReg (r : Reg) (s : State) : Word :=
  match r with
  | .id => Config.idValue
  | .ctrl => s.ctrl.setWidth 32
  | .cmd => 0
  | .status => s.statusWord
  | .srcAddr => s.srcAddr
  | .srcLen => s.srcLen
  | .dstAddr => s.dstAddr
  | .dstCap => s.dstCap
  | .outLen => s.outLen
  | .errInfo => s.errInfo
  | .reserved _ => 0

/-- The host looks at the block: with no command running it has seen the end of every command started so far, and the duties of
R270 end (R74, R270). -/
def observeEnd (s : State) : State := { s with duties := if s.busy then s.duties else [] }

/-- A host read of register `r`: the value goes to the host, and nothing of the block changes (R110). A read of STATUS may end
the host duties of R270. -/
def hostRead (r : Reg) (s : State) : State :=
  let s' := { s with hostData := readReg r s }
  match r with
  | .status => observeEnd s'
  | _ => s'

/-- A host write of `w` to register `r` (R111). -/
def writeReg (r : Reg) (w : Word) (s : State) : State :=
  match r with
  | .id => s
  | .ctrl => { s with ctrl := w.setWidth 3 }
  | .cmd => issue w s
  | .status => clearStatus w s
  | .srcAddr => { s with srcAddr := w }
  | .srcLen => { s with srcLen := w }
  | .dstAddr => { s with dstAddr := w }
  | .dstCap => { s with dstCap := w }
  | .outLen => s
  | .errInfo => s
  | .reserved _ => s

/-- RD (R110). -/
def execRd (r : Reg) (s : State) : Host.Outcome State Fault Refusal := .next (hostRead r s)

/-- WR (R111). -/
def execWr (r : Reg) (data : Word) (s : State) : Host.Outcome State Fault Refusal := .next (writeReg r data s)

end Sys2Proof.Machine
end

