-- ==== Sys2Proof/Machine/Environment.lean ====
section
/-! DEFINITION. The acts of the agents around the block: the host's memory accesses, polling and waiting for the interrupt
(30_encoding.md R87, 60_exceptions.md R240), the platform's changes and reset (70_reset_and_hazards.md R260 to R271). -/

namespace Sys2Proof.Machine

/-- The windows on which the host has the duties of R270. -/
def State.dutyWindows (s : State) : List Span := s.duties.flatMap Duty.windows

/-- What a host read of the memory byte at `a` returns. While the host duties are in force a destination byte is unspecified
(R271), and memory with side effects answers with no value the spec knows (R69; log entry 21): both are free values. -/
def hostByte (s : State) (a : Nat) : Byte :=
  if s.duties.any (fun d => d.destination.has a) || inSpans s.platform.sideEffects a then Config.freeByte s.draws a
  else s.mem.read a

/-- MEMW (R87): a write into a window while the duties are in force is a breach (R270, R271). A byte written to memory with side
effects is stored, and no read sees it: reads there are free values until the memory is made plain, and what it holds then is a
free value again (log entry 21). -/
def hostMemWrite (addr : Nat) (data : List Byte) (s : State) : Host.Outcome State Fault Refusal :=
  if Config.addressSpace < addr + data.length then .fault .outsideMemory
  else if s.dutyWindows.any (fun v => v.overlaps { lo := addr, hi := addr + data.length }) then .fault .hostDutyWrite
  else .next { s with mem := s.mem.writeBytes addr data }

/-- MEMR (R87). -/
def hostMemRead (addr count : Nat) (s : State) : Host.Outcome State Fault Refusal :=
  if Config.addressSpace < addr + count then .fault .outsideMemory
  else .next { s with hostBytes := (List.range' addr count).map (hostByte s), draws := s.draws + 1 }

/-- One round of POLL (R87): RD, then done if the value matches; otherwise the block agent gets its turn, as weak fairness asks
(R275), and the host polls again. -/
def poll (r : Reg) (mask value : Word) (s : State) : State :=
  let t := hostRead r s
  if t.hostData &&& mask = value then t
  else { t with inputs := .block :: .env (.poll r mask value) :: t.inputs }

/-- The host reads the interrupt line; seeing it at 1 with no command running ends the duties of R270. -/
def readIrq (s : State) : State :=
  let t := { s with hostIrq := s.irq }
  if s.irq then observeEnd t else t

/-- One round of waiting for the interrupt: as `poll`, on the line. -/
def waitIrq (s : State) : State :=
  let t := readIrq s
  if s.irq then t else { t with inputs := .block :: .env .waitIrq :: t.inputs }

/-- The new parameters after a change. What the memory of a span made plain holds is `becomePlain`'s (log entry 21). -/
def Platform.change (p : Platform) : PlatformChange → Platform
  | .answers w => { p with failing := carveSpans p.failing w }
  | .fails w => { p with failing := addSpan p.failing w.clip }
  | .plain w => { p with sideEffects := carveSpans p.sideEffects w }
  | .device w => { p with sideEffects := addSpan p.sideEffects w.clip }

/-- The breach that a change is while the duties of R270 are in force (R270, R271): `memOk` must not change at an address of a
window, and a window's memory must behave as idempotent memory from the start on, so memory with side effects must neither come
under a window nor have lain there. -/
def changeBreach (s : State) : PlatformChange → Option Fault
  | .answers w =>
    if s.dutyWindows.any (fun v => (firstIn s.platform.failing (v.meet w)).isSome) then some .hostDutyMemOk else none
  | .fails w =>
    if s.dutyWindows.any (fun v => someOutside s.platform.failing (v.meet w.clip)) then some .hostDutyMemOk else none
  | .plain w =>
    if s.dutyWindows.any (fun v => (firstIn s.platform.sideEffects (v.meet w)).isSome) then some .hostDutySideEffects else none
  | .device w => if s.dutyWindows.any (fun v => v.overlaps w.clip) then some .hostDutySideEffects else none

/-- The span's memory becomes idempotent: what the part that had side effects holds from now on is a free value (log entry 21). -/
def becomePlain (w : Span) (s : State) : State :=
  { s with
    platform := s.platform.change (.plain w),
    mem := s.mem.unspecifyAll s.draws (s.platform.sideEffects.map (fun v => v.meet w)), draws := s.draws + 1 }

/-- A change of the platform's parameters takes effect. -/
def applyChange (c : PlatformChange) (s : State) : State :=
  match c with
  | .answers w => { s with platform := s.platform.change (.answers w) }
  | .fails w => { s with platform := s.platform.change (.fails w) }
  | .plain w => becomePlain w s
  | .device w => { s with platform := s.platform.change (.device w) }

/-- The platform changes its parameters. -/
def changePlatform (c : PlatformChange) (s : State) : Host.Outcome State Fault Refusal :=
  match changeBreach s c with
  | some f => .fault f
  | none => .next (applyChange c s)

/-- One act of the agents around the block. -/
def applyEvent (e : EnvEvent) (s : State) : Host.Outcome State Fault Refusal :=
  match e with
  | .memWrite addr data => hostMemWrite addr data s
  | .memRead addr count => hostMemRead addr count s
  | .poll r mask value => .next (poll r mask value s)
  | .readIrq => .next (readIrq s)
  | .waitIrq => .next (waitIrq s)
  | .reset => .next (resetBlock s)
  | .platform c => changePlatform c s

/-! ## Host programs (R88) -/

/-- `WR <reg>, <imm32>` and `RD <reg>` as inputs (R87). -/
def progWr (r : Reg) (data : Word) : Input := .host (encode (.wr r data))

/-- `RD <reg>` (R87). -/
def progRd (r : Reg) : Input := .host (encode (.rd r))

/-- The pseudo-instructions of host programs (R88). -/
inductive Pseudo where
  | nop | encode | decode | wait | clear
  | setup (srcAddr srcLen dstAddr dstCap : Word)
  deriving DecidableEq, Repr

/-- The expansion of a pseudo-instruction (R88). -/
def Pseudo.expand : Pseudo → List Input
  | .nop => [progWr .cmd 0x0#32]
  | .encode => [progWr .cmd 0x1#32]
  | .decode => [progWr .cmd 0x2#32]
  | .wait => [.env (.poll .status 0x1#32 0x0#32)]
  | .clear => [progWr .status 0xE#32]
  | .setup sa sl da dc => [progWr .srcAddr sa, progWr .srcLen sl, progWr .dstAddr da, progWr .dstCap dc]

end Sys2Proof.Machine
end

