-- ==== Sys2Proof/Machine/Fetch.lean ====
section
/-! DEFINITION. Which agent moves next and what it does: the block fetches no program (10_state.md R21, R113), so an instruction
is the host's next pending transaction. -/

namespace Sys2Proof.Machine

/-- What the next step is. -/
inductive Turn where
  /-- A host transaction that decodes to `i`. -/
  | run (i : Instr)
  /-- A host access that the decoder refuses. -/
  | refuse (why : DecodeError)
  /-- The block agent completes the running command. -/
  | complete
  /-- Another act of the host or the platform. -/
  | event (e : EnvEvent)
  /-- Nothing to do: the block waits in IDLE (R263). -/
  | wait
  deriving DecidableEq, Repr

/-- The turn of a decoded access. -/
def turnOf : Except DecodeError Instr → Turn
  | .ok i => .run i
  | .error e => .refuse e

/-- The block agent's turn: its completion step is enabled exactly while a command is running (R123, R275). -/
def blockTurn (s : State) : Turn := if s.phase = .busy then .complete else .wait

/-- The next turn, and the state with its input taken from the list. With no input pending the block agent moves, so that every
started command completes (weak fairness, R275). -/
def fetch (s : State) : Turn × State :=
  match s.inputs with
  | [] => (blockTurn s, s)
  | .host t :: rest => (turnOf (decode t), { s with inputs := rest })
  | .access addr bytes write :: rest => (turnOf (decodeAccess addr bytes write), { s with inputs := rest })
  | .block :: rest => (blockTurn s, { s with inputs := rest })
  | .env e :: rest => (.event e, { s with inputs := rest })

/-- The state with a raw word as the next thing the machine takes. -/
def placeWord (t : HostWord) (s : State) : State := { s with inputs := .host t :: s.inputs }

end Sys2Proof.Machine
end

