-- ==== Sys2Proof/Machine/Dispatch.lean ====
section
/-! DEFINITION. One arm per instruction. -/

namespace Sys2Proof.Machine

def exec (i : Instr) (s : State) : Host.Outcome State Fault Refusal :=
  match i with
  | .nop => Sys2Proof.Machine.execNop s
  | .encode => Sys2Proof.Machine.execEncode s
  | .decode => Sys2Proof.Machine.execDecode s
  | .illegal w => Sys2Proof.Machine.execIllegal w s
  | .rd r => Sys2Proof.Machine.execRd r s
  | .wr r data => Sys2Proof.Machine.execWr r data s

end Sys2Proof.Machine
end

