-- ==== Sys2Proof/Machine/Step.lean ====
section
/-! DEFINITION. One step of the machine: the next turn's agent moves (Machine/Fetch.lean). -/

namespace Sys2Proof.Machine

/-- One step (R123, R275). -/
def step (s : State) : Host.Outcome State Fault Refusal :=
  match fetch s with
  | (.run i, s') => exec i s'
  | (.refuse why, _) => .refused (.illegalAccess why)
  | (.complete, s') => completeCommand s'
  | (.event e, s') => applyEvent e s'
  | (.wait, s') => .next s'

/-- The state with the instruction of the opcode table's word as the host's next transaction. -/
def State.withFetchWord (s : State) (nbits w : Nat) : State := placeWord (tableWord nbits w) s

end Sys2Proof.Machine
end

