-- ==== Sys2Proof/Safety.lean ====
section
/-! DEFINITION. The invariant of the machine: what every step keeps, in the terms the claims use. -/

namespace Sys2Proof.Machine

/-- The spans are nonempty, inside system memory and pairwise disjoint. -/
def spansWf (l : List Span) : Bool :=
  l.all (fun v => !v.isEmpty && decide (v.hi ≤ Config.addressSpace)) &&
  decide (l.Pairwise (fun v w => v.overlaps w = false))

/-- STATUS and the registers a command sets agree with each other. -/
structure StatusInv (s : State) : Prop where
  /-- ERRCODE reads 0 when ERR = 0 (R25, R220). -/
  noErr : s.err = false → s.errCode = 0
  /-- ERRCODE is one of the twelve codes of R220 when ERR = 1: the reserved codes are never produced. -/
  errCodeRange : s.err = true → 1 ≤ s.errCode.toNat ∧ s.errCode.toNat ≤ 12
  /-- A command ends in success or in an error, never both (R121, R122). -/
  notBoth : ¬(s.done = true ∧ s.err = true)
  /-- An error leaves OUT_LEN at 0 (R30). -/
  errLen : s.err = true → s.outLen = 0
  /-- A command writes at most its destination capacity (R29, R70). -/
  lenInWindow : s.outLen.toNat ≤ s.latched.dstCap.toNat

/-- While a command runs, everything its start cleared is still clear (R116), LASTOP names it, and the host duties of R270 are in
force. -/
structure BusyInv (s : State) : Prop where
  flags : s.phase = .busy → s.done = false ∧ s.err = false
  registers : s.phase = .busy → s.outLen = 0 ∧ s.errInfo = 0
  lastOp : s.phase = .busy → s.lastOp = (match s.latched.op with | .encode => 1#4 | .decode => 2#4)
  duties : s.phase = .busy → s.latched.duty ∈ s.duties

/-- Memory is in canonical form, and no draw of free values has been used twice. -/
structure MemoryInv (s : State) : Prop where
  canonical : s.mem.wf = true
  drawsFresh : ∀ f ∈ s.mem.free, f.draw < s.draws

/-- The invariant of the machine. -/
structure Inv (s : State) : Prop where
  status : StatusInv s
  busy : BusyInv s
  memory : MemoryInv s
  failing : spansWf s.platform.failing = true
  sideEffects : spansWf s.platform.sideEffects = true

end Sys2Proof.Machine
end

