-- ==== Sys2Proof/Certificates/Slice0/Obligations.lean ====
section
/-! DEFINITION. The statements for the provers. Each docstring names the rules of spec/ it formalises; where a clause rests on a
choice of the model it names the log entry. -/

open Sys2Proof Sys2Proof.Machine

/-! ## Reset and the invariant -/

/-- R48: what a reset leaves, as the host reads it, and that a reset in IDLE changes no byte of memory; the state after reset has
the same register values. -/
def Obligations.ResetRegisterValues : Prop :=
  ∀ s : State, ∃ t, applyEvent .reset s = .next t ∧
    (s.phase = .idle → ∀ a, t.mem.read a = s.mem.read a) ∧
    ∀ u, u = t ∨ u = State.reset →
      u.phase = .idle ∧ readReg .id u = 0x48554607#32 ∧ readReg .ctrl u = 0 ∧ readReg .status u = 0 ∧
      u.done = false ∧ u.err = false ∧ u.cmdOvr = false ∧ u.errCode = 0 ∧ u.lastOp = 0 ∧
      readReg .srcAddr u = 0 ∧ readReg .srcLen u = 0 ∧ readReg .dstAddr u = 0 ∧ readReg .dstCap u = 0 ∧
      readReg .outLen u = 0 ∧ readReg .errInfo u = 0 ∧ u.irq = false

/-- R261: a reset while BUSY abandons the command: no DONE, no ERR, OUT_LEN reads 0, no byte outside its destination window
changes, and every byte inside it is a free value (log entry 2). -/
def Obligations.ResetWhileBusyAbandonsTheCommand : Prop :=
  ∀ s : State, s.phase = .busy → ∃ t, applyEvent .reset s = .next t ∧
    t.phase = .idle ∧ t.done = false ∧ t.err = false ∧ readReg .outLen t = 0 ∧
    (∀ a, ¬(s.latched.dstAddr.toNat ≤ a ∧ a < s.latched.dstAddr.toNat + s.latched.dstCap.toNat) →
      t.mem.read a = s.mem.read a) ∧
    (∀ a, s.latched.dstAddr.toNat ≤ a → a < s.latched.dstAddr.toNat + s.latched.dstCap.toNat → a < 2 ^ 32 →
      t.mem.read a = Config.freeByte s.draws a)

/-- The state after reset meets the machine's invariant. -/
def Obligations.ResetStateMeetsTheInvariant : Prop := Inv State.reset

/-- Every step keeps the invariant: the flags, ERRCODE, OUT_LEN and LASTOP agree (R25, R30, R116, R220), the running command's
registers stay clear, memory keeps its canonical form and no free value is drawn twice. -/
def Obligations.EveryStepKeepsTheInvariant : Prop :=
  ∀ s t : State, Inv s → step s = .next t → Inv t

/-! ## Decoding and the step -/

/-- A step takes the host's next transaction, decodes it and runs it; so does a step on a word of the opcode table. -/
def Obligations.StepRunsTheDecodedTransaction : Prop :=
  (∀ (s : State) (w : HostWord) (rest : List Input) (i : Instr),
    s.inputs = .host w :: rest → decode w = .ok i → step s = exec i { s with inputs := rest }) ∧
  (∀ (s : State) (nbits w : Nat) (i : Instr),
    decodeTableWord nbits w = some i → step (s.withFetchWord nbits w) = exec i s)

/-- R123, R263, R275: with no act pending a running command completes and an idle block waits; at its turn the block agent does
the same. -/
def Obligations.BlockAgentCompletesTheRunningCommand : Prop :=
  ∀ s : State,
    (s.inputs = [] → s.phase = .busy → step s = completeCommand s) ∧
    (s.inputs = [] → s.phase = .idle → step s = .next s) ∧
    (∀ rest, s.inputs = .block :: rest → s.phase = .busy → step s = completeCommand { s with inputs := rest }) ∧
    (∀ rest, s.inputs = .block :: rest → s.phase = .idle → step s = .next { s with inputs := rest })

/-- R85, R86: a descriptor whose low offset bits are not zero is refused; of the raw accesses, one outside the 64 bytes of the
register window, one that is not four bytes wide and one at an offset that is no multiple of 4 are refused, and an aligned 32-bit
access runs the transaction of its offset. -/
def Obligations.OnlyAlignedWordAccessesRun : Prop :=
  (∀ (s : State) (t : Byte) (data : Word) (rest : List Input),
    s.inputs = .host (.bus t data) :: rest → t.getLsbD 7 = false → t.toNat % 4 ≠ 0 →
    step s = .refused (.illegalAccess .misaligned)) ∧
  (∀ (s : State) (off : Word) (bytes : Nat) (write : Option Word) (rest : List Input),
    s.inputs = .access (Config.regBase + off) bytes write :: rest →
    (64 ≤ off.toNat → step s = .refused (.illegalAccess .outsideWindow)) ∧
    (off.toNat < 64 → bytes ≠ 4 → step s = .refused (.illegalAccess .badWidth)) ∧
    (off.toNat < 64 → bytes = 4 → off.toNat % 4 ≠ 0 → step s = .refused (.illegalAccess .misaligned)) ∧
    (off.toNat < 64 → bytes = 4 → off.toNat % 4 = 0 →
      step s = exec (match write with
        | some data => .wr (Reg.ofIndex (BitVec.ofNat 4 (off.toNat / 4))) data
        | none => .rd (Reg.ofIndex (BitVec.ofNat 4 (off.toNat / 4)))) { s with inputs := rest }))

/-- R82, R86: words written out from the spec's encodings decode to their instructions. -/
def Obligations.SpecWordsDecodeToTheirInstructions : Prop :=
  decode (.command 0x00000000#32) = .ok .nop ∧
  decode (.command 0x00000001#32) = .ok .encode ∧
  decode (.command 0x00000002#32) = .ok .decode ∧
  decode (.command 0x80000001#32) = .ok (.illegal 0x80000001#32) ∧
  decode (.bus 0b1_0100_00#8 0x1000#32) = .ok (.wr .srcAddr 0x1000#32) ∧
  decode (.bus 0b0_0011_00#8 0#32) = .ok (.rd .status)

/-- R81, R83: a command word selects NOP, ENCODE or DECODE exactly when it is 0, 1 or 2, and every other word is illegal. -/
def Obligations.EveryOtherCommandWordIsIllegal : Prop :=
  ∀ w : Word,
    (decodeCommand w = .nop ↔ w.extractLsb' 4 28 = 0#28 ∧ w.extractLsb' 0 4 = 0#4) ∧
    (decodeCommand w = .encode ↔ w.extractLsb' 4 28 = 0#28 ∧ w.extractLsb' 0 4 = 1#4) ∧
    (decodeCommand w = .decode ↔ w.extractLsb' 4 28 = 0#28 ∧ w.extractLsb' 0 4 = 2#4) ∧
    (decodeCommand w = .illegal w ↔ w ≠ 0x00000000#32 ∧ w ≠ 0x00000001#32 ∧ w ≠ 0x00000002#32)

/-- Decoding the encoding of a well-formed instruction gives it back, for every instruction and every operand. -/
def Obligations.DecodeOfEncodeIsTheInstruction : Prop :=
  ∀ i : Instr, i.wellFormed = true → decode (encode i) = .ok i

/-- What decodes is well formed, and its encoding is the word it came from; the data word beside a read is not part of it. -/
def Obligations.EncodeOfDecodeIsTheWord : Prop :=
  ∀ (w : HostWord) (i : Instr), decode w = .ok i →
    i.wellFormed = true ∧
    (match w with
      | .command v => encode i = .command v
      | .bus t data => encode i = .bus t (if t.getLsbD 6 then data else 0#32))

/-! ## Register access -/

/-- R110: RD returns the register's current value to the host, in every state, and changes nothing of the block, of memory or of
the pending acts; only a read of STATUS may end the host's duties (R270). -/
def Obligations.RdReturnsTheRegister : Prop :=
  ∀ (s : State) (r : Reg), ∃ t, exec (.rd r) s = .next t ∧
    (match r with
      | .id => t.hostData = 0x48554607#32
      | .ctrl => t.hostData.toNat = s.ctrl.toNat
      | .cmd => t.hostData = 0
      | .status =>
        t.hostData.toNat = s.lastOp.toNat * 2 ^ 12 + s.errCode.toNat * 2 ^ 8 + s.cmdOvr.toNat * 2 ^ 3 + s.err.toNat * 2 ^ 2
          + s.done.toNat * 2 + (if s.phase = .busy then 1 else 0)
      | .srcAddr => t.hostData = s.srcAddr
      | .srcLen => t.hostData = s.srcLen
      | .dstAddr => t.hostData = s.dstAddr
      | .dstCap => t.hostData = s.dstCap
      | .outLen => t.hostData = s.outLen
      | .errInfo => t.hostData = s.errInfo
      | .reserved _ => t.hostData = 0) ∧
    t = { s with hostData := t.hostData, duties := t.duties } ∧
    (r ≠ .status → t.duties = s.duties) ∧
    (r = .status → t.duties = if s.phase = .busy then s.duties else [])

/-- R111: what a host write does, register by register, and that it does nothing else. A write of CMD issues its word (R114). -/
def Obligations.WrWritesExactlyItsRegister : Prop :=
  ∀ (s : State) (w : Word),
    exec (.wr .id w) s = .next s ∧ exec (.wr .outLen w) s = .next s ∧ exec (.wr .errInfo w) s = .next s ∧
    (∀ k, exec (.wr (.reserved k) w) s = .next s) ∧
    (∃ t, exec (.wr .ctrl w) s = .next t ∧ t.ctrl.toNat = w.toNat % 8 ∧ t = { s with ctrl := t.ctrl }) ∧
    (∃ t, exec (.wr .status w) s = .next t ∧
      t.done = (s.done && !w.getLsbD 1) ∧ t.err = (s.err && !w.getLsbD 2) ∧
      t.errCode = (if w.getLsbD 2 then 0 else s.errCode) ∧ t.cmdOvr = (s.cmdOvr && !w.getLsbD 3) ∧
      t = { s with done := t.done, err := t.err, errCode := t.errCode, cmdOvr := t.cmdOvr }) ∧
    exec (.wr .srcAddr w) s = .next { s with srcAddr := w } ∧
    exec (.wr .srcLen w) s = .next { s with srcLen := w } ∧
    exec (.wr .dstAddr w) s = .next { s with dstAddr := w } ∧
    exec (.wr .dstCap w) s = .next { s with dstCap := w } ∧
    exec (.wr .cmd w) s = .next (issue w s)

/-- R24, R114: a write of `w` to CMD is the command that the word `w` selects, in every state. -/
def Obligations.CmdWriteRunsTheCommandWord : Prop :=
  ∀ (s : State) (w : Word), exec (.wr .cmd w) s = exec (decodeCommand w) s

/-- R274: a register read after a register write returns the written value, for the read-write registers. -/
def Obligations.RegisterReadAfterWrite : Prop :=
  ∀ (s : State) (w : Word) (r : Reg), r = .ctrl ∨ r = .srcAddr ∨ r = .srcLen ∨ r = .dstAddr ∨ r = .dstCap →
    ∃ t u, exec (.wr r w) s = .next t ∧ exec (.rd r) t = .next u ∧
      u.hostData = (if r = .ctrl then w &&& 0x00000007#32 else w)

/-- R112: no register access reads or writes system memory through the block, reaches the working state, or touches the platform
or the acts pending; every register access and every command write completes. -/
def Obligations.HostAccessLeavesMemoryAndWorkAlone : Prop :=
  ∀ (s : State) (i : Instr), ∃ t, exec i s = .next t ∧
    t.mem = s.mem ∧ t.work = s.work ∧ t.platform = s.platform ∧ t.inputs = s.inputs ∧ t.draws = s.draws ∧
    t.hostBytes = s.hostBytes

/-- R40, R115, R223, R272: whatever instruction the host runs while a command is running, the command's latched operands stay, it
keeps running, and it ends exactly as it would have: same memory, OUT_LEN, ERR_INFO and working state, and, under the invariant,
same DONE, ERR and ERRCODE. -/
def Obligations.RunningCommandIsIndependentOfHostAccesses : Prop :=
  ∀ (s : State) (i : Instr), s.phase = .busy → ∃ t, exec i s = .next t ∧
    t.phase = .busy ∧ t.latched = s.latched ∧
    ∀ u, completeCommand s = .next u → ∃ v, completeCommand t = .next v ∧
      v.mem = u.mem ∧ v.outLen = u.outLen ∧ v.errInfo = u.errInfo ∧ v.work = u.work ∧ v.phase = u.phase ∧
      (Inv s → v.done = u.done ∧ v.err = u.err ∧ v.errCode = u.errCode)

/-! ## Commands -/

/-- R124: NOP changes nothing when IDLE and sets CMDOVR alone when BUSY; a word with OP = 0 and RSVD not 0 is no NOP. -/
def Obligations.NopChangesNothing : Prop :=
  decodeCommand 0x00000000#32 = .nop ∧
  (∀ s : State, s.phase = .idle → exec .nop s = .next s) ∧
  (∀ s : State, s.phase = .busy → exec .nop s = .next { s with cmdOvr := true }) ∧
  (∀ w : Word, w.extractLsb' 4 28 ≠ 0#28 → decodeCommand w = .illegal w)

/-- R116: an ENCODE or DECODE written while IDLE starts: what it clears, what it latches, and that the rest stays; the interrupt
line falls. -/
def Obligations.CommandStartLatchesItsOperands : Prop :=
  ∀ (s : State) (i : Instr) (op : Op), s.phase = .idle →
    (i = .encode ∧ op = .encode ∨ i = .decode ∧ op = .decode) → ∃ t, exec i s = .next t ∧
    t.done = false ∧ t.err = false ∧ t.errCode = 0 ∧ t.outLen = 0 ∧ t.errInfo = 0 ∧
    t.lastOp = (match op with | .encode => 1#4 | .decode => 2#4) ∧
    t.latched = { op := op, srcAddr := s.srcAddr, srcLen := s.srcLen, dstAddr := s.dstAddr, dstCap := s.dstCap,
                  blkle := s.ctrl.getLsbD 2, wrap256 := s.ctrl.getLsbD 1 } ∧
    t.phase = .busy ∧ t.irq = false ∧
    t.cmdOvr = s.cmdOvr ∧ t.ctrl = s.ctrl ∧ t.srcAddr = s.srcAddr ∧ t.srcLen = s.srcLen ∧ t.dstAddr = s.dstAddr ∧
    t.dstCap = s.dstCap ∧ t.mem = s.mem ∧ t.work = s.work ∧ t.platform = s.platform ∧ t.inputs = s.inputs

/-- R117: an illegal word written while IDLE ends at once in ILLEGAL_CMD, without going BUSY and without a memory access. -/
def Obligations.IllegalWordRaisesIllegalCmd : Prop :=
  ∀ (s : State) (w : Word), s.phase = .idle → exec (.illegal w) s = .next
    { s with done := false, outLen := 0, lastOp := w.extractLsb' 0 4, err := true, errCode := 0x1#4, errInfo := w }

/-- R115, R223: a command written while BUSY, whatever its word, changes CMDOVR alone. -/
def Obligations.CommandWhileBusyIsDropped : Prop :=
  ∀ (s : State) (w : Word), s.phase = .busy →
    exec .nop s = .next { s with cmdOvr := true } ∧ exec .encode s = .next { s with cmdOvr := true } ∧
    exec .decode s = .next { s with cmdOvr := true } ∧ exec (.illegal w) s = .next { s with cmdOvr := true } ∧
    exec (.wr .cmd w) s = .next { s with cmdOvr := true }

/-- R240: the interrupt line is CTRL.IE and (DONE or ERR), whatever the rest of the state; the host reads it as it is; an illegal
word written while IDLE raises it when IE = 1. -/
def Obligations.IrqIsEnabledDoneOrErr : Prop :=
  (∀ s : State, s.irq = true ↔ s.ctrl.getLsbD 0 = true ∧ (s.done = true ∨ s.err = true)) ∧
  (∀ s : State, ∃ t, applyEvent .readIrq s = .next t ∧ t.hostIrq = s.irq ∧ t.irq = s.irq) ∧
  (∀ (s : State) (w : Word), s.phase = .idle → s.ctrl.getLsbD 0 = true →
    ∃ t, exec (.illegal w) s = .next t ∧ t.irq = true)

/-! ## Checks, errors and the end of a command -/

/-- R119: the configuration check of a running command, in its order; nothing is written, and with legal windows no CONFIG is
raised. -/
def Obligations.ConfigErrorsInOrder : Prop :=
  ∀ s : State, s.platform.sideEffects.any (touchesWindows s) = false →
    let src := s.latched.srcAddr.toNat
    let len := s.latched.srcLen.toNat
    let dst := s.latched.dstAddr.toNat
    let cap := s.latched.dstCap.toNat
    let raisesConfig (info : Word) := ∃ t, completeCommand s = .next t ∧ t.phase = .idle ∧ t.err = true ∧ t.errCode = 0x2#4 ∧
      t.errInfo = info ∧ t.outLen = 0 ∧ t.mem = s.mem
    if 2 ^ 32 < src + len then raisesConfig 1
    else if 2 ^ 32 < dst + cap then raisesConfig 2
    else if 0 < len ∧ 0 < cap ∧ src < dst + cap ∧ dst < src + len then raisesConfig 3
    else ∀ t, completeCommand s = .next t → s.errCode ≠ 0x2#4 → t.errCode ≠ 0x2#4

/-- R120: with legal windows, the lowest source address at which `memOk` is false is reported as IO, for either command. -/
def Obligations.LowestFailingSourceAddressIsIo : Prop :=
  ∀ (s : State) (a : Nat), s.platform.sideEffects.any (touchesWindows s) = false → configCheck s.latched = none →
    s.latched.srcAddr.toNat ≤ a → a < s.latched.srcAddr.toNat + s.latched.srcLen.toNat → s.platform.memOk a = false →
    (∀ b, s.latched.srcAddr.toNat ≤ b → b < a → s.platform.memOk b = true) →
    ∃ t, completeCommand s = .next t ∧ t.phase = .idle ∧ t.err = true ∧ t.errCode = 0x3#4 ∧ t.errInfo.toNat = a ∧ t.outLen = 0

/-- R220, R228, R229: the ERRCODE of each error; error entry: the registers it writes and that the rest stays; CONFIG leaves memory as it was; any other error of a
running command leaves every destination byte a free value (log entry 2) and every byte outside unchanged. R122, R227: a running command
that passes the common checks and whose stages end in an error enters exactly that error, with that detail value, whichever command it
is, and the error is neither CONFIG nor ILLEGAL_CMD. -/
def Obligations.RaiseEntersTheError : Prop :=
  (∀ (e : CmdError) (info : Nat) (s : State), ∃ m v,
    raise e info s = { s with
      err := true, errInfo := v, outLen := 0, phase := .idle, mem := m, draws := s.draws + 1,
      errCode := match e with
        | .illegalCmd => 0x1#4 | .config => 0x2#4 | .io => 0x3#4 | .dstFull => 0x4#4
        | .alphabetFull => 0x5#4 | .codeTooLong => 0x6#4 | .fmtTruncated => 0x7#4 | .fmtBadLength => 0x8#4
        | .fmtCollision => 0x9#4 | .fmtBadPadding => 0xA#4 | .fmtOverrun => 0xB#4 | .fmtUnterminated => 0xC#4 } ∧
    (info < 2 ^ 32 → v.toNat = info) ∧
    ((e = .config ∨ e = .illegalCmd) → m = s.mem) ∧
    (e ≠ .config → e ≠ .illegalCmd →
      (∀ a, ¬(s.latched.dstAddr.toNat ≤ a ∧ a < s.latched.dstAddr.toNat + s.latched.dstCap.toNat) →
        m.read a = s.mem.read a) ∧
      (∀ a, s.latched.dstAddr.toNat ≤ a → a < s.latched.dstAddr.toNat + s.latched.dstCap.toNat → a < 2 ^ 32 →
        m.read a = Config.freeByte s.draws a))) ∧
  (∀ (s : State) (w : Work) (e : CmdError) (info : Nat), s.platform.sideEffects.any (touchesWindows s) = false →
    configCheck s.latched = none → firstFailing s.platform s.latched.source = none →
    (match s.latched.op with
      | .encode => encodeStages s.latched s.platform (sourceBytes s) s.work
      | .decode => decodeStages s.latched s.platform (sourceBytes s) s.work) = (w, .raise e info) →
    completeCommand s = .next (raise e info { s with work := w }) ∧ e ≠ .config ∧ e ≠ .illegalCmd)

/-- R121, R122, R127: from every state of the invariant in which a command runs, it ends: in IDLE, either with DONE and no error,
or with ERR, an error code and OUT_LEN = 0. -/
def Obligations.EveryCommandEndsInSuccessOrError : Prop :=
  ∀ s : State, Inv s → s.phase = .busy → s.platform.sideEffects.any (touchesWindows s) = false →
    ∃ t, completeCommand s = .next t ∧ t.phase = .idle ∧
      ((t.done = true ∧ t.err = false ∧ t.errCode = 0 ∧ t.errInfo = 0) ∨
        (t.done = false ∧ t.err = true ∧ 2 ≤ t.errCode.toNat ∧ t.errCode.toNat ≤ 12 ∧ t.outLen = 0))

/-- R222: the errors each command can raise. -/
def Obligations.ErrorsOfEachCommand : Prop :=
  ∀ s t : State, Inv s → s.phase = .busy → completeCommand s = .next t → t.err = true →
    (s.latched.op = .encode → t.errCode ∈ [0x2#4, 0x3#4, 0x4#4, 0x5#4, 0x6#4]) ∧
    (s.latched.op = .decode → t.errCode ∈ [0x2#4, 0x3#4, 0x4#4, 0x7#4, 0x8#4, 0x9#4, 0xA#4, 0xB#4, 0xC#4])

/-- R70, R118, R229: a command never changes a byte outside its destination window, however it ends, and changes no register but
STATUS, OUT_LEN and ERR_INFO. -/
def Obligations.CommandWritesOnlyItsDestinationWindow : Prop :=
  ∀ s t : State, completeCommand s = .next t →
    (∀ a, ¬(s.latched.dstAddr.toNat ≤ a ∧ a < s.latched.dstAddr.toNat + s.latched.dstCap.toNat) →
      t.mem.read a = s.mem.read a) ∧
    t.ctrl = s.ctrl ∧ t.srcAddr = s.srcAddr ∧ t.srcLen = s.srcLen ∧ t.dstAddr = s.dstAddr ∧ t.dstCap = s.dstCap ∧
    t.latched = s.latched ∧ t.cmdOvr = s.cmdOvr ∧ t.lastOp = s.lastOp ∧ t.platform = s.platform ∧ t.inputs = s.inputs

/-- R70, R121, R154, R160, R192: when the stages of a command end with the bytes `out`, the command ends with DONE, OUT_LEN is their
number, ERR, ERRCODE and ERR_INFO stay, destination byte `j` is `out[j]`, and every other byte of memory, the rest of the window included, is unchanged. -/
def Obligations.SuccessWritesExactlyItsOutput : Prop :=
  ∀ (s : State) (w : Work) (out : List Byte), s.mem.wf = true → s.platform.sideEffects.any (touchesWindows s) = false →
    configCheck s.latched = none → firstFailing s.platform s.latched.source = none →
    (match s.latched.op with
      | .encode => encodeStages s.latched s.platform (sourceBytes s) s.work
      | .decode => decodeStages s.latched s.platform (sourceBytes s) s.work) = (w, .finish out) →
    ∃ t, completeCommand s = .next t ∧ t.phase = .idle ∧ t.done = true ∧ t.outLen.toNat = out.length ∧
      out.length ≤ s.latched.dstCap.toNat ∧ t.err = s.err ∧ t.errCode = s.errCode ∧ t.errInfo = s.errInfo ∧
      (∀ j, j < out.length → out[j]? = some (t.mem.read (s.latched.dstAddr.toNat + j))) ∧
      (∀ a, ¬(s.latched.dstAddr.toNat ≤ a ∧ a < s.latched.dstAddr.toNat + out.length) → t.mem.read a = s.mem.read a)

/-! ## The encoder's stages -/

/-- R141: `FREQ[s]` counts the occurrences of `s` in the source, and the table has one counter a symbol. -/
def Obligations.FrequencyIsTheNumberOfOccurrences : Prop :=
  ∀ src : List Byte, (frequencies src).length = 256 ∧ ∀ s : Byte, (frequencies src).getD s.toNat 0 = src.count s

/-- R142: the alphabet is exactly the set of symbols present, in ascending order, so without repeats and at most 256. -/
def Obligations.AlphabetIsThePresentSymbolsAscending : Prop :=
  ∀ src : List Byte,
    let A := alphabet (frequencies src)
    (∀ s : Byte, s ∈ A ↔ s ∈ src) ∧ A.Pairwise (fun s t => s.toNat < t.toNat) ∧ A.length ≤ 256

/-- R146: `extractMin` takes the member of `Q` with the least key `(NODE[k].freq, k)` and leaves the others. -/
def Obligations.ExtractMinTakesTheLeastKey : Prop :=
  ∀ (nodes : List Node) (q : List Nat),
    (q ≠ [] → (extractMin nodes q).isSome = true) ∧
    ∀ m rest, extractMin nodes q = some (m, rest) → m ∈ q ∧ rest = q.erase m ∧
      ∀ k ∈ q, nodeFreq nodes m < nodeFreq nodes k ∨ (nodeFreq nodes m = nodeFreq nodes k ∧ m ≤ k)

/-- R145 to R148: the tree of an alphabet of `n ≥ 1` symbols has its `n` leaves first, then exactly `n - 1` internal nodes, and ends
with the root `2n - 2` alone in `Q`. Internal node `k` merges the two least of the nodes that were still waiting when it was made (no
earlier node's child): the least is its right child, the second its left child, and its freq is their sum. -/
def Obligations.TreeHasOneInternalNodeLessThanLeaves : Prop :=
  ∀ (freq : List Nat) (A : List Byte), A ≠ [] →
    let T := buildTree freq A
    let before (j k : Nat) : Prop := nodeFreq T.1 j < nodeFreq T.1 k ∨ (nodeFreq T.1 j = nodeFreq T.1 k ∧ j < k)
    let waiting (j k : Nat) : Prop := j < k ∧
      ∀ (i l r f : Nat), i < k → T.1[i]? = some (Node.internal l r f) → j ≠ l ∧ j ≠ r
    T.1.length = 2 * A.length - 1 ∧ T.2 = [2 * A.length - 2] ∧
    (∀ (k : Nat) (s : Byte), A[k]? = some s → T.1[k]? = some (Node.leaf s (freq.getD s.toNat 0))) ∧
    (∀ k : Nat, A.length ≤ k → k < 2 * A.length - 1 → ∃ l r f : Nat, T.1[k]? = some (Node.internal l r f) ∧
      waiting l k ∧ waiting r k ∧ before r l ∧ (∀ j, waiting j k → j ≠ r → j ≠ l → before l j) ∧
      f = nodeFreq T.1 l + nodeFreq T.1 r)

/-- R41, R42, R44: the working state fits its widths: every count and every node's freq is at most the source length, the root's is
the source length, the arena has at most 511 nodes, and no code is longer than 255 bits. -/
def Obligations.EncoderWorkFitsItsWidths : Prop :=
  ∀ src : List Byte, src ≠ [] →
    let freq := frequencies src
    let A := alphabet freq
    let T := buildTree freq A
    (∀ f ∈ freq, f ≤ src.length) ∧ (∀ x ∈ T.1, x.freq ≤ src.length) ∧ nodeFreq T.1 (2 * A.length - 2) = src.length ∧
    T.1.length ≤ 511 ∧ ∀ c ∈ assignCodes T.1 T.2 A, c.2.length ≤ 255

/-- R149, R150: every present symbol gets exactly one code, of at least one bit, no other symbol gets one, and no code is a prefix of
another symbol's code. With two symbols or more a code is the path from the root to the symbol's leaf, 0 for a left and 1 for a right
edge; the only symbol of a single-symbol source has the code "0". -/
def Obligations.CodesArePrefixFree : Prop :=
  ∀ src : List Byte, src ≠ [] →
    let A := alphabet (frequencies src)
    let T := buildTree (frequencies src) A
    let codes := assignCodes T.1 T.2 A
    (codes.map Prod.fst).Nodup ∧ (∀ s, s ∈ codes.map Prod.fst ↔ s ∈ src) ∧
    (∀ c ∈ codes, c.2 ≠ []) ∧
    (∀ c ∈ codes, ∀ d ∈ codes, c.1 ≠ d.1 → ¬ c.2 <+: d.2) ∧
    (∀ s, A = [s] → codes = [(s, [false])]) ∧
    (2 ≤ A.length → ∀ c ∈ codes, ∃ path : List Nat, path.length = c.2.length + 1 ∧ path[0]? = some (2 * A.length - 2) ∧
      (∃ k f : Nat, path[c.2.length]? = some k ∧ T.1[k]? = some (Node.leaf c.1 f)) ∧
      ∀ (i : Nat) (b : Bool), c.2[i]? = some b → ∃ k l r f : Nat, path[i]? = some k ∧ T.1[k]? = some (Node.internal l r f) ∧
        path[i + 1]? = some (if b then r else l))

/-- R44, R149: CB_LEN holds each symbol's code length, 0 for an absent symbol, and the code that the emit stage reads back from
CB_LEN and CB_VAL is the assigned code when it has at most 64 bits. -/
def Obligations.CodebookHoldsTheCodes : Prop :=
  ∀ codes : List (Byte × List Bool), (codes.map Prod.fst).Nodup →
    (∀ c ∈ codes, entry (codeLengths codes) c.1 = c.2.length) ∧
    (∀ s, s ∉ codes.map Prod.fst → entry (codeLengths codes) s = 0) ∧
    (∀ c ∈ codes, c.2.length ≤ 64 → codeOf (codeLengths codes) (codeValues codes) c.1 = c.2)

/-- R151, 93_implementation_defined.md G1: CODE_TOO_LONG cannot occur: no source of fewer than 2^32 bytes, so no source that the block
can be given, makes a code longer than 64 bits. -/
def Obligations.CodeTooLongIsUnreachable : Prop :=
  (∀ (src : List Byte) (w : Work), src.length < 2 ^ 32 →
    let freq := frequencies src
    let A := alphabet freq
    ∀ s ∈ A, entry (buildCodebook freq A { w with freq := freq }).cbLen s ≤ 64) ∧
  (∀ s t : State, Inv s → s.phase = .busy → s.latched.op = .encode → completeCommand s = .next t → t.errCode ≠ 0x6#4)

/-- R144: an ENCODE of a source that holds all 256 byte values raises ALPHABET_FULL with ERR_INFO = 256 when WRAP256 was latched 0. -/
def Obligations.FullAlphabetIsReported : Prop :=
  ∀ s : State, s.latched.op = .encode → s.latched.wrap256 = false →
    s.platform.sideEffects.any (touchesWindows s) = false → configCheck s.latched = none →
    firstFailing s.platform s.latched.source = none → (∀ b : Byte, b ∈ sourceBytes s) →
    ∃ t, completeCommand s = .next t ∧ t.phase = .idle ∧ t.err = true ∧ t.errCode = 0x5#4 ∧ t.errInfo.toNat = 256 ∧ t.outLen = 0

/-- R143: an ENCODE of the empty source writes the container 0x00 0x00 and ends with OUT_LEN = 2. -/
def Obligations.EmptySourceGivesTheTwoByteContainer : Prop :=
  ∀ s : State, s.mem.wf = true → s.latched.op = .encode → s.latched.srcLen = 0 → 2 ≤ s.latched.dstCap.toNat →
    s.latched.dstAddr.toNat + s.latched.dstCap.toNat ≤ 2 ^ 32 →
    s.platform.memOk s.latched.dstAddr.toNat = true → s.platform.memOk (s.latched.dstAddr.toNat + 1) = true →
    s.platform.sideEffects.any (touchesWindows s) = false →
    ∃ t, completeCommand s = .next t ∧ t.phase = .idle ∧ t.done = true ∧ t.outLen = 2 ∧
      t.mem.read s.latched.dstAddr.toNat = 0 ∧ t.mem.read (s.latched.dstAddr.toNat + 1) = 0 ∧
      ∀ a, a ≠ s.latched.dstAddr.toNat → a ≠ s.latched.dstAddr.toNat + 1 → t.mem.read a = s.mem.read a

/-- R150, R162: an ENCODE's container for one byte value repeated `n ≥ 1` times: one entry with the code "0", `ceil(n/8)` zero payload
bytes and the padding count, in either byte order. -/
def Obligations.SingleSymbolSourceGivesZeroBits : Prop :=
  ∀ (l : Latched) (p : Platform) (x : Byte) (n : Nat) (w w' : Work) (C : List Byte), 1 ≤ n →
    encodeStages l p (List.replicate n x) w = (w', .finish C) →
    C = [1, x, 1, 0, 0, 0, 0, 0, 0, 0, 0] ++ List.replicate ((n + 7) / 8) 0 ++ [BitVec.ofNat 8 ((8 - n % 8) % 8)]

/-- R152, R153, R160: past the alphabet and code-length checks (the second always passes: CodeTooLongIsUnreachable), ENCODE raises
DST_FULL with the container's exact length, saturated, when it does not fit the destination capacity; else IO at the lowest address of
the container's bytes where `memOk` is false; else it finishes with a container of that length. -/
def Obligations.EncodeReportsTheRequiredLength : Prop :=
  ∀ (l : Latched) (p : Platform) (src : List Byte) (w : Work),
    let freq := frequencies src
    let A := alphabet freq
    let W := buildCodebook freq A { w with freq := freq }
    let B := (A.map (fun s => freq.getD s.toNat 0 * W.cbLen.getD s.toNat 0)).sum
    let N := 2 + 10 * A.length + (B + 7) / 8
    let dst := l.dstAddr.toNat
    (A.length ≠ 256 ∨ l.wrap256 = true) → (∀ s ∈ A, W.cbLen.getD s.toNat 0 ≤ 64) →
    (l.dstCap.toNat < N → encodeStages l p src w = (W, .raise .dstFull (min N (2 ^ 32 - 1)))) ∧
    (N ≤ l.dstCap.toNat →
      (∀ a, dst ≤ a → a < dst + N → p.memOk a = false → (∀ b, dst ≤ b → b < a → p.memOk b = true) →
        encodeStages l p src w = (W, .raise .io a)) ∧
      ((∀ a, dst ≤ a → a < dst + N → p.memOk a = true) →
        ∃ C, C.length = N ∧ encodeStages l p src w = (W, .finish C)))

/-- R89, R92, R100, R155, R156, R159: the container's layout: its length, the count byte, entry `k` at offset `1 + 10k` in ascending
symbol order, and the padding count in the last byte. -/
def Obligations.ContainerLayout : Prop :=
  ∀ (l : Latched) (p : Platform) (src : List Byte) (w w' : Work) (C : List Byte),
    encodeStages l p src w = (w', .finish C) →
    let A := alphabet (frequencies src)
    let B := (src.map (fun s => entry w'.cbLen s)).sum
    C.length = 2 + 10 * A.length + (B + 7) / 8 ∧
    C[0]? = some (BitVec.ofNat 8 A.length) ∧
    C[C.length - 1]? = some (BitVec.ofNat 8 ((8 - B % 8) % 8)) ∧
    ∀ (k : Nat) (s : Byte), A[k]? = some s →
      C[1 + 10 * k]? = some s ∧ C[2 + 10 * k]? = some (BitVec.ofNat 8 (entry w'.cbLen s)) ∧
      1 ≤ entry w'.cbLen s ∧ entry w'.cbLen s ≤ 64 ∧
      ∀ j, j < 8 → C[3 + 10 * k + j]? =
        some (BitVec.ofNat 8 (entry w'.cbVal s / 2 ^ (if l.blkle then 8 * j else 56 - 8 * j)))

/-- R98, R157, R158: payload bit number `8j + t` of the concatenated codes, padded with zeros, is bit `7 - t` of payload byte `j`. -/
def Obligations.PayloadIsPackedMostSignificantBitFirst : Prop :=
  ∀ (l : Latched) (p : Platform) (src : List Byte) (w w' : Work) (C : List Byte),
    encodeStages l p src w = (w', .finish C) →
    let P := src.flatMap (fun s => bitsOf (entry w'.cbLen s) (entry w'.cbVal s))
    ∀ j t, j < (P.length + 7) / 8 → t < 8 →
      ∃ b, C[1 + 10 * (alphabet (frequencies src)).length + j]? = some b ∧ b.getLsbD (7 - t) = P.getD (8 * j + t) false

/-- R98, R161, R189: stripping the padding count from the unpacked payload gives back the bit sequence, and the count is at most 7. -/
def Obligations.UnpackingThePackedPayloadStripsThePadding : Prop :=
  ∀ P : List Bool, padCount P.length ≤ 7 ∧
    payloadToBits (packBits (payloadBytes P.length) (P ++ List.replicate (padCount P.length) false)) (padCount P.length) = P

/-- R95 to R97, R156, R184: a codebook entry as ENCODE writes it, read under the same byte order, registers its code and symbol. -/
def Obligations.CodebookEntryReadsBackAsWritten : Prop :=
  ∀ (le : Bool) (cbLen cbVal : List Nat) (s : Byte) (rest : List Byte),
    1 ≤ entry cbLen s → entry cbLen s ≤ 64 → entry cbVal s < 2 ^ entry cbLen s →
    deserialize le 1 0 (codebookEntry le cbLen cbVal s ++ rest) [] =
      ([{ len := entry cbLen s, val := entry cbVal s, sym := s }], none)

/-- R163: the container depends only on the source bytes, BLKLE and WRAP256: any two ENCODEs of them that succeed write the same. -/
def Obligations.ContainerDependsOnSourceAndSelectorsOnly : Prop :=
  ∀ (l l' : Latched) (p p' : Platform) (src : List Byte) (w w' v v' : Work) (C C' : List Byte),
    l.blkle = l'.blkle → encodeStages l p src w = (v, .finish C) → encodeStages l' p' src w' = (v', .finish C') → C = C'

/-! ## The decoder's stages -/

/-- R182, R183: a container of fewer than two bytes, or shorter than its entry count says, is FMT_TRUNCATED with its length. -/
def Obligations.TruncatedContainerIsReported : Prop :=
  ∀ (l : Latched) (p : Platform) (C : List Byte) (w : Work),
    (C.length < 2 ∨ C.length < 2 + 10 * (C.getD 0 0).toNat) →
    decodeStages l p C w = (w, .raise .fmtTruncated C.length)

/-- R184 to R186, R224: the reverse map after the entries: at most one triple a key, legal lengths and values; and when the stage ends
in an error, it names the offending byte's offset in the first entry `k` that fails (every earlier one was accepted: its length is legal
and the map gives its code its symbol): an entry with a bad length, or one whose code the map holds with another symbol. DECODE ends in
the error that this stage ends in. -/
def Obligations.ReverseMapIsAMap : Prop :=
  (∀ (le : Bool) (n : Nat) (body : List Byte) (m : List RevEntry) (r : Option (CmdError × Nat)),
    deserialize le n 0 body [] = (m, r) →
    let sym (k : Nat) : Byte := body.getD (10 * k) 0
    let L (k : Nat) : Nat := (body.getD (10 * k + 1) 0).toNat
    let found (k : Nat) : Option Byte := rmapFind m (L k) (blockValue le ((body.drop (10 * k + 2)).take 8) % 2 ^ L k)
    m.length ≤ n ∧ m.Pairwise (fun e f => ¬(e.len = f.len ∧ e.val = f.val)) ∧
    (∀ e ∈ m, 1 ≤ e.len ∧ e.len ≤ 64 ∧ e.val < 2 ^ e.len) ∧
    (∀ e info, r = some (e, info) → ∃ k, k < n ∧
      (∀ j, j < k → 1 ≤ L j ∧ L j ≤ 64 ∧ found j = some (sym j)) ∧
      (e = .fmtBadLength ∧ info = 2 + 10 * k ∧ (L k = 0 ∨ 64 < L k) ∨
        e = .fmtCollision ∧ info = 1 + 10 * k ∧ 1 ≤ L k ∧ L k ≤ 64 ∧ ∃ s, s ≠ sym k ∧ found k = some s))) ∧
  (∀ (l : Latched) (p : Platform) (C : List Byte) (w : Work),
    let n := (C.getD 0 0).toNat
    let r := deserialize l.blkle n 0 (C.drop 1) []
    2 + 10 * n ≤ C.length → ∀ e info, r.2 = some (e, info) → decodeStages l p C w = ({ w with rmap := r.1 }, .raise e info))

/-- R184, R186: when every entry is accepted, the code of each entry is registered with the entry's symbol. -/
def Obligations.EveryAcceptedEntryIsRegistered : Prop :=
  ∀ (le : Bool) (n : Nat) (body : List Byte) (m : List RevEntry), deserialize le n 0 body [] = (m, none) →
    ∀ k, k < n →
      let L := (body.getD (10 * k + 1) 0).toNat
      let V := blockValue le ((body.drop (10 * k + 2)).take 8) % 2 ^ L
      rmapFind m L V = some (body.getD (10 * k) 0)

/-- R187 to R189, R193: past the header and the codebook, the last container byte is the padding count and the `m` bytes between the
entries and it are the payload: a count above 7, or above the payload's bit count, ends DECODE in FMT_BAD_PADDING with the count; else
the walk over the payload's bits without the padding says how DECODE ends. -/
def Obligations.BadPaddingIsReported : Prop :=
  ∀ (l : Latched) (p : Platform) (C : List Byte) (w : Work),
    let n := (C.getD 0 0).toNat
    let r := deserialize l.blkle n 0 (C.drop 1) []
    let m := C.length - 2 - 10 * n
    let pad := (C.getD (C.length - 1) 0).toNat
    2 + 10 * n ≤ C.length → r.2 = none →
    ((7 < pad ∨ 8 * m < pad) → decodeStages l p C w = ({ w with rmap := r.1 }, .raise .fmtBadPadding pad)) ∧
    (pad ≤ 7 → pad ≤ 8 * m →
      let T := (((C.drop (1 + 10 * n)).take m).flatMap msbBits).take (8 * m - pad)
      let v := walkBits l p r.1 0 T Walk.start
      (decodeStages l p C w).2 = (match v.2 with
        | some (e, info) => .raise e info
        | none => .finish v.1.emitted.reverse))

/-- R191, with the tests of R192 and the error of R193: one step of the walk, in the order of its tests, and the walk's end. -/
def Obligations.WalkStepRule : Prop :=
  ∀ (l : Latched) (p : Platform) (m : List RevEntry) (i : Nat) (b : Bool) (w : Walk),
    (w.candLen = 64 → walkStep l p m i b w = (w, some (.fmtOverrun, i))) ∧
    (w.candLen ≠ 64 → rmapFind m (w.candLen + 1) (2 * w.candVal + b.toNat) = none →
      walkStep l p m i b w = ({ w with candVal := 2 * w.candVal + b.toNat, candLen := w.candLen + 1 }, none)) ∧
    (∀ s, w.candLen ≠ 64 → rmapFind m (w.candLen + 1) (2 * w.candVal + b.toNat) = some s →
      (w.outCnt = l.dstCap.toNat → (walkStep l p m i b w).2 = some (.dstFull, min (l.dstCap.toNat + 1) (2 ^ 32 - 1))) ∧
      (w.outCnt ≠ l.dstCap.toNat → p.memOk (l.dstAddr.toNat + w.outCnt) = false →
        (walkStep l p m i b w).2 = some (.io, l.dstAddr.toNat + w.outCnt)) ∧
      (w.outCnt ≠ l.dstCap.toNat → p.memOk (l.dstAddr.toNat + w.outCnt) = true →
        walkStep l p m i b w = ({ candLen := 0, candVal := 0, outCnt := w.outCnt + 1, emitted := s :: w.emitted }, none))) ∧
    (walkBits l p m i [] w = (w, if 0 < w.candLen then some (.fmtUnterminated, w.candLen) else none))

/-- R46, R195: the walk emits at most one byte a bit and never more than the destination capacity, its candidate never exceeds 64
bits, and the candidate's value fits its length. -/
def Obligations.WalkStaysInItsBounds : Prop :=
  ∀ (l : Latched) (p : Platform) (m : List RevEntry) (T : List Bool),
    let r := walkBits l p m 0 T Walk.start
    r.1.outCnt = r.1.emitted.length ∧ r.1.outCnt ≤ T.length ∧ r.1.outCnt ≤ l.dstCap.toNat ∧ r.1.candLen ≤ 64 ∧
    r.1.candVal < 2 ^ r.1.candLen

/-- R126, R191, R193: bits that never match end the walk, whatever the reverse map: from an empty candidate at bit number `i`, remaining
bits of which no prefix of 1 to 64 bits is a code of the map end in FMT_OVERRUN(i + 64) if they are more than 64, and otherwise in
FMT_UNTERMINATED with their number if there are any. -/
def Obligations.UnmatchedBitsOverrunOrAreUnterminated : Prop :=
  ∀ (l : Latched) (p : Platform) (m : List RevEntry) (i : Nat) (T : List Bool) (w : Walk), w.candLen = 0 → w.candVal = 0 →
    (∀ j, 1 ≤ j → j ≤ 64 → j ≤ T.length → rmapFind m j (bitsVal (T.take j)) = none) →
    (64 < T.length → (walkBits l p m i T w).2 = some (.fmtOverrun, i + 64)) ∧
    (T ≠ [] → T.length ≤ 64 → (walkBits l p m i T w).2 = some (.fmtUnterminated, T.length))

/-- R199: DECODE of the legacy container of a full alphabet, whatever its codes, ends in FMT_OVERRUN(64). -/
def Obligations.LegacyContainerOverruns : Prop :=
  ∀ (l : Latched) (p : Platform) (le : Bool) (cbLen cbVal : List Nat) (src : List Byte) (w : Work),
    (∀ b : Byte, b ∈ src) →
    (decodeStages l p (container le (frequencies src) cbLen cbVal (alphabet (frequencies src)) src) w).2 =
      .raise .fmtOverrun 64

/-- R181: the decoder's result does not depend on WRAP256, nor on the working state an earlier command left. -/
def Obligations.DecodeIgnoresWrap256AndOldWork : Prop :=
  ∀ (l : Latched) (p : Platform) (C : List Byte) (w w' : Work) (b : Bool),
    (decodeStages { l with wrap256 := b } p C w).2 = (decodeStages l p C w').2

/-- R197: the round trip. If an ENCODE ends with DONE, and it was not the legacy form of a full alphabet, then a DECODE of the container
it wrote, under the same BLKLE and with room for the source, ends with DONE and reproduces the source bytes. -/
def Obligations.DecodeOfEncodeReproducesTheSource : Prop :=
  ∀ s t u : State, s.mem.wf = true → s.latched.op = .encode → s.done = false → completeCommand s = .next t → t.done = true →
    (s.latched.wrap256 = false ∨ ∃ b : Byte, b ∉ sourceBytes s) →
    u.latched.op = .decode → u.mem = t.mem → u.latched.srcAddr = s.latched.dstAddr → u.latched.srcLen = t.outLen →
    u.latched.blkle = s.latched.blkle → s.latched.srcLen.toNat ≤ u.latched.dstCap.toNat →
    configCheck u.latched = none → firstFailing u.platform u.latched.source = none →
    (∀ a, u.latched.dstAddr.toNat ≤ a → a < u.latched.dstAddr.toNat + s.latched.srcLen.toNat → u.platform.memOk a = true) →
    u.platform.sideEffects.any (touchesWindows u) = false →
    ∃ v, completeCommand u = .next v ∧ v.phase = .idle ∧ v.done = true ∧ v.outLen = s.latched.srcLen ∧
      ∀ i, i < s.latched.srcLen.toNat →
        v.mem.read (u.latched.dstAddr.toNat + i) = s.mem.read (s.latched.srcAddr.toNat + i)

/-! ## The agents around the block -/

/-- R73, R74, R87: a host write that touches no window with duties in force puts its bytes where it says, changes no other byte and
nothing else; a host read returns each byte as memory holds it, where no duty is in force on a destination with that byte and the
memory has no side effects. That both complete whatever `memOk` says is the model's choice (log entry 12), and so are how long the
duties are in force (log entry 9) and, on memory with side effects, that a write completes, its bytes are stored and nothing else
changes, and that a read changes nothing else (log entry 21). -/
def Obligations.HostWriteIsVisible : Prop :=
  (∀ (s : State) (addr : Nat) (data : List Byte), s.mem.wf = true → addr + data.length ≤ 2 ^ 32 →
    (∀ d ∈ s.duties, ∀ a, addr ≤ a → a < addr + data.length →
      ¬(d.source.lo ≤ a ∧ a < d.source.hi) ∧ ¬(d.destination.lo ≤ a ∧ a < d.destination.hi)) →
    ∃ t, applyEvent (.memWrite addr data) s = .next t ∧ t = { s with mem := t.mem } ∧
      (∀ i, i < data.length → data[i]? = some (t.mem.read (addr + i))) ∧
      (∀ a, ¬(addr ≤ a ∧ a < addr + data.length) → t.mem.read a = s.mem.read a)) ∧
  (∀ (s : State) (addr n : Nat), addr + n ≤ 2 ^ 32 →
    ∃ t, applyEvent (.memRead addr n) s = .next t ∧ t = { s with hostBytes := t.hostBytes, draws := t.draws } ∧
      t.hostBytes.length = n ∧
      ∀ i, i < n → (∀ d ∈ s.duties, ¬(d.destination.lo ≤ addr + i ∧ addr + i < d.destination.hi)) →
        (∀ v ∈ s.platform.sideEffects, ¬(v.lo ≤ addr + i ∧ addr + i < v.hi)) →
        t.hostBytes[i]? = some (s.mem.read (addr + i)))

/-- R270, R271 with 93_implementation_defined.md I10: while duties are in force on the windows `d`, each breach is a fault at an
address `a` of a window: a host write there, a change of `memOk` there either way, memory with side effects that comes there or that
lay there and is made plain, and such memory under the running command's windows at its completion. A host read of a destination byte
is no breach and returns a free value (log entry 2). That a breach is a fault is log entry 10, the platform's acts and their spans are
the model's (log entries 4 and 19), and how long the duties are in force is log entry 9. -/
def Obligations.BreachOfTheHostDutiesFaults : Prop :=
  ∀ (s : State) (d : Duty) (a : Nat), d ∈ s.duties → a < 2 ^ 32 →
    ((d.source.lo ≤ a ∧ a < d.source.hi) ∨ (d.destination.lo ≤ a ∧ a < d.destination.hi) →
      (∀ (addr : Nat) (data : List Byte), addr + data.length ≤ 2 ^ 32 → addr ≤ a → a < addr + data.length →
        applyEvent (.memWrite addr data) s = .fault .hostDutyWrite) ∧
      (∀ v : Span, v.lo ≤ a → a < v.hi →
        (s.platform.memOk a = true → applyEvent (.platform (.fails v)) s = .fault .hostDutyMemOk) ∧
        (s.platform.memOk a = false → applyEvent (.platform (.answers v)) s = .fault .hostDutyMemOk) ∧
        applyEvent (.platform (.device v)) s = .fault .hostDutySideEffects ∧
        ((∃ u ∈ s.platform.sideEffects, u.lo ≤ a ∧ a < u.hi) →
          applyEvent (.platform (.plain v)) s = .fault .hostDutySideEffects)) ∧
      (d = s.latched.duty → (∃ u ∈ s.platform.sideEffects, u.lo ≤ a ∧ a < u.hi) →
        completeCommand s = .fault .hostDutySideEffects)) ∧
    (d.destination.lo ≤ a ∧ a < d.destination.hi →
      ∃ t, applyEvent (.memRead a 1) s = .next t ∧ t.hostBytes = [Config.freeByte s.draws a])

/-- The model's own acts of the platform (log entries 4 and 19; R9, R61 and R270 only say that `memOk` is the platform's and when it
must not change): with no duty in force, making `memOk` false or true on a span does so exactly on the span's addresses (inside the
address space), and leaves everything but the platform's parameters. -/
def Obligations.MemOkChangesExactlyOnItsSpan : Prop :=
  ∀ (s : State) (v : Span) (a : Nat), s.duties = [] → a < 2 ^ 32 →
    (∃ t, applyEvent (.platform (.fails v)) s = .next t ∧ t = { s with platform := t.platform } ∧
      t.platform.memOk a = (s.platform.memOk a && !(decide (v.lo ≤ a) && decide (a < v.hi)))) ∧
    (∃ t, applyEvent (.platform (.answers v)) s = .next t ∧ t = { s with platform := t.platform } ∧
      t.platform.memOk a = (s.platform.memOk a || (decide (v.lo ≤ a) && decide (a < v.hi))))

/-- R127, R275: a started command whose windows lie on memory without side effects completes after finitely many steps, whatever the
pending acts are: after at most one step more than there are acts pending the machine is IDLE, unless before that a pending act of
another agent than the block stops it. That the block agent moves when no act is pending is log entry 6. -/
def Obligations.StartedCommandCompletes : Prop :=
  ∀ s : State, Inv s → s.phase = .busy → s.platform.sideEffects.any (touchesWindows s) = false →
    ∃ (k : Nat) (t : State), k ≤ s.inputs.length + 1 ∧ Host.Core.run Sys2Proof.core k s = .next t ∧
      (t.phase = .idle ∨
        ∃ x rest, t.inputs = x :: rest ∧ x ≠ .block ∧ ((∃ f, step t = .fault f) ∨ ∃ r, step t = .refused r))
end

