-- ==== Sys2Proof/Laws/Bits.lean ====
section
/-! SUPPORT. Bit strings (R14): `bitsOf` and `bitsVal` are inverse, packing and unpacking of payload bytes (R98, R189), and the
code block in both byte orders (R97). -/

namespace Sys2Proof.Machine

@[simp] theorem bitsOf_length (L v : Nat) : (bitsOf L v).length = L := by simp [bitsOf]

theorem bitsOf_getElem (L v i : Nat) (h : i < (bitsOf L v).length) : (bitsOf L v)[i] = v.testBit (L - 1 - i) := by
  simp [bitsOf]

@[simp] theorem bitsVal_nil : bitsVal [] = 0 := rfl

theorem bitsVal_append_singleton (c : List Bool) (b : Bool) : bitsVal (c ++ [b]) = 2 * bitsVal c + b.toNat := by
  simp [bitsVal]

theorem bitsVal_lt (c : List Bool) : bitsVal c < 2 ^ c.length := by
  induction c using List.reverseRecOn with
  | nil => simp
  | append_singleton c b ih =>
    rw [bitsVal_append_singleton, List.length_append, List.length_singleton, Nat.pow_succ]
    have := Bool.toNat_lt b
    omega

theorem testBit_double_add (v i : Nat) (b : Bool) :
    (2 * v + b.toNat).testBit i = if i = 0 then b else v.testBit (i - 1) := by
  cases i with
  | zero => cases b <;> simp [Nat.testBit_zero]
  | succ i =>
    rw [Nat.testBit_succ]
    have : (2 * v + b.toNat) / 2 = v := by have := Bool.toNat_lt b; omega
    simp [this]

/-- The bits of the value of a code, read back at its length, are the code. -/
theorem bitsOf_bitsVal (c : List Bool) : bitsOf c.length (bitsVal c) = c := by
  induction c using List.reverseRecOn with
  | nil => rfl
  | append_singleton c b ih =>
    apply List.ext_getElem
    · simp
    · intro i h1 h2
      rw [bitsOf_getElem, bitsVal_append_singleton, testBit_double_add]
      simp only [List.length_append, List.length_singleton] at h2 ⊢
      by_cases hi : i = c.length
      · subst hi; simp
      · have hlt : i < c.length := by omega
        rw [List.getElem_append_left hlt, if_neg (by omega)]
        have h3 := bitsOf_getElem c.length (bitsVal c) i (by simpa using hlt)
        simp only [ih] at h3
        rw [h3]; congr 1; omega

theorem bitsOf_succ (L v : Nat) : bitsOf (L + 1) v = bitsOf L (v / 2) ++ [v.testBit 0] := by
  apply List.ext_getElem
  · simp
  · intro i h1 h2
    rw [bitsOf_getElem]
    simp only [bitsOf_length, List.length_append, List.length_singleton] at h1 h2
    by_cases hi : i = L
    · subst hi; simp
    · have hlt : i < L := by omega
      rw [List.getElem_append_left (by simpa using hlt), bitsOf_getElem]
      rw [← Nat.testBit_succ]; congr 1; omega

theorem bitsVal_bitsOf (L v : Nat) : bitsVal (bitsOf L v) = v % 2 ^ L := by
  induction L generalizing v with
  | zero => simp [bitsOf, Nat.mod_one]
  | succ L ih =>
    rw [bitsOf_succ, bitsVal_append_singleton, ih, Nat.pow_succ, Nat.mul_comm (2 ^ L) 2, Nat.mod_mul]
    rw [Nat.testBit_zero]
    rcases Nat.mod_two_eq_zero_or_one v with h | h
    · simp [h]
    · simp only [h, decide_true, Bool.toNat_true]; omega

/-! ## Bytes -/

@[simp] theorem msbBits_length (b : Byte) : (msbBits b).length = 8 := by simp [msbBits]

/-- The bits of a byte made of eight bits are those bits. -/
theorem msbBits_byteOfBits {c : List Bool} (h : c.length = 8) : msbBits (byteOfBits c) = c := by
  have hlt : bitsVal c < 256 := by have := bitsVal_lt c; rw [h] at this; simpa using this
  unfold msbBits byteOfBits
  rw [BitVec.toNat_ofNat, Nat.mod_eq_of_lt (by simpa using hlt), ← h, bitsOf_bitsVal]

@[simp] theorem packBits_length (m : Nat) (p : List Bool) : (packBits m p).length = m := by
  induction m generalizing p with
  | zero => rfl
  | succ m ih => simp [packBits, ih]

/-- Unpacking packed bytes gives back the bits (R98, R189). -/
theorem flatMap_msbBits_packBits (m : Nat) {p : List Bool} (h : p.length = 8 * m) :
    (packBits m p).flatMap msbBits = p := by
  induction m generalizing p with
  | zero => simpa [packBits] using h
  | succ m ih =>
    rw [packBits, List.flatMap_cons, msbBits_byteOfBits (by simp; omega), ih (by simp; omega), List.take_append_drop]

theorem padCount_le (B : Nat) : padCount B ≤ 7 := by unfold padCount; omega

theorem padCount_total (B : Nat) : (B + padCount B) % 8 = 0 ∧ (B + padCount B) / 8 = (B + 7) / 8 := by
  unfold padCount; omega

/-! ## Code blocks -/

@[simp] theorem blockBytes_length (le : Bool) (v : Nat) : (blockBytes le v).length = 8 := by
  cases le <;> simp [blockBytes]

theorem blockBytes_getElem? (le : Bool) (v j : Nat) (h : j < 8) :
    (blockBytes le v)[j]? = some (BitVec.ofNat 8 (v / 2 ^ (if le then 8 * j else 56 - 8 * j))) := by
  cases le
  · simp [blockBytes, h, Nat.shiftRight_eq_div_pow]
  · simp only [blockBytes, ↓reduceIte]
    rw [List.getElem?_reverse (by simpa using h)]
    simp only [List.length_map, List.length_range, List.getElem?_map, Nat.shiftRight_eq_div_pow]
    rw [List.getElem?_range (by omega)]
    simp only [Option.map_some, Option.some.injEq]
    congr 3; omega

/-- A code block read in the byte order it was written in (R97). -/
theorem blockValue_blockBytes (le : Bool) {v : Nat} (h : v < 2 ^ 64) : blockValue le (blockBytes le v) = v := by
  have key : ((List.range 8).map (fun j => BitVec.ofNat 8 (v >>> (56 - 8 * j)))).foldl
      (fun v b => 256 * v + b.toNat) 0 = v := by
    simp [List.range_succ, Nat.shiftRight_eq_div_pow, BitVec.toNat_ofNat]
    omega
  cases le
  · simpa [blockValue, blockBytes] using key
  · simpa [blockValue, blockBytes] using key

end Sys2Proof.Machine
end

