-- ==== Sys2Proof/Laws/Decoder.lean ====
section
/-! SUPPORT. The decoder: everything an emit, a walk step, an entry of the codebook and the stages of DECODE can end in. -/

namespace Sys2Proof.Machine

/-! ## The reverse map -/

theorem rmapFind_some {m : List RevEntry} {len val : Nat} {s : Byte} (h : rmapFind m len val = some s) :
    ∃ e ∈ m, e.len = len ∧ e.val = val ∧ e.sym = s := by
  unfold rmapFind at h
  obtain ⟨e, he, rfl⟩ := Option.map_eq_some_iff.mp h
  have h2 := List.find?_some he
  simp at h2
  exact ⟨e, List.mem_of_find?_eq_some he, h2.1, h2.2, rfl⟩

theorem rmapFind_none {m : List RevEntry} {len val : Nat} (h : rmapFind m len val = none) :
    ∀ e ∈ m, ¬(e.len = len ∧ e.val = val) := by
  unfold rmapFind at h
  rw [Option.map_eq_none_iff, List.find?_eq_none] at h
  intro e he hc
  have := h e he
  simp [hc.1, hc.2] at this

/-- A triple appended to the map does not change what an older key finds. -/
theorem rmapFind_append_of_some {m : List RevEntry} (k : List RevEntry) {len val : Nat} {s : Byte}
    (h : rmapFind m len val = some s) : rmapFind (m ++ k) len val = some s := by
  unfold rmapFind at h ⊢
  obtain ⟨e, he, rfl⟩ := Option.map_eq_some_iff.mp h
  rw [List.find?_append, he]; rfl

theorem rmapFind_append_of_none {m : List RevEntry} (k : List RevEntry) {len val : Nat}
    (h : rmapFind m len val = none) : rmapFind (m ++ k) len val = rmapFind k len val := by
  unfold rmapFind at h ⊢
  rw [Option.map_eq_none_iff] at h
  rw [List.find?_append, h]; rfl

@[simp] theorem rmapFind_nil (len val : Nat) : rmapFind [] len val = none := rfl

/-- One entry of the codebook region (R184 to R186): rejected for its length, rejected as a collision, accepted as an exact repeat, or
registered. -/
theorem deserialize_cases (le : Bool) (n k : Nat) (body : List Byte) (m : List RevEntry) :
    let sym := body.getD 0 0
    let L := (body.getD 1 0).toNat
    let V := blockValue le ((body.drop 2).take 8) % 2 ^ L
    ((L = 0 ∨ 64 < L) ∧ deserialize le (n + 1) k body m = (m, some (.fmtBadLength, 2 + 10 * k))) ∨
    (1 ≤ L ∧ L ≤ 64 ∧ (∃ s', rmapFind m L V = some s' ∧ s' ≠ sym) ∧
      deserialize le (n + 1) k body m = (m, some (.fmtCollision, 1 + 10 * k))) ∨
    (1 ≤ L ∧ L ≤ 64 ∧ rmapFind m L V = some sym ∧
      deserialize le (n + 1) k body m = deserialize le n (k + 1) (body.drop 10) m) ∨
    (1 ≤ L ∧ L ≤ 64 ∧ rmapFind m L V = none ∧
      deserialize le (n + 1) k body m =
        deserialize le n (k + 1) (body.drop 10) (m ++ [{ len := L, val := V, sym := sym }])) := by
  intro sym L V
  by_cases hL : L = 0 ∨ 64 < L
  · exact .inl ⟨hL, by rw [deserialize]; exact if_pos hL⟩
  · have h1 : 1 ≤ L := by omega
    have h2 : L ≤ 64 := by omega
    cases hf : rmapFind m L V with
    | none =>
      refine .inr (.inr (.inr ⟨h1, h2, rfl, ?_⟩))
      simp only [L, V] at hL hf
      rw [deserialize]; simp only [hL, ↓reduceIte, hf]; rfl
    | some s' =>
      by_cases hs : s' = sym
      · refine .inr (.inr (.inl ⟨h1, h2, by rw [hs], ?_⟩))
        simp only [L, V, sym] at hL hf hs
        rw [deserialize]; simp only [hL, ↓reduceIte, hf, hs]
      · refine .inr (.inl ⟨h1, h2, ⟨s', rfl, hs⟩, ?_⟩)
        simp only [L, V, sym] at hL hf hs
        rw [deserialize]; simp only [hL, ↓reduceIte, hf, hs]

/-! ## The walk -/

/-- Everything an emit can do (R192). -/
theorem emitSymbol_cases (l : Latched) (p : Platform) (s : Byte) (w : Walk) :
    (w.outCnt = l.dstCap.toNat ∧ emitSymbol l p s w = (w, some (.dstFull, min (l.dstCap.toNat + 1) Config.wordMax))) ∨
    (w.outCnt ≠ l.dstCap.toNat ∧ p.memOk (l.dstAddr.toNat + w.outCnt) = false ∧
      emitSymbol l p s w = (w, some (.io, l.dstAddr.toNat + w.outCnt))) ∨
    (w.outCnt ≠ l.dstCap.toNat ∧ p.memOk (l.dstAddr.toNat + w.outCnt) = true ∧
      emitSymbol l p s w = ({ candLen := 0, candVal := 0, outCnt := w.outCnt + 1, emitted := s :: w.emitted }, none)) := by
  unfold emitSymbol
  by_cases h1 : w.outCnt = l.dstCap.toNat
  · exact .inl ⟨h1, by simp [h1]⟩
  · cases h2 : p.memOk (l.dstAddr.toNat + w.outCnt)
    · exact .inr (.inl ⟨h1, rfl, by simp [h1]⟩)
    · exact .inr (.inr ⟨h1, rfl, by simp [h1]⟩)

/-- Everything a walk step can do (R191): overrun, extend the candidate, or emit the symbol the extended candidate stands for. -/
theorem walkStep_cases (l : Latched) (p : Platform) (m : List RevEntry) (i : Nat) (b : Bool) (w : Walk) :
    (w.candLen = 64 ∧ walkStep l p m i b w = (w, some (.fmtOverrun, i))) ∨
    (w.candLen ≠ 64 ∧ rmapFind m (w.candLen + 1) (2 * w.candVal + b.toNat) = none ∧
      walkStep l p m i b w = ({ w with candVal := 2 * w.candVal + b.toNat, candLen := w.candLen + 1 }, none)) ∨
    (w.candLen ≠ 64 ∧ ∃ s, rmapFind m (w.candLen + 1) (2 * w.candVal + b.toNat) = some s ∧
      walkStep l p m i b w =
        emitSymbol l p s { w with candVal := 2 * w.candVal + b.toNat, candLen := w.candLen + 1 }) := by
  unfold walkStep
  by_cases h1 : w.candLen = 64
  · exact .inl ⟨h1, by simp [h1]⟩
  · cases h2 : rmapFind m (w.candLen + 1) (2 * w.candVal + b.toNat) with
    | none => exact .inr (.inl ⟨h1, rfl, by simp [h1, h2]⟩)
    | some s => exact .inr (.inr ⟨h1, s, rfl, by simp [h1, h2]⟩)

/-- The errors a walk step can raise. -/
theorem walkStep_error {l : Latched} {p : Platform} {m : List RevEntry} {i : Nat} {b : Bool} {w w' : Walk}
    {e : CmdError} {info : Nat} (h : walkStep l p m i b w = (w', some (e, info))) :
    e = .fmtOverrun ∨ e = .dstFull ∨ e = .io := by
  rcases walkStep_cases l p m i b w with ⟨-, hc⟩ | ⟨-, -, hc⟩ | ⟨-, s, -, hc⟩
  · rw [hc] at h; simp at h; simp [← h.2.1]
  · rw [hc] at h; simp at h
  · rw [hc] at h
    rcases emitSymbol_cases l p s { w with candVal := 2 * w.candVal + b.toNat, candLen := w.candLen + 1 }
      with ⟨-, hc⟩ | ⟨-, -, hc⟩ | ⟨-, -, hc⟩ <;> rw [hc] at h <;> simp at h <;> simp [← h.2.1]

/-- The errors a walk can raise (R191 to R193). -/
theorem walkBits_error {l : Latched} {p : Platform} {m : List RevEntry} {i : Nat} {T : List Bool} {w w' : Walk}
    {e : CmdError} {info : Nat} (h : walkBits l p m i T w = (w', some (e, info))) :
    e = .fmtOverrun ∨ e = .dstFull ∨ e = .io ∨ e = .fmtUnterminated := by
  induction T generalizing i w with
  | nil => simp [walkBits] at h; simp [← h.2.2.1]
  | cons b T ih =>
    rw [walkBits] at h
    split at h
    · next hw =>
      simp only [Prod.mk.injEq, Option.some.injEq] at h
      obtain ⟨rfl, rfl⟩ := h
      rcases walkStep_error hw with h | h | h <;> simp [h]
    · exact ih h

/-- A walk that continues after its first bit. -/
theorem walkBits_cons_of_none {l : Latched} {p : Platform} {m : List RevEntry} {i : Nat} {b : Bool} {T : List Bool} {w w' : Walk}
    (h : walkStep l p m i b w = (w', none)) : walkBits l p m i (b :: T) w = walkBits l p m (i + 1) T w' := by
  rw [walkBits, h]

theorem walkBits_cons_of_some {l : Latched} {p : Platform} {m : List RevEntry} {i : Nat} {b : Bool} {T : List Bool} {w w' : Walk}
    {e : CmdError × Nat} (h : walkStep l p m i b w = (w', some e)) : walkBits l p m i (b :: T) w = (w', some e) := by
  rw [walkBits, h]

/-- What a property of the walk needs to hold at its end: that every step keeps it. -/
theorem walkBits_induction {l : Latched} {p : Platform} {m : List RevEntry} {P : Walk → Prop}
    (hstep : ∀ i b w, P w → P (walkStep l p m i b w).1) {i : Nat} {T : List Bool} {w : Walk} (h : P w) :
    P (walkBits l p m i T w).1 := by
  induction T generalizing i w with
  | nil => exact h
  | cons b T ih =>
    have hs := hstep i b w h
    cases hw : walkStep l p m i b w with
    | mk w' r =>
      rw [hw] at hs
      cases r with
      | none => rw [walkBits_cons_of_none hw]; exact ih hs
      | some e => rw [walkBits_cons_of_some hw]; exact hs

/-! ## The stages -/

/-- Everything the payload stages can end in (R187 to R193). -/
theorem expandPayload_cases (l : Latched) (p : Platform) (m : List RevEntry) (tail : List Byte) (w : Work) :
    let bytes := tail.dropLast
    let pad := (tail.getLastD 0).toNat
    let r := walkBits l p m 0 (payloadToBits bytes pad) Walk.start
    let W := { w with candLen := r.1.candLen, candVal := r.1.candVal, outCnt := r.1.outCnt }
    ((7 < pad ∨ 8 * bytes.length < pad) ∧ expandPayload l p m tail w = (w, .raise .fmtBadPadding pad)) ∨
    (¬(7 < pad ∨ 8 * bytes.length < pad) ∧ ∃ e info, r.2 = some (e, info) ∧
      expandPayload l p m tail w = (W, .raise e info)) ∨
    (¬(7 < pad ∨ 8 * bytes.length < pad) ∧ r.2 = none ∧
      expandPayload l p m tail w = (W, .finish r.1.emitted.reverse)) := by
  intro bytes pad r W
  unfold expandPayload
  by_cases h : 7 < pad ∨ 8 * bytes.length < pad
  · exact .inl ⟨h, if_pos h⟩
  · cases hr : r.2 with
    | none => exact .inr (.inr ⟨h, rfl, by simp only [W, r, pad, bytes] at h hr ⊢; simp only [h, ↓reduceIte, hr]⟩)
    | some e =>
      exact .inr (.inl ⟨h, e.1, e.2, rfl, by simp only [W, r, pad, bytes] at h hr ⊢; simp only [h, ↓reduceIte, hr]⟩)

/-- Everything the stages of DECODE can end in (R180, R182 to R193). -/
theorem decodeStages_cases (l : Latched) (p : Platform) (C : List Byte) (w : Work) :
    let n := (C.getD 0 0).toNat
    let r := deserialize l.blkle n 0 (C.drop 1) []
    let W := { w with rmap := r.1 }
    ((C.length < 2 ∨ C.length < 2 + 10 * n) ∧ decodeStages l p C w = (w, .raise .fmtTruncated C.length)) ∨
    (2 + 10 * n ≤ C.length ∧ ∃ e info, r.2 = some (e, info) ∧ decodeStages l p C w = (W, .raise e info)) ∨
    (2 + 10 * n ≤ C.length ∧ r.2 = none ∧
      decodeStages l p C w = expandPayload l p r.1 (C.drop (1 + 10 * n)) W) := by
  intro n r W
  unfold decodeStages
  by_cases h1 : C.length < 2
  · exact .inl ⟨.inl h1, by simp [h1]⟩
  · by_cases h2 : C.length < 2 + 10 * n
    · exact .inl ⟨.inr h2, by rw [if_neg h1]; exact if_pos h2⟩
    · cases hr : r.2 with
      | none => exact .inr (.inr ⟨by omega, rfl, by simp only [W, r, n] at h2 hr ⊢; simp only [h1, h2, ↓reduceIte, hr]⟩)
      | some e =>
        exact .inr (.inl ⟨by omega, e.1, e.2, rfl, by simp only [W, r, n] at h2 hr ⊢; simp only [h1, h2, ↓reduceIte, hr]⟩)

/-- The errors the codebook region can raise (R185, R186). -/
theorem deserialize_error {le : Bool} {n k : Nat} {body : List Byte} {m m' : List RevEntry} {e : CmdError} {info : Nat}
    (h : deserialize le n k body m = (m', some (e, info))) : e = .fmtBadLength ∨ e = .fmtCollision := by
  induction n generalizing k body m with
  | zero => simp [deserialize] at h
  | succ n ih =>
    rcases deserialize_cases le n k body m with ⟨-, hc⟩ | ⟨-, -, -, hc⟩ | ⟨-, -, -, hc⟩ | ⟨-, -, -, hc⟩ <;> rw [hc] at h
    · simp at h; simp [← h.2.1]
    · simp at h; simp [← h.2.1]
    · exact ih h
    · exact ih h

/-- The errors DECODE's own stages can raise (R222). -/
theorem decodeStages_raise {l : Latched} {p : Platform} {C : List Byte} {w w' : Work} {e : CmdError} {info : Nat}
    (h : decodeStages l p C w = (w', .raise e info)) :
    e ∈ [CmdError.io, .dstFull, .fmtTruncated, .fmtBadLength, .fmtCollision, .fmtBadPadding, .fmtOverrun, .fmtUnterminated] := by
  rcases decodeStages_cases l p C w with ⟨-, hc⟩ | ⟨-, e', i', hr, hc⟩ | ⟨-, -, hc⟩
  · rw [hc] at h; simp at h; simp [← h.2.1]
  · rw [hc] at h; simp at h
    obtain ⟨-, rfl, rfl⟩ := h
    have : deserialize l.blkle (C.getD 0 0).toNat 0 (C.drop 1) [] =
        ((deserialize l.blkle (C.getD 0 0).toNat 0 (C.drop 1) []).1, some (e', i')) := by rw [← hr]
    rcases deserialize_error this with h | h <;> simp [h]
  · rw [hc] at h
    rcases expandPayload_cases l p (deserialize l.blkle (C.getD 0 0).toNat 0 (C.drop 1) []).1
      (C.drop (1 + 10 * (C.getD 0 0).toNat))
      { w with rmap := (deserialize l.blkle (C.getD 0 0).toNat 0 (C.drop 1) []).1 }
      with ⟨-, hc⟩ | ⟨-, e', i', hr, hc⟩ | ⟨-, -, hc⟩
    · rw [hc] at h; simp at h; simp [← h.2.1]
    · rw [hc] at h; simp at h
      obtain ⟨-, rfl, rfl⟩ := h
      rcases walkBits_error (Prod.ext rfl hr) with h | h | h | h <;> simp [h]
    · rw [hc] at h; simp at h

/-- A successful DECODE: its container was long enough, every entry was accepted, the padding was legal, and the walk ended. -/
theorem decodeStages_finish {l : Latched} {p : Platform} {C : List Byte} {w w' : Work} {out : List Byte}
    (h : decodeStages l p C w = (w', .finish out)) :
    let n := (C.getD 0 0).toNat
    let m := (deserialize l.blkle n 0 (C.drop 1) []).1
    let tail := C.drop (1 + 10 * n)
    let r := walkBits l p m 0 (payloadToBits tail.dropLast (tail.getLastD 0).toNat) Walk.start
    2 + 10 * n ≤ C.length ∧ (deserialize l.blkle n 0 (C.drop 1) []).2 = none ∧ r.2 = none ∧ out = r.1.emitted.reverse := by
  intro n m tail r
  rcases decodeStages_cases l p C w with ⟨-, hc⟩ | ⟨-, e', i', hr, hc⟩ | ⟨hlen, hr, hc⟩
  · rw [hc] at h; simp at h
  · rw [hc] at h; simp at h
  · rw [hc] at h
    rcases expandPayload_cases l p m tail { w with rmap := m } with ⟨-, hc⟩ | ⟨-, e', i', hw, hc⟩ | ⟨-, hw, hc⟩
    · rw [hc] at h; simp at h
    · rw [hc] at h; simp at h
    · rw [hc] at h; simp only [Prod.mk.injEq, CmdEnd.finish.injEq] at h
      exact ⟨hlen, hr, hw, h.2.symm⟩

end Sys2Proof.Machine
end

