-- ==== Sys2Proof/Laws/Span.lean ====
section
/-! SUPPORT. Address ranges: membership in the carved, added and clipped spans, the lowest address of a range that lies in a set of
spans, and that the operations keep the spans nonempty, inside memory and disjoint. -/

namespace Sys2Proof.Machine

theorem Span.has_iff (w : Span) (a : Nat) : w.has a = true ↔ w.lo ≤ a ∧ a < w.hi := by simp [Span.has]

theorem Span.isEmpty_iff (w : Span) : w.isEmpty = true ↔ w.hi ≤ w.lo := by simp [Span.isEmpty]

theorem Span.isEmpty_false_iff (w : Span) : w.isEmpty = false ↔ w.lo < w.hi := by simp [Span.isEmpty]

theorem Span.overlaps_iff (v w : Span) : v.overlaps w = true ↔ max v.lo w.lo < min v.hi w.hi := by
  rw [Span.overlaps, Bool.not_eq_true', Span.isEmpty_false_iff]; rfl

theorem Span.overlaps_false_iff (v w : Span) : v.overlaps w = false ↔ min v.hi w.hi ≤ max v.lo w.lo := by
  rw [Span.overlaps, Bool.not_eq_false', Span.isEmpty_iff]; rfl

/-- Two spans overlap exactly when some address lies in both. -/
theorem Span.overlaps_iff_exists (v w : Span) : v.overlaps w = true ↔ ∃ a, v.has a = true ∧ w.has a = true := by
  rw [Span.overlaps_iff]
  constructor
  · intro h
    exact ⟨max v.lo w.lo, by rw [Span.has_iff]; omega, by rw [Span.has_iff]; omega⟩
  · rintro ⟨a, hv, hw⟩
    rw [Span.has_iff] at hv hw
    omega

theorem Span.overlaps_comm (v w : Span) : v.overlaps w = w.overlaps v := by
  rw [Bool.eq_iff_iff, Span.overlaps_iff, Span.overlaps_iff]; omega

/-- What carving leaves: the pieces of `v` outside `w`. -/
theorem Span.mem_carve {v w p : Span} (h : p ∈ v.carve w) (hv : v.isEmpty = false) :
    p.isEmpty = false ∧ (∀ a, p.has a = true → v.has a = true ∧ w.has a = false) ∧ p.hi ≤ v.hi := by
  unfold Span.carve at h
  split at h
  case isTrue ho =>
    rw [Span.overlaps_iff] at ho
    simp only [List.mem_filter, List.mem_cons, List.not_mem_nil, or_false] at h
    obtain ⟨h1, h2⟩ := h
    have h2' : p.isEmpty = false := by simpa using h2
    refine ⟨h2', fun a ha => ?_, ?_⟩
    · rw [Span.isEmpty_false_iff] at h2'
      rcases h1 with rfl | rfl <;> simp [Span.has] at ha ⊢ <;> omega
    · rcases h1 with rfl | rfl <;> simp at * ; omega
  case isFalse ho =>
    have ho' : v.overlaps w = false := by simpa using ho
    rw [Span.overlaps_false_iff] at ho'
    simp only [List.mem_singleton] at h
    subst h
    refine ⟨hv, fun a ha => ⟨ha, ?_⟩, le_refl _⟩
    by_contra hc
    have : w.has a = true := by simpa using hc
    rw [Span.has_iff] at ha this
    omega

/-- Carving removes exactly the addresses of `w`. -/
theorem Span.exists_carve_has (v w : Span) (a : Nat) :
    (v.carve w).any (fun p => p.has a) = (v.has a && !w.has a) := by
  unfold Span.carve
  split
  case isTrue ho =>
    rw [Span.overlaps_iff] at ho
    rw [Bool.eq_iff_iff]
    simp [Span.has, Span.isEmpty]
    omega
  case isFalse ho =>
    have ho' : v.overlaps w = false := by simpa using ho
    rw [Span.overlaps_false_iff] at ho'
    rw [Bool.eq_iff_iff]
    simp [Span.has]
    omega

@[simp] theorem inSpans_carveSpans (l : List Span) (w : Span) (a : Nat) :
    inSpans (carveSpans l w) a = (inSpans l a && !w.has a) := by
  induction l with
  | nil => simp [inSpans, carveSpans]
  | cons v l ih =>
    have : inSpans (carveSpans (v :: l) w) a = ((v.carve w).any (fun p => p.has a) || inSpans (carveSpans l w) a) := by
      simp [inSpans, carveSpans]
    rw [this, ih, Span.exists_carve_has]
    simp only [inSpans, List.any_cons]
    cases v.has a <;> cases w.has a <;> simp

@[simp] theorem inSpans_addSpan (l : List Span) (w : Span) (a : Nat) :
    inSpans (addSpan l w) a = (inSpans l a || w.has a) := by
  unfold addSpan
  split
  case isTrue h =>
    rw [Span.isEmpty_iff] at h
    have : w.has a = false := by simp [Span.has]; omega
    simp [this]
  case isFalse h =>
    have : inSpans (w :: carveSpans l w) a = (w.has a || inSpans (carveSpans l w) a) := by simp [inSpans]
    rw [this, inSpans_carveSpans]
    cases inSpans l a <;> cases w.has a <;> rfl

theorem Span.clip_has (w : Span) {a : Nat} (h : a < Config.addressSpace) : w.clip.has a = w.has a := by
  rw [Bool.eq_iff_iff, Span.has_iff, Span.has_iff]
  simp only [Span.clip]
  omega

/-- `firstIn` is the lowest address of the range that lies in one of the spans (R120, R153). -/
theorem firstIn_eq_some_iff (l : List Span) (w : Span) (a : Nat) :
    firstIn l w = some a ↔
      w.has a = true ∧ inSpans l a = true ∧ ∀ b, w.has b = true → inSpans l b = true → a ≤ b := by
  unfold firstIn
  rw [List.min?_eq_some_iff]
  simp only [List.mem_filterMap, Option.ite_none_right_eq_some, Option.some.injEq, inSpans, List.any_eq_true]
  constructor
  · rintro ⟨⟨v, hv, ho, rfl⟩, hmin⟩
    rw [Span.overlaps_iff] at ho
    refine ⟨by rw [Span.has_iff]; omega, ⟨v, hv, by rw [Span.has_iff]; omega⟩, ?_⟩
    rintro b hb ⟨u, hu, hub⟩
    rw [Span.has_iff] at hb hub
    exact le_trans (hmin (max u.lo w.lo) ⟨u, hu, by rw [Span.overlaps_iff]; omega, rfl⟩) (by omega)
  · rintro ⟨hw, ⟨v, hv, hva⟩, hmin⟩
    rw [Span.has_iff] at hw hva
    have ho : v.overlaps w = true := by rw [Span.overlaps_iff]; omega
    have h1 := hmin (max v.lo w.lo) (by rw [Span.has_iff]; omega) ⟨v, hv, by rw [Span.has_iff]; omega⟩
    refine ⟨⟨v, hv, ho, by omega⟩, ?_⟩
    rintro b ⟨u, hu, hub, rfl⟩
    rw [Span.overlaps_iff] at hub
    exact hmin _ (by rw [Span.has_iff]; omega) ⟨u, hu, by rw [Span.has_iff]; omega⟩

theorem firstIn_eq_none_iff (l : List Span) (w : Span) :
    firstIn l w = none ↔ ∀ b, w.has b = true → inSpans l b = false := by
  unfold firstIn
  rw [List.min?_eq_none_iff, List.filterMap_eq_nil_iff]
  constructor
  · intro h b hb
    by_contra hc
    have hc' : inSpans l b = true := by simpa using hc
    obtain ⟨v, hv, hvb⟩ := List.any_eq_true.mp hc'
    have := h v hv
    have ho : v.overlaps w = true := (Span.overlaps_iff_exists v w).mpr ⟨b, hvb, hb⟩
    simp [ho] at this
  · intro h v hv
    split
    case isTrue ho =>
      obtain ⟨b, hvb, hb⟩ := (Span.overlaps_iff_exists v w).mp ho
      have := h b hb
      have h2 : inSpans l b = true := List.any_eq_true.mpr ⟨v, hv, hvb⟩
      simp [h2] at this
    case isFalse ho => rfl

/-- No source or destination address of the range fails exactly when `memOk` holds on all of it. -/
theorem firstFailing_eq_none_iff (p : Platform) (w : Span) :
    firstFailing p w = none ↔ ∀ b, w.lo ≤ b → b < w.hi → p.memOk b = true := by
  unfold firstFailing Platform.memOk
  rw [firstIn_eq_none_iff]
  constructor
  · intro h b h1 h2
    simp [h b (by rw [Span.has_iff]; exact ⟨h1, h2⟩)]
  · intro h b hb
    rw [Span.has_iff] at hb
    simpa using h b hb.1 hb.2

theorem inSpans_foldl_carve (l m : List Span) (a : Nat) :
    inSpans (l.foldl carveSpans m) a = (inSpans m a && !inSpans l a) := by
  induction l generalizing m with
  | nil => simp [inSpans]
  | cons v l ih =>
    rw [List.foldl_cons, ih, inSpans_carveSpans]
    have : inSpans (v :: l) a = (v.has a || inSpans l a) := by simp [inSpans]
    rw [this]
    cases inSpans m a <;> cases v.has a <;> cases inSpans l a <;> rfl

/-- Some address of the range lies outside the spans, exactly when `someOutside` says so. -/
theorem someOutside_iff (l : List Span) (w : Span) :
    someOutside l w = true ↔ ∃ a, w.has a = true ∧ inSpans l a = false := by
  unfold someOutside
  rw [List.any_eq_true]
  constructor
  · rintro ⟨p, hp, hpe⟩
    have hpe' : p.isEmpty = false := by simpa using hpe
    rw [Span.isEmpty_false_iff] at hpe'
    have : inSpans (l.foldl carveSpans [w]) p.lo = true :=
      List.any_eq_true.mpr ⟨p, hp, by rw [Span.has_iff]; omega⟩
    rw [inSpans_foldl_carve] at this
    simp [inSpans] at this
    exact ⟨p.lo, this.1, by simpa [inSpans] using this.2⟩
  · rintro ⟨a, ha, hl⟩
    have : inSpans (l.foldl carveSpans [w]) a = true := by
      rw [inSpans_foldl_carve]; simp [inSpans] at hl ⊢; exact ⟨ha, hl⟩
    obtain ⟨p, hp, hpa⟩ := List.any_eq_true.mp this
    rw [Span.has_iff] at hpa
    exact ⟨p, hp, by simp [Span.isEmpty]; omega⟩

/-! ## The canonical form of a list of spans -/

theorem spansWf_iff (l : List Span) :
    spansWf l = true ↔
      (∀ v ∈ l, v.isEmpty = false ∧ v.hi ≤ Config.addressSpace) ∧ l.Pairwise (fun v w => v.overlaps w = false) := by
  simp [spansWf]

theorem Span.pairwise_carve (v w : Span) : (v.carve w).Pairwise (fun p q => p.overlaps q = false) := by
  unfold Span.carve
  split
  case isTrue ho =>
    rw [Span.overlaps_iff] at ho
    apply List.Pairwise.filter
    simp [Span.overlaps_false_iff]
    omega
  case isFalse => simp

theorem carveSpans_pairwise {l : List Span} (w : Span) (hne : ∀ v ∈ l, v.isEmpty = false)
    (h : l.Pairwise (fun v w => v.overlaps w = false)) :
    (carveSpans l w).Pairwise (fun v w => v.overlaps w = false) := by
  unfold carveSpans
  rw [List.pairwise_flatMap]
  refine ⟨fun v _ => Span.pairwise_carve v w, ?_⟩
  refine h.imp_of_mem ?_
  intro v u hv hu hvu p hp q hq
  by_contra hc
  have hc' : p.overlaps q = true := by simpa using hc
  obtain ⟨a, hpa, hqa⟩ := (Span.overlaps_iff_exists p q).mp hc'
  have h1 := ((Span.mem_carve hp (hne v hv)).2.1 a hpa).1
  have h2 := ((Span.mem_carve hq (hne u hu)).2.1 a hqa).1
  have := (Span.overlaps_iff_exists v u).mpr ⟨a, h1, h2⟩
  simp [hvu] at this

theorem carveSpans_wf {l : List Span} (w : Span) (h : spansWf l = true) : spansWf (carveSpans l w) = true := by
  rw [spansWf_iff] at h ⊢
  obtain ⟨h1, h2⟩ := h
  refine ⟨?_, carveSpans_pairwise w (fun v hv => (h1 v hv).1) h2⟩
  intro p hp
  obtain ⟨v, hv, hpv⟩ := List.mem_flatMap.mp hp
  have := Span.mem_carve hpv (h1 v hv).1
  exact ⟨this.1, le_trans this.2.2 (h1 v hv).2⟩

theorem addSpan_wf {l : List Span} (w : Span) (hw : w.hi ≤ Config.addressSpace) (h : spansWf l = true) :
    spansWf (addSpan l w) = true := by
  unfold addSpan
  split
  case isTrue => exact h
  case isFalse hne =>
    have hc := carveSpans_wf w h
    rw [spansWf_iff] at h hc ⊢
    have hne' : w.isEmpty = false := by simpa using hne
    refine ⟨?_, ?_⟩
    · intro v hv
      rcases List.mem_cons.mp hv with rfl | hv
      · exact ⟨hne', hw⟩
      · exact hc.1 v hv
    · rw [List.pairwise_cons]
      refine ⟨?_, hc.2⟩
      intro p hp
      obtain ⟨v, hv, hpv⟩ := List.mem_flatMap.mp hp
      by_contra hcon
      have hcon' : w.overlaps p = true := by simpa using hcon
      obtain ⟨a, hwa, hpa⟩ := (Span.overlaps_iff_exists w p).mp hcon'
      have := ((Span.mem_carve hpv (h.1 v hv).1).2.1 a hpa).2
      simp [this] at hwa

theorem Span.clip_hi (w : Span) : w.clip.hi ≤ Config.addressSpace := by
  simp only [Span.clip]; omega

end Sys2Proof.Machine
end

