-- ==== Sys2Proof/Laws/Encoder.lean ====
section
/-! SUPPORT. The encoder: the container's length, everything the stages of ENCODE can end in, and one round of the merge loop. -/

namespace Sys2Proof.Machine

@[simp] theorem codebookEntry_length (le : Bool) (cbLen cbVal : List Nat) (s : Byte) :
    (codebookEntry le cbLen cbVal s).length = 10 := by
  simp [codebookEntry]

theorem flatMap_codebookEntry_length (le : Bool) (cbLen cbVal : List Nat) (A : List Byte) :
    (A.flatMap (codebookEntry le cbLen cbVal)).length = 10 * A.length := by
  induction A with
  | nil => rfl
  | cons s A ih => rw [List.flatMap_cons, List.length_append, ih, codebookEntry_length, List.length_cons]; omega

/-- The container has the length that the size stage computed (R100, R152). -/
@[simp] theorem container_length (le : Bool) (freq cbLen cbVal : List Nat) (A src : List Byte) :
    (container le freq cbLen cbVal A src).length = containerLength A.length (payloadBits freq cbLen A) := by
  simp only [container, List.length_append, List.length_singleton, flatMap_codebookEntry_length, packBits_length,
    containerLength]
  omega

theorem payloadBytes_eq (B : Nat) : payloadBytes B = (B + 7) / 8 := (padCount_total B).2

/-! ## The working state -/

@[simp] theorem buildCodebook_freq (freq : List Nat) (A : List Byte) (w : Work) :
    (buildCodebook freq A w).freq = w.freq := by
  unfold buildCodebook; split <;> rfl

/-- The codebook of a nonempty alphabet holds the codes of its tree (R149, R150). -/
theorem buildCodebook_of_ne_nil (freq : List Nat) {A : List Byte} (w : Work) (h : A ≠ []) :
    let T := buildTree freq A
    let codes := assignCodes T.1 T.2 A
    buildCodebook freq A w =
      { w with nodes := T.1, queue := T.2, cbLen := codeLengths codes, cbVal := codeValues codes } := by
  cases A with
  | nil => exact absurd rfl h
  | cons s A => rfl

/-! ## What the stages can end in -/

/-- Everything `emitContainer` can end in (R152, R153, R160). -/
theorem emitContainer_cases (l : Latched) (p : Platform) (A src : List Byte) (w : Work) :
    let N := containerLength A.length (payloadBits w.freq w.cbLen A)
    (l.dstCap.toNat < N ∧ emitContainer l p A src w = .raise .dstFull (min N Config.wordMax)) ∨
    (N ≤ l.dstCap.toNat ∧ ∃ a, firstFailing p { lo := l.dstAddr.toNat, hi := l.dstAddr.toNat + N } = some a ∧
      emitContainer l p A src w = .raise .io a) ∨
    (N ≤ l.dstCap.toNat ∧ firstFailing p { lo := l.dstAddr.toNat, hi := l.dstAddr.toNat + N } = none ∧
      emitContainer l p A src w = .finish (container l.blkle w.freq w.cbLen w.cbVal A src)) := by
  intro N
  unfold emitContainer
  by_cases h : l.dstCap.toNat < N
  · exact .inl ⟨h, by simp only [N] at h; simp [h, N]⟩
  · have hN : N ≤ l.dstCap.toNat := by omega
    cases hf : firstFailing p { lo := l.dstAddr.toNat, hi := l.dstAddr.toNat + N } with
    | some a => exact .inr (.inl ⟨hN, a, rfl, by simp only [N] at h hf; simp [h, hf]⟩)
    | none => exact .inr (.inr ⟨hN, rfl, by simp only [N] at h hf; simp [h, hf]⟩)

/-- Everything the stages of ENCODE can end in (R140, R144, R151 to R153, R160). -/
theorem encodeStages_cases (l : Latched) (p : Platform) (src : List Byte) (w : Work) :
    let freq := frequencies src
    let A := alphabet freq
    let W := buildCodebook freq A { w with freq := freq }
    (A.length = 256 ∧ l.wrap256 = false ∧ encodeStages l p src w = ({ w with freq := freq }, .raise .alphabetFull 256)) ∨
    (¬(A.length = 256 ∧ l.wrap256 = false) ∧ ∃ s, tooLong W.cbLen A = some s ∧
      encodeStages l p src w = (W, .raise .codeTooLong s.toNat)) ∨
    (¬(A.length = 256 ∧ l.wrap256 = false) ∧ tooLong W.cbLen A = none ∧
      encodeStages l p src w = (W, emitContainer l p A src W)) := by
  intro freq A W
  unfold encodeStages
  by_cases h : A.length = 256 ∧ l.wrap256 = false
  · exact .inl ⟨h.1, h.2, by simp only [A, freq] at h ⊢; simp [h]⟩
  · cases ht : tooLong W.cbLen A with
    | some s => exact .inr (.inl ⟨h, s, rfl, by simp only [W, A, freq] at h ht ⊢; simp only [h, ht]; rfl⟩)
    | none => exact .inr (.inr ⟨h, rfl, by simp only [W, A, freq] at h ht ⊢; simp only [h, ht]; rfl⟩)

/-- A successful ENCODE: the working state it leaves, the container it wrote, and the checks it passed. -/
theorem encodeStages_finish {l : Latched} {p : Platform} {src : List Byte} {w w' : Work} {C : List Byte}
    (h : encodeStages l p src w = (w', .finish C)) :
    let freq := frequencies src
    let A := alphabet freq
    w' = buildCodebook freq A { w with freq := freq } ∧ ¬(A.length = 256 ∧ l.wrap256 = false) ∧
    tooLong w'.cbLen A = none ∧ C = container l.blkle freq w'.cbLen w'.cbVal A src ∧ C.length ≤ l.dstCap.toNat ∧
    firstFailing p { lo := l.dstAddr.toNat, hi := l.dstAddr.toNat + C.length } = none := by
  intro freq A
  rcases encodeStages_cases l p src w with ⟨-, -, he⟩ | ⟨-, s, -, he⟩ | ⟨hn, ht, he⟩
  · rw [he] at h; simp at h
  · rw [he] at h; simp at h
  · rw [he] at h
    simp only [Prod.mk.injEq] at h
    obtain ⟨rfl, h⟩ := h
    rcases emitContainer_cases l p A src (buildCodebook freq A { w with freq := freq })
      with ⟨-, hc⟩ | ⟨-, a, -, hc⟩ | ⟨hN, hf, hc⟩
    · rw [hc] at h; simp at h
    · rw [hc] at h; simp at h
    · rw [hc] at h
      simp only [CmdEnd.finish.injEq] at h
      subst h
      rw [container_length]
      exact ⟨rfl, hn, ht, by rw [buildCodebook_freq], hN, hf⟩

/-- The errors ENCODE's own stages can raise (R222). -/
theorem encodeStages_raise {l : Latched} {p : Platform} {src : List Byte} {w w' : Work} {e : CmdError} {info : Nat}
    (h : encodeStages l p src w = (w', .raise e info)) :
    e = .alphabetFull ∨ e = .codeTooLong ∨ e = .dstFull ∨ e = .io := by
  rcases encodeStages_cases l p src w with ⟨-, -, he⟩ | ⟨-, s, -, he⟩ | ⟨-, -, he⟩
  · rw [he] at h; simp only [Prod.mk.injEq, CmdEnd.raise.injEq] at h; simp [← h.2.1]
  · rw [he] at h; simp only [Prod.mk.injEq, CmdEnd.raise.injEq] at h; simp [← h.2.1]
  · rw [he] at h
    simp only [Prod.mk.injEq] at h
    rcases emitContainer_cases l p (alphabet (frequencies src)) src
      (buildCodebook (frequencies src) (alphabet (frequencies src)) { w with freq := frequencies src })
      with ⟨-, hc⟩ | ⟨-, a, -, hc⟩ | ⟨-, -, hc⟩ <;> rw [hc] at h <;> simp at h <;> simp [← h.2.1]

/-! ## The merge loop -/

/-- One round of the merge loop (R147). -/
theorem mergeLoop_round {n : Nat} {nodes : List Node} {q q1 q2 : List Nat} {x y : Nat}
    (hx : extractMin nodes q = some (x, q1)) (hy : extractMin nodes q1 = some (y, q2)) :
    mergeLoop (n + 1) nodes q =
      mergeLoop n (nodes ++ [.internal y x (nodeFreq nodes x + nodeFreq nodes y)]) (nodes.length :: q2) := by
  simp only [mergeLoop, hx, hy]

theorem mergeLoop_nil (n : Nat) (nodes : List Node) : mergeLoop n nodes [] = (nodes, []) := by
  cases n <;> rfl

theorem mergeLoop_singleton (n : Nat) (nodes : List Node) (k : Nat) : mergeLoop n nodes [k] = (nodes, [k]) := by
  cases n with
  | zero => rfl
  | succ n => simp [mergeLoop, extractMin]

/-- `extractMin` removes one member of `Q`. -/
theorem extractMin_eq {nodes : List Node} {q rest : List Nat} {m : Nat} (h : extractMin nodes q = some (m, rest)) :
    rest = q.erase m := by
  cases q with
  | nil => simp [extractMin] at h
  | cons k q =>
    simp only [extractMin, Option.some.injEq, Prod.mk.injEq] at h
    obtain ⟨rfl, rfl⟩ := h
    rfl

end Sys2Proof.Machine
end

