-- ==== Sys2Proof/Laws/Memory.lean ====
section
/-! SUPPORT. System memory: a read after a write, a write leaves other addresses alone, what making a window unspecified does to a
read, and that every memory operation keeps the canonical form. -/

namespace Sys2Proof.Machine

/-! ## Cells -/

/-- The byte that the cells list at an address. -/
def cellAt (l : List Host.Cell) (a : Nat) : Option Byte := (l.find? (fun c => c.1 == a)).map Prod.snd

@[simp] theorem cellAt_nil (a : Nat) : cellAt [] a = none := rfl

theorem cellAt_cons (c : Host.Cell) (l : List Host.Cell) (a : Nat) :
    cellAt (c :: l) a = if c.1 = a then some c.2 else cellAt l a := by
  unfold cellAt
  by_cases h : c.1 = a <;> simp [h]

theorem Memory.read_eq (m : Memory) (a : Nat) : m.read a = (cellAt m.cells a).getD (m.background a) := by
  unfold Memory.read cellAt
  cases m.cells.find? (fun c => c.1 == a) <;> rfl

theorem cellAt_eq_none {l : List Host.Cell} {a : Nat} (h : ∀ c ∈ l, c.1 ≠ a) : cellAt l a = none := by
  unfold cellAt
  rw [List.find?_eq_none.mpr (fun c hc => by simpa using h c hc)]; rfl

theorem cellAt_mem {l : List Host.Cell} {a : Nat} {b : Byte} (h : cellAt l a = some b) : (a, b) ∈ l := by
  unfold cellAt at h
  obtain ⟨c, hc, rfl⟩ := Option.map_eq_some_iff.mp h
  have h1 := List.mem_of_find?_eq_some hc
  have h2 := List.find?_some hc
  have h3 : c.1 = a := by simpa using h2
  rw [← h3]; exact h1

theorem cellAt_setCell_other {a a' : Nat} (b : Byte) (h : a' ≠ a) (l : List Host.Cell) :
    cellAt (setCell a b l) a' = cellAt l a' := by
  induction l with
  | nil =>
    unfold setCell
    split
    · rfl
    · simp [cellAt_cons, Ne.symm h]
  | cons c l ih =>
    unfold setCell
    split
    · split
      · rfl
      · rw [cellAt_cons]; simp [Ne.symm h]
    · split
      · next hc =>
        split
        · rw [cellAt_cons]; simp [← hc, Ne.symm h]
        · rw [cellAt_cons, cellAt_cons]; simp [← hc, Ne.symm h]
      · rw [cellAt_cons, cellAt_cons, ih]

theorem cellAt_setCell_same {a : Nat} {b : Byte} {l : List Host.Cell} (h : l.Pairwise (fun c d => c.1 < d.1)) :
    cellAt (setCell a b l) a = if b = 0 then none else some b := by
  induction l with
  | nil => unfold setCell; split <;> simp [cellAt_cons]
  | cons c l ih =>
    rw [List.pairwise_cons] at h
    unfold setCell
    split
    · next hlt =>
      split
      · apply cellAt_eq_none
        intro d hd
        rcases List.mem_cons.mp hd with rfl | hd
        · omega
        · have := h.1 d hd; omega
      · simp [cellAt_cons]
    · split
      · next hc =>
        split
        · apply cellAt_eq_none
          intro d hd
          have := h.1 d hd; omega
        · simp [cellAt_cons]
      · next hc => rw [cellAt_cons, ih h.2]; simp [Ne.symm hc]

/-- The cells after a write: the new one, or an old one at another address. -/
theorem mem_setCell {a : Nat} {b : Byte} {l : List Host.Cell} (h : l.Pairwise (fun c d => c.1 < d.1))
    {c : Host.Cell} (hc : c ∈ setCell a b l) : (c = (a, b) ∧ b ≠ 0) ∨ (c ∈ l ∧ c.1 ≠ a) := by
  induction l with
  | nil =>
    unfold setCell at hc
    split at hc
    · simp at hc
    · next hb => simp at hc; exact .inl ⟨hc, hb⟩
  | cons d l ih =>
    rw [List.pairwise_cons] at h
    unfold setCell at hc
    split at hc
    · next hlt =>
      have old : c ∈ d :: l → c.1 ≠ a := by
        intro hm
        rcases List.mem_cons.mp hm with rfl | hm
        · omega
        · have := h.1 c hm; omega
      split at hc
      · exact .inr ⟨hc, old hc⟩
      · next hb =>
        rcases List.mem_cons.mp hc with rfl | hm
        · exact .inl ⟨rfl, hb⟩
        · exact .inr ⟨hm, old hm⟩
    · split at hc
      · next heq =>
        have old : c ∈ l → c.1 ≠ a := by
          intro hm; have := h.1 c hm; omega
        split at hc
        · exact .inr ⟨List.mem_cons_of_mem _ hc, old hc⟩
        · next hb =>
          rcases List.mem_cons.mp hc with rfl | hm
          · exact .inl ⟨rfl, hb⟩
          · exact .inr ⟨List.mem_cons_of_mem _ hm, old hm⟩
      · next hne =>
        rcases List.mem_cons.mp hc with rfl | hm
        · exact .inr ⟨List.mem_cons_self, Ne.symm hne⟩
        · rcases ih h.2 hm with h1 | ⟨h1, h2⟩
          · exact .inl h1
          · exact .inr ⟨List.mem_cons_of_mem _ h1, h2⟩

theorem setCell_sorted {a : Nat} {b : Byte} {l : List Host.Cell} (h : l.Pairwise (fun c d => c.1 < d.1)) :
    (setCell a b l).Pairwise (fun c d => c.1 < d.1) := by
  induction l with
  | nil => unfold setCell; split <;> simp
  | cons d l ih =>
    have hd := List.pairwise_cons.mp h
    unfold setCell
    split
    · next hlt =>
      split
      · exact h
      · refine List.pairwise_cons.mpr ⟨?_, h⟩
        intro c hc
        rcases List.mem_cons.mp hc with rfl | hc
        · exact hlt
        · have := hd.1 c hc; exact lt_trans hlt this
    · split
      · next heq =>
        split
        · exact hd.2
        · refine List.pairwise_cons.mpr ⟨?_, hd.2⟩
          intro c hc; have := hd.1 c hc; simpa [heq] using this
      · next hlt hne =>
        refine List.pairwise_cons.mpr ⟨?_, ih hd.2⟩
        intro c hc
        rcases mem_setCell hd.2 hc with ⟨rfl, _⟩ | ⟨hc, _⟩
        · simp only; omega
        · exact hd.1 c hc

/-! ## Unspecified ranges -/

/-- The free value that the ranges give an address. -/
def freeAt (l : List FreeSpan) (a : Nat) : Option Byte :=
  (l.find? (fun f => f.span.has a)).map (fun f => Config.freeByte f.draw a)

theorem Memory.background_eq (m : Memory) (a : Nat) : m.background a = (freeAt m.free a).getD 0 := by
  unfold Memory.background freeAt
  cases m.free.find? (fun f => f.span.has a) <;> rfl

theorem freeAt_cons (f : FreeSpan) (l : List FreeSpan) (a : Nat) :
    freeAt (f :: l) a = if f.span.has a then some (Config.freeByte f.draw a) else freeAt l a := by
  unfold freeAt
  cases h : f.span.has a <;> simp [h]

theorem freeAt_append (l k : List FreeSpan) (a : Nat) : freeAt (l ++ k) a = (freeAt l a).or (freeAt k a) := by
  unfold freeAt
  rw [List.find?_append]
  cases l.find? (fun f => f.span.has a) <;> simp

theorem freeAt_pieces (ps : List Span) (draw a : Nat) :
    freeAt (ps.map (fun p => { span := p, draw := draw })) a =
      if ps.any (fun p => p.has a) then some (Config.freeByte draw a) else none := by
  induction ps with
  | nil => rfl
  | cons p ps ih =>
    rw [List.map_cons, freeAt_cons, ih, List.any_cons]
    cases p.has a <;> simp

/-- Carving the unspecified ranges: nothing on the span, the old free value elsewhere. -/
theorem freeAt_carveFree (l : List FreeSpan) (w : Span) (a : Nat) :
    freeAt (carveFree l w) a = if w.has a then none else freeAt l a := by
  induction l with
  | nil => simp [carveFree, freeAt]
  | cons f l ih =>
    have : carveFree (f :: l) w = (f.span.carve w).map (fun p => { span := p, draw := f.draw }) ++ carveFree l w := by
      simp [carveFree]
    rw [this, freeAt_append, freeAt_pieces, ih, Span.exists_carve_has, freeAt_cons]
    cases f.span.has a <;> cases w.has a <;> simp

theorem mem_carveFree {l : List FreeSpan} {w : Span} {f : FreeSpan} (h : f ∈ carveFree l w)
    (hne : ∀ g ∈ l, g.span.isEmpty = false) :
    ∃ g ∈ l, f.draw = g.draw ∧ f.span.isEmpty = false ∧ f.span.hi ≤ g.span.hi ∧
      ∀ a, f.span.has a = true → g.span.has a = true ∧ w.has a = false := by
  unfold carveFree at h
  obtain ⟨g, hg, hf⟩ := List.mem_flatMap.mp h
  obtain ⟨p, hp, rfl⟩ := List.mem_map.mp hf
  have := Span.mem_carve hp (hne g hg)
  exact ⟨g, hg, rfl, this.1, this.2.2, this.2.1⟩

theorem carveFree_pairwise {l : List FreeSpan} (w : Span) (hne : ∀ g ∈ l, g.span.isEmpty = false)
    (h : l.Pairwise (fun f g => f.span.overlaps g.span = false)) :
    (carveFree l w).Pairwise (fun f g => f.span.overlaps g.span = false) := by
  unfold carveFree
  rw [List.pairwise_flatMap]
  refine ⟨fun v _ => ?_, ?_⟩
  · rw [List.pairwise_map]; exact Span.pairwise_carve v.span w
  · refine h.imp_of_mem ?_
    intro v u hv hu hvu p hp q hq
    obtain ⟨p', hp', rfl⟩ := List.mem_map.mp hp
    obtain ⟨q', hq', rfl⟩ := List.mem_map.mp hq
    by_contra hc
    have hc' : p'.overlaps q' = true := by simpa using hc
    obtain ⟨a, hpa, hqa⟩ := (Span.overlaps_iff_exists p' q').mp hc'
    have h1 := ((Span.mem_carve hp' (hne v hv)).2.1 a hpa).1
    have h2 := ((Span.mem_carve hq' (hne u hu)).2.1 a hqa).1
    have := (Span.overlaps_iff_exists v.span u.span).mpr ⟨a, h1, h2⟩
    simp [hvu] at this

/-! ## The canonical form -/

/-- The canonical form of memory, clause by clause. -/
structure Memory.Canonical (m : Memory) : Prop where
  sorted : m.cells.Pairwise (fun c d => c.1 < d.1)
  inSpace : ∀ c ∈ m.cells, c.1 < Config.addressSpace
  nonzero : ∀ c ∈ m.cells, c.2 ≠ 0
  apart : ∀ c ∈ m.cells, ∀ f ∈ m.free, f.span.has c.1 = false
  freeNonempty : ∀ f ∈ m.free, f.span.isEmpty = false
  freeInSpace : ∀ f ∈ m.free, f.span.hi ≤ Config.addressSpace
  freeDisjoint : m.free.Pairwise (fun f g => f.span.overlaps g.span = false)

theorem Memory.wf_iff (m : Memory) : m.wf = true ↔ m.Canonical := by
  unfold Memory.wf
  simp only [Bool.and_eq_true, decide_eq_true_eq, List.all_eq_true, bne_iff_ne, ne_eq, Bool.not_eq_true']
  constructor
  · rintro ⟨⟨⟨h1, h2⟩, h3⟩, h4⟩
    exact ⟨h1, fun c hc => (h2 c hc).1.1, fun c hc => (h2 c hc).1.2, fun c hc => (h2 c hc).2,
      fun f hf => (h3 f hf).1, fun f hf => (h3 f hf).2, h4⟩
  · rintro ⟨h1, h2, h3, h4, h5, h6, h7⟩
    exact ⟨⟨⟨h1, fun c hc => ⟨⟨h2 c hc, h3 c hc⟩, h4 c hc⟩⟩, fun f hf => ⟨h5 f hf, h6 f hf⟩⟩, h7⟩

theorem Memory.unknown_wf : Memory.unknown.wf = true := by decide

/-- No cell holds what its address would read as without it. -/
theorem Memory.Canonical.background_of_cell {m : Memory} (h : m.Canonical) {c : Host.Cell} (hc : c ∈ m.cells) :
    m.background c.1 = 0 ∧ c.2 ≠ 0 := by
  refine ⟨?_, h.nonzero c hc⟩
  unfold Memory.background
  rw [List.find?_eq_none.mpr (fun f hf => by simp [h.apart c hc f hf])]

/-! ## Writes -/

theorem Memory.read_write_other (m : Memory) {a a' : Nat} (b : Byte) (h : a' ≠ a) : (m.write a b).read a' = m.read a' := by
  rw [Memory.read_eq, Memory.read_eq, Memory.background_eq, Memory.background_eq]
  have hs : ({ lo := a, hi := a + 1 } : Span).has a' = false := by simp [Span.has]; omega
  simp only [Memory.write, cellAt_setCell_other b h, freeAt_carveFree, hs]
  rfl

theorem Memory.read_write_same {m : Memory} (hm : m.wf = true) (a : Nat) (b : Byte) : (m.write a b).read a = b := by
  have hc := (Memory.wf_iff m).mp hm
  rw [Memory.read_eq, Memory.background_eq]
  have hs : ({ lo := a, hi := a + 1 } : Span).has a = true := by simp [Span.has]
  simp only [Memory.write, cellAt_setCell_same hc.sorted, freeAt_carveFree, hs]
  by_cases hb : b = 0
  · rw [if_pos hb]; simp [hb]
  · rw [if_neg hb]; rfl

theorem Memory.write_wf {m : Memory} (hm : m.wf = true) {a : Nat} (ha : a < Config.addressSpace) (b : Byte) :
    (m.write a b).wf = true := by
  rw [Memory.wf_iff] at hm ⊢
  have hsub := fun f (hf : f ∈ carveFree m.free { lo := a, hi := a + 1 }) => mem_carveFree hf hm.freeNonempty
  refine ⟨setCell_sorted hm.sorted, ?_, ?_, ?_, ?_, ?_, carveFree_pairwise _ hm.freeNonempty hm.freeDisjoint⟩
  · intro c hc
    rcases mem_setCell hm.sorted hc with ⟨rfl, _⟩ | ⟨h, _⟩
    · exact ha
    · exact hm.inSpace c h
  · intro c hc
    rcases mem_setCell hm.sorted hc with ⟨rfl, h⟩ | ⟨h, _⟩
    · exact h
    · exact hm.nonzero c h
  · intro c hc f hf
    obtain ⟨g, hg, -, -, -, hsp⟩ := hsub f hf
    by_contra hcon
    have hcon' : f.span.has c.1 = true := by simpa using hcon
    obtain ⟨h1, h2⟩ := hsp c.1 hcon'
    rcases mem_setCell hm.sorted hc with ⟨rfl, _⟩ | ⟨h, _⟩
    · simp [Span.has] at h2
    · simp [hm.apart c h g hg] at h1
  · intro f hf
    obtain ⟨g, hg, -, h1, -, -⟩ := hsub f hf
    exact h1
  · intro f hf
    obtain ⟨g, hg, -, -, h1, -⟩ := hsub f hf
    exact le_trans h1 (hm.freeInSpace g hg)

theorem Memory.writeBytes_wf {m : Memory} (hm : m.wf = true) {a : Nat} {bs : List Byte}
    (h : a + bs.length ≤ Config.addressSpace) : (m.writeBytes a bs).wf = true := by
  induction bs generalizing m a with
  | nil => exact hm
  | cons b bs ih =>
    simp only [List.length_cons] at h
    exact ih (Memory.write_wf hm (by omega) b) (by omega)

theorem Memory.read_writeBytes_outside (m : Memory) {a a' : Nat} (bs : List Byte)
    (h : ¬(a ≤ a' ∧ a' < a + bs.length)) : (m.writeBytes a bs).read a' = m.read a' := by
  induction bs generalizing m a with
  | nil => rfl
  | cons b bs ih =>
    simp only [List.length_cons] at h
    rw [Memory.writeBytes, ih _ (by omega), Memory.read_write_other]
    omega

theorem Memory.read_writeBytes_inside {m : Memory} (hm : m.wf = true) {a : Nat} {bs : List Byte} {i : Nat}
    (hs : a + bs.length ≤ Config.addressSpace) (h : i < bs.length) :
    (m.writeBytes a bs).read (a + i) = bs[i] := by
  induction bs generalizing m a i with
  | nil => simp at h
  | cons b bs ih =>
    simp only [List.length_cons] at h hs
    rw [Memory.writeBytes]
    cases i with
    | zero =>
      rw [Memory.read_writeBytes_outside _ _ (by omega)]
      simpa using Memory.read_write_same hm a b
    | succ i =>
      have := ih (m := m.write a b) (a := a + 1) (i := i) (Memory.write_wf hm (by omega) b) (by omega) (by omega)
      rw [show a + (i + 1) = a + 1 + i by omega, this]
      rfl

theorem Memory.writeBytes_free_draw {m : Memory} {a : Nat} {bs : List Byte} {n : Nat} (hm : m.wf = true)
    (hs : a + bs.length ≤ Config.addressSpace) (h : ∀ f ∈ m.free, f.draw < n) :
    ∀ f ∈ (m.writeBytes a bs).free, f.draw < n := by
  induction bs generalizing m a with
  | nil => exact h
  | cons b bs ih =>
    simp only [List.length_cons] at hs
    refine ih (Memory.write_wf hm (by omega) b) (by omega) ?_
    intro f hf
    obtain ⟨g, hg, hd, -⟩ := mem_carveFree hf ((Memory.wf_iff m).mp hm).freeNonempty
    rw [hd]; exact h g hg

/-! ## Reads of a window -/

theorem Memory.readBytes_length (m : Memory) (a n : Nat) : (m.readBytes a n).length = n := by
  simp [Memory.readBytes]

theorem Memory.readBytes_getElem (m : Memory) (a n i : Nat) (h : i < (m.readBytes a n).length) :
    (m.readBytes a n)[i] = m.read (a + i) := by
  simp [Memory.readBytes]

/-- Reading back what was written (R63, R74). -/
theorem Memory.readBytes_writeBytes {m : Memory} (hm : m.wf = true) {a : Nat} {bs : List Byte}
    (hs : a + bs.length ≤ Config.addressSpace) : (m.writeBytes a bs).readBytes a bs.length = bs := by
  apply List.ext_getElem
  · rw [Memory.readBytes_length]
  · intro i h1 h2
    rw [Memory.readBytes_getElem, Memory.read_writeBytes_inside hm hs h2]

/-! ## Making a window unspecified -/

theorem Memory.read_unspecify_outside (m : Memory) (w : Span) (draw : Nat) {a : Nat} (h : w.has a = false) :
    (m.unspecify w draw).read a = m.read a := by
  unfold Memory.unspecify
  split
  · rfl
  · rw [Memory.read_eq, Memory.read_eq, Memory.background_eq, Memory.background_eq]
    have hc : cellAt (m.cells.filter (fun c => !w.has c.1)) a = cellAt m.cells a := by
      induction m.cells with
      | nil => rfl
      | cons c l ih =>
        rw [List.filter_cons]
        by_cases hw : w.has c.1 = true
        · have hne : c.1 ≠ a := by intro he; rw [he, h] at hw; simp at hw
          simp only [hw, Bool.not_true, Bool.false_eq_true, ↓reduceIte]
          rw [ih, cellAt_cons]; simp [hne]
        · have hw' : w.has c.1 = false := by simpa using hw
          simp only [hw', Bool.not_false, ↓reduceIte]
          rw [cellAt_cons, cellAt_cons, ih]
    simp only [hc, freeAt_cons, freeAt_carveFree, h]
    rfl

theorem Memory.read_unspecify_inside (m : Memory) (w : Span) (draw : Nat) {a : Nat} (h : w.has a = true) :
    (m.unspecify w draw).read a = Config.freeByte draw a := by
  have hw : w.isEmpty = false := by rw [Span.has_iff] at h; rw [Span.isEmpty_false_iff]; omega
  unfold Memory.unspecify
  rw [hw, Memory.read_eq, Memory.background_eq]
  have hc : cellAt (m.cells.filter (fun c => !w.has c.1)) a = none := by
    apply cellAt_eq_none
    intro c hc hca
    have := (List.mem_filter.mp hc).2
    rw [hca, h] at this
    simp at this
  simp [hc, freeAt_cons, h]

theorem Memory.unspecify_wf {m : Memory} (hm : m.wf = true) {w : Span} (hw : w.hi ≤ Config.addressSpace) (draw : Nat) :
    (m.unspecify w draw).wf = true := by
  unfold Memory.unspecify
  split
  · exact hm
  · next hne =>
    have hne' : w.isEmpty = false := by simpa using hne
    rw [Memory.wf_iff] at hm ⊢
    have hsub := fun f (hf : f ∈ carveFree m.free w) => mem_carveFree hf hm.freeNonempty
    refine ⟨hm.sorted.filter _, ?_, ?_, ?_, ?_, ?_, ?_⟩
    · intro c hc; exact hm.inSpace c (List.mem_filter.mp hc).1
    · intro c hc; exact hm.nonzero c (List.mem_filter.mp hc).1
    · intro c hc f hf
      obtain ⟨h1, h2⟩ := List.mem_filter.mp hc
      rcases List.mem_cons.mp hf with rfl | hf
      · simpa using h2
      · obtain ⟨g, hg, -, -, -, hsp⟩ := hsub f hf
        by_contra hcon
        have := (hsp c.1 (by simpa using hcon)).1
        simp [hm.apart c h1 g hg] at this
    · intro f hf
      rcases List.mem_cons.mp hf with rfl | hf
      · exact hne'
      · obtain ⟨g, hg, -, h1, -, -⟩ := hsub f hf; exact h1
    · intro f hf
      rcases List.mem_cons.mp hf with rfl | hf
      · exact hw
      · obtain ⟨g, hg, -, -, h1, -⟩ := hsub f hf; exact le_trans h1 (hm.freeInSpace g hg)
    · refine List.pairwise_cons.mpr ⟨?_, carveFree_pairwise w hm.freeNonempty hm.freeDisjoint⟩
      intro f hf
      obtain ⟨g, hg, -, -, -, hsp⟩ := hsub f hf
      by_contra hcon
      have hcon' : w.overlaps f.span = true := by simpa using hcon
      obtain ⟨a, hwa, hfa⟩ := (Span.overlaps_iff_exists _ _).mp hcon'
      have := (hsp a hfa).2
      simp [hwa] at this

theorem Memory.unspecify_free_draw {m : Memory} (hm : m.wf = true) {w : Span} {draw n : Nat} (hd : draw < n)
    (h : ∀ f ∈ m.free, f.draw < n) : ∀ f ∈ (m.unspecify w draw).free, f.draw < n := by
  unfold Memory.unspecify
  split
  · exact h
  · intro f hf
    rcases List.mem_cons.mp hf with rfl | hf
    · exact hd
    · obtain ⟨g, hg, hgd, -⟩ := mem_carveFree hf ((Memory.wf_iff m).mp hm).freeNonempty
      rw [hgd]; exact h g hg

end Sys2Proof.Machine
end

