-- ==== Sys2Proof/Laws/State.lean ====
section
/-! SUPPORT. What each named update of the state does to each field, and the values of the latched windows and checks: the lemmas
that later proofs rewrite with instead of unfolding an update. -/

namespace Sys2Proof.Machine

@[simp] theorem dropCommand_ctrl (s : State) : (dropCommand s).ctrl = s.ctrl := rfl
@[simp] theorem dropCommand_srcAddr (s : State) : (dropCommand s).srcAddr = s.srcAddr := rfl
@[simp] theorem dropCommand_srcLen (s : State) : (dropCommand s).srcLen = s.srcLen := rfl
@[simp] theorem dropCommand_dstAddr (s : State) : (dropCommand s).dstAddr = s.dstAddr := rfl
@[simp] theorem dropCommand_dstCap (s : State) : (dropCommand s).dstCap = s.dstCap := rfl
@[simp] theorem dropCommand_outLen (s : State) : (dropCommand s).outLen = s.outLen := rfl
@[simp] theorem dropCommand_errInfo (s : State) : (dropCommand s).errInfo = s.errInfo := rfl
@[simp] theorem dropCommand_phase (s : State) : (dropCommand s).phase = s.phase := rfl
@[simp] theorem dropCommand_done (s : State) : (dropCommand s).done = s.done := rfl
@[simp] theorem dropCommand_err (s : State) : (dropCommand s).err = s.err := rfl
@[simp] theorem dropCommand_cmdOvr (s : State) : (dropCommand s).cmdOvr = true := rfl
@[simp] theorem dropCommand_errCode (s : State) : (dropCommand s).errCode = s.errCode := rfl
@[simp] theorem dropCommand_lastOp (s : State) : (dropCommand s).lastOp = s.lastOp := rfl
@[simp] theorem dropCommand_latched (s : State) : (dropCommand s).latched = s.latched := rfl
@[simp] theorem dropCommand_work (s : State) : (dropCommand s).work = s.work := rfl
@[simp] theorem dropCommand_mem (s : State) : (dropCommand s).mem = s.mem := rfl
@[simp] theorem dropCommand_platform (s : State) : (dropCommand s).platform = s.platform := rfl
@[simp] theorem dropCommand_duties (s : State) : (dropCommand s).duties = s.duties := rfl
@[simp] theorem dropCommand_inputs (s : State) : (dropCommand s).inputs = s.inputs := rfl
@[simp] theorem dropCommand_hostData (s : State) : (dropCommand s).hostData = s.hostData := rfl
@[simp] theorem dropCommand_hostIrq (s : State) : (dropCommand s).hostIrq = s.hostIrq := rfl
@[simp] theorem dropCommand_hostBytes (s : State) : (dropCommand s).hostBytes = s.hostBytes := rfl
@[simp] theorem dropCommand_draws (s : State) : (dropCommand s).draws = s.draws := rfl

@[simp] theorem startCommand_ctrl (op : Op) (s : State) : (startCommand op s).ctrl = s.ctrl := rfl
@[simp] theorem startCommand_srcAddr (op : Op) (s : State) : (startCommand op s).srcAddr = s.srcAddr := rfl
@[simp] theorem startCommand_srcLen (op : Op) (s : State) : (startCommand op s).srcLen = s.srcLen := rfl
@[simp] theorem startCommand_dstAddr (op : Op) (s : State) : (startCommand op s).dstAddr = s.dstAddr := rfl
@[simp] theorem startCommand_dstCap (op : Op) (s : State) : (startCommand op s).dstCap = s.dstCap := rfl
@[simp] theorem startCommand_outLen (op : Op) (s : State) : (startCommand op s).outLen = 0 := rfl
@[simp] theorem startCommand_errInfo (op : Op) (s : State) : (startCommand op s).errInfo = 0 := rfl
@[simp] theorem startCommand_phase (op : Op) (s : State) : (startCommand op s).phase = .busy := rfl
@[simp] theorem startCommand_done (op : Op) (s : State) : (startCommand op s).done = false := rfl
@[simp] theorem startCommand_err (op : Op) (s : State) : (startCommand op s).err = false := rfl
@[simp] theorem startCommand_cmdOvr (op : Op) (s : State) : (startCommand op s).cmdOvr = s.cmdOvr := rfl
@[simp] theorem startCommand_errCode (op : Op) (s : State) : (startCommand op s).errCode = 0 := rfl
@[simp] theorem startCommand_lastOp (op : Op) (s : State) : (startCommand op s).lastOp = op.code := rfl
@[simp] theorem startCommand_latched (op : Op) (s : State) : (startCommand op s).latched = latchOperands op s := rfl
@[simp] theorem startCommand_work (op : Op) (s : State) : (startCommand op s).work = s.work := rfl
@[simp] theorem startCommand_mem (op : Op) (s : State) : (startCommand op s).mem = s.mem := rfl
@[simp] theorem startCommand_platform (op : Op) (s : State) : (startCommand op s).platform = s.platform := rfl
@[simp] theorem startCommand_duties (op : Op) (s : State) : (startCommand op s).duties = (latchOperands op s).duty :: s.duties := rfl
@[simp] theorem startCommand_inputs (op : Op) (s : State) : (startCommand op s).inputs = s.inputs := rfl
@[simp] theorem startCommand_hostData (op : Op) (s : State) : (startCommand op s).hostData = s.hostData := rfl
@[simp] theorem startCommand_hostIrq (op : Op) (s : State) : (startCommand op s).hostIrq = s.hostIrq := rfl
@[simp] theorem startCommand_hostBytes (op : Op) (s : State) : (startCommand op s).hostBytes = s.hostBytes := rfl
@[simp] theorem startCommand_draws (op : Op) (s : State) : (startCommand op s).draws = s.draws := rfl

@[simp] theorem illegalCommand_ctrl (w : Word) (s : State) : (illegalCommand w s).ctrl = s.ctrl := rfl
@[simp] theorem illegalCommand_srcAddr (w : Word) (s : State) : (illegalCommand w s).srcAddr = s.srcAddr := rfl
@[simp] theorem illegalCommand_srcLen (w : Word) (s : State) : (illegalCommand w s).srcLen = s.srcLen := rfl
@[simp] theorem illegalCommand_dstAddr (w : Word) (s : State) : (illegalCommand w s).dstAddr = s.dstAddr := rfl
@[simp] theorem illegalCommand_dstCap (w : Word) (s : State) : (illegalCommand w s).dstCap = s.dstCap := rfl
@[simp] theorem illegalCommand_outLen (w : Word) (s : State) : (illegalCommand w s).outLen = 0 := rfl
@[simp] theorem illegalCommand_errInfo (w : Word) (s : State) : (illegalCommand w s).errInfo = w := rfl
@[simp] theorem illegalCommand_phase (w : Word) (s : State) : (illegalCommand w s).phase = s.phase := rfl
@[simp] theorem illegalCommand_done (w : Word) (s : State) : (illegalCommand w s).done = false := rfl
@[simp] theorem illegalCommand_err (w : Word) (s : State) : (illegalCommand w s).err = true := rfl
@[simp] theorem illegalCommand_cmdOvr (w : Word) (s : State) : (illegalCommand w s).cmdOvr = s.cmdOvr := rfl
@[simp] theorem illegalCommand_errCode (w : Word) (s : State) : (illegalCommand w s).errCode = 1 := rfl
@[simp] theorem illegalCommand_lastOp (w : Word) (s : State) : (illegalCommand w s).lastOp = w.extractLsb' 0 4 := rfl
@[simp] theorem illegalCommand_latched (w : Word) (s : State) : (illegalCommand w s).latched = s.latched := rfl
@[simp] theorem illegalCommand_work (w : Word) (s : State) : (illegalCommand w s).work = s.work := rfl
@[simp] theorem illegalCommand_mem (w : Word) (s : State) : (illegalCommand w s).mem = s.mem := rfl
@[simp] theorem illegalCommand_platform (w : Word) (s : State) : (illegalCommand w s).platform = s.platform := rfl
@[simp] theorem illegalCommand_duties (w : Word) (s : State) : (illegalCommand w s).duties = s.duties := rfl
@[simp] theorem illegalCommand_inputs (w : Word) (s : State) : (illegalCommand w s).inputs = s.inputs := rfl
@[simp] theorem illegalCommand_hostData (w : Word) (s : State) : (illegalCommand w s).hostData = s.hostData := rfl
@[simp] theorem illegalCommand_hostIrq (w : Word) (s : State) : (illegalCommand w s).hostIrq = s.hostIrq := rfl
@[simp] theorem illegalCommand_hostBytes (w : Word) (s : State) : (illegalCommand w s).hostBytes = s.hostBytes := rfl
@[simp] theorem illegalCommand_draws (w : Word) (s : State) : (illegalCommand w s).draws = s.draws := rfl

@[simp] theorem raise_ctrl (e : CmdError) (info : Nat) (s : State) : (raise e info s).ctrl = s.ctrl := rfl
@[simp] theorem raise_srcAddr (e : CmdError) (info : Nat) (s : State) : (raise e info s).srcAddr = s.srcAddr := rfl
@[simp] theorem raise_srcLen (e : CmdError) (info : Nat) (s : State) : (raise e info s).srcLen = s.srcLen := rfl
@[simp] theorem raise_dstAddr (e : CmdError) (info : Nat) (s : State) : (raise e info s).dstAddr = s.dstAddr := rfl
@[simp] theorem raise_dstCap (e : CmdError) (info : Nat) (s : State) : (raise e info s).dstCap = s.dstCap := rfl
@[simp] theorem raise_outLen (e : CmdError) (info : Nat) (s : State) : (raise e info s).outLen = 0 := rfl
@[simp] theorem raise_errInfo (e : CmdError) (info : Nat) (s : State) :
    (raise e info s).errInfo = errInfoValue info s.draws := rfl
@[simp] theorem raise_phase (e : CmdError) (info : Nat) (s : State) : (raise e info s).phase = .idle := rfl
@[simp] theorem raise_done (e : CmdError) (info : Nat) (s : State) : (raise e info s).done = s.done := rfl
@[simp] theorem raise_err (e : CmdError) (info : Nat) (s : State) : (raise e info s).err = true := rfl
@[simp] theorem raise_cmdOvr (e : CmdError) (info : Nat) (s : State) : (raise e info s).cmdOvr = s.cmdOvr := rfl
@[simp] theorem raise_errCode (e : CmdError) (info : Nat) (s : State) : (raise e info s).errCode = e.code := rfl
@[simp] theorem raise_lastOp (e : CmdError) (info : Nat) (s : State) : (raise e info s).lastOp = s.lastOp := rfl
@[simp] theorem raise_latched (e : CmdError) (info : Nat) (s : State) : (raise e info s).latched = s.latched := rfl
@[simp] theorem raise_work (e : CmdError) (info : Nat) (s : State) : (raise e info s).work = s.work := rfl
@[simp] theorem raise_mem (e : CmdError) (info : Nat) (s : State) : (raise e info s).mem = memoryAfterError e s := rfl
@[simp] theorem raise_platform (e : CmdError) (info : Nat) (s : State) : (raise e info s).platform = s.platform := rfl
@[simp] theorem raise_duties (e : CmdError) (info : Nat) (s : State) : (raise e info s).duties = s.duties := rfl
@[simp] theorem raise_inputs (e : CmdError) (info : Nat) (s : State) : (raise e info s).inputs = s.inputs := rfl
@[simp] theorem raise_hostData (e : CmdError) (info : Nat) (s : State) : (raise e info s).hostData = s.hostData := rfl
@[simp] theorem raise_hostIrq (e : CmdError) (info : Nat) (s : State) : (raise e info s).hostIrq = s.hostIrq := rfl
@[simp] theorem raise_hostBytes (e : CmdError) (info : Nat) (s : State) : (raise e info s).hostBytes = s.hostBytes := rfl
@[simp] theorem raise_draws (e : CmdError) (info : Nat) (s : State) : (raise e info s).draws = s.draws + 1 := rfl

@[simp] theorem finish_ctrl (out : List Byte) (s : State) : (finish out s).ctrl = s.ctrl := rfl
@[simp] theorem finish_srcAddr (out : List Byte) (s : State) : (finish out s).srcAddr = s.srcAddr := rfl
@[simp] theorem finish_srcLen (out : List Byte) (s : State) : (finish out s).srcLen = s.srcLen := rfl
@[simp] theorem finish_dstAddr (out : List Byte) (s : State) : (finish out s).dstAddr = s.dstAddr := rfl
@[simp] theorem finish_dstCap (out : List Byte) (s : State) : (finish out s).dstCap = s.dstCap := rfl
@[simp] theorem finish_outLen (out : List Byte) (s : State) : (finish out s).outLen = BitVec.ofNat 32 out.length := rfl
@[simp] theorem finish_errInfo (out : List Byte) (s : State) : (finish out s).errInfo = s.errInfo := rfl
@[simp] theorem finish_phase (out : List Byte) (s : State) : (finish out s).phase = .idle := rfl
@[simp] theorem finish_done (out : List Byte) (s : State) : (finish out s).done = true := rfl
@[simp] theorem finish_err (out : List Byte) (s : State) : (finish out s).err = s.err := rfl
@[simp] theorem finish_cmdOvr (out : List Byte) (s : State) : (finish out s).cmdOvr = s.cmdOvr := rfl
@[simp] theorem finish_errCode (out : List Byte) (s : State) : (finish out s).errCode = s.errCode := rfl
@[simp] theorem finish_lastOp (out : List Byte) (s : State) : (finish out s).lastOp = s.lastOp := rfl
@[simp] theorem finish_latched (out : List Byte) (s : State) : (finish out s).latched = s.latched := rfl
@[simp] theorem finish_work (out : List Byte) (s : State) : (finish out s).work = s.work := rfl
@[simp] theorem finish_mem (out : List Byte) (s : State) : (finish out s).mem = s.mem.writeBytes s.latched.dstAddr.toNat out := rfl
@[simp] theorem finish_platform (out : List Byte) (s : State) : (finish out s).platform = s.platform := rfl
@[simp] theorem finish_duties (out : List Byte) (s : State) : (finish out s).duties = s.duties := rfl
@[simp] theorem finish_inputs (out : List Byte) (s : State) : (finish out s).inputs = s.inputs := rfl
@[simp] theorem finish_hostData (out : List Byte) (s : State) : (finish out s).hostData = s.hostData := rfl
@[simp] theorem finish_hostIrq (out : List Byte) (s : State) : (finish out s).hostIrq = s.hostIrq := rfl
@[simp] theorem finish_hostBytes (out : List Byte) (s : State) : (finish out s).hostBytes = s.hostBytes := rfl
@[simp] theorem finish_draws (out : List Byte) (s : State) : (finish out s).draws = s.draws := rfl

@[simp] theorem acknowledgeError_ctrl (s : State) : (acknowledgeError s).ctrl = s.ctrl := rfl
@[simp] theorem acknowledgeError_srcAddr (s : State) : (acknowledgeError s).srcAddr = s.srcAddr := rfl
@[simp] theorem acknowledgeError_srcLen (s : State) : (acknowledgeError s).srcLen = s.srcLen := rfl
@[simp] theorem acknowledgeError_dstAddr (s : State) : (acknowledgeError s).dstAddr = s.dstAddr := rfl
@[simp] theorem acknowledgeError_dstCap (s : State) : (acknowledgeError s).dstCap = s.dstCap := rfl
@[simp] theorem acknowledgeError_outLen (s : State) : (acknowledgeError s).outLen = s.outLen := rfl
@[simp] theorem acknowledgeError_errInfo (s : State) : (acknowledgeError s).errInfo = s.errInfo := rfl
@[simp] theorem acknowledgeError_phase (s : State) : (acknowledgeError s).phase = s.phase := rfl
@[simp] theorem acknowledgeError_done (s : State) : (acknowledgeError s).done = s.done := rfl
@[simp] theorem acknowledgeError_err (s : State) : (acknowledgeError s).err = false := rfl
@[simp] theorem acknowledgeError_cmdOvr (s : State) : (acknowledgeError s).cmdOvr = s.cmdOvr := rfl
@[simp] theorem acknowledgeError_errCode (s : State) : (acknowledgeError s).errCode = 0 := rfl
@[simp] theorem acknowledgeError_lastOp (s : State) : (acknowledgeError s).lastOp = s.lastOp := rfl
@[simp] theorem acknowledgeError_latched (s : State) : (acknowledgeError s).latched = s.latched := rfl
@[simp] theorem acknowledgeError_work (s : State) : (acknowledgeError s).work = s.work := rfl
@[simp] theorem acknowledgeError_mem (s : State) : (acknowledgeError s).mem = s.mem := rfl
@[simp] theorem acknowledgeError_platform (s : State) : (acknowledgeError s).platform = s.platform := rfl
@[simp] theorem acknowledgeError_duties (s : State) : (acknowledgeError s).duties = s.duties := rfl
@[simp] theorem acknowledgeError_inputs (s : State) : (acknowledgeError s).inputs = s.inputs := rfl
@[simp] theorem acknowledgeError_hostData (s : State) : (acknowledgeError s).hostData = s.hostData := rfl
@[simp] theorem acknowledgeError_hostIrq (s : State) : (acknowledgeError s).hostIrq = s.hostIrq := rfl
@[simp] theorem acknowledgeError_hostBytes (s : State) : (acknowledgeError s).hostBytes = s.hostBytes := rfl
@[simp] theorem acknowledgeError_draws (s : State) : (acknowledgeError s).draws = s.draws := rfl

@[simp] theorem observeEnd_ctrl (s : State) : (observeEnd s).ctrl = s.ctrl := rfl
@[simp] theorem observeEnd_srcAddr (s : State) : (observeEnd s).srcAddr = s.srcAddr := rfl
@[simp] theorem observeEnd_srcLen (s : State) : (observeEnd s).srcLen = s.srcLen := rfl
@[simp] theorem observeEnd_dstAddr (s : State) : (observeEnd s).dstAddr = s.dstAddr := rfl
@[simp] theorem observeEnd_dstCap (s : State) : (observeEnd s).dstCap = s.dstCap := rfl
@[simp] theorem observeEnd_outLen (s : State) : (observeEnd s).outLen = s.outLen := rfl
@[simp] theorem observeEnd_errInfo (s : State) : (observeEnd s).errInfo = s.errInfo := rfl
@[simp] theorem observeEnd_phase (s : State) : (observeEnd s).phase = s.phase := rfl
@[simp] theorem observeEnd_done (s : State) : (observeEnd s).done = s.done := rfl
@[simp] theorem observeEnd_err (s : State) : (observeEnd s).err = s.err := rfl
@[simp] theorem observeEnd_cmdOvr (s : State) : (observeEnd s).cmdOvr = s.cmdOvr := rfl
@[simp] theorem observeEnd_errCode (s : State) : (observeEnd s).errCode = s.errCode := rfl
@[simp] theorem observeEnd_lastOp (s : State) : (observeEnd s).lastOp = s.lastOp := rfl
@[simp] theorem observeEnd_latched (s : State) : (observeEnd s).latched = s.latched := rfl
@[simp] theorem observeEnd_work (s : State) : (observeEnd s).work = s.work := rfl
@[simp] theorem observeEnd_mem (s : State) : (observeEnd s).mem = s.mem := rfl
@[simp] theorem observeEnd_platform (s : State) : (observeEnd s).platform = s.platform := rfl
@[simp] theorem observeEnd_duties (s : State) : (observeEnd s).duties = if s.busy then s.duties else [] := rfl
@[simp] theorem observeEnd_inputs (s : State) : (observeEnd s).inputs = s.inputs := rfl
@[simp] theorem observeEnd_hostData (s : State) : (observeEnd s).hostData = s.hostData := rfl
@[simp] theorem observeEnd_hostIrq (s : State) : (observeEnd s).hostIrq = s.hostIrq := rfl
@[simp] theorem observeEnd_hostBytes (s : State) : (observeEnd s).hostBytes = s.hostBytes := rfl
@[simp] theorem observeEnd_draws (s : State) : (observeEnd s).draws = s.draws := rfl

@[simp] theorem resetBlock_ctrl (s : State) : (resetBlock s).ctrl = 0 := rfl
@[simp] theorem resetBlock_srcAddr (s : State) : (resetBlock s).srcAddr = 0 := rfl
@[simp] theorem resetBlock_srcLen (s : State) : (resetBlock s).srcLen = 0 := rfl
@[simp] theorem resetBlock_dstAddr (s : State) : (resetBlock s).dstAddr = 0 := rfl
@[simp] theorem resetBlock_dstCap (s : State) : (resetBlock s).dstCap = 0 := rfl
@[simp] theorem resetBlock_outLen (s : State) : (resetBlock s).outLen = 0 := rfl
@[simp] theorem resetBlock_errInfo (s : State) : (resetBlock s).errInfo = 0 := rfl
@[simp] theorem resetBlock_phase (s : State) : (resetBlock s).phase = .idle := rfl
@[simp] theorem resetBlock_done (s : State) : (resetBlock s).done = false := rfl
@[simp] theorem resetBlock_err (s : State) : (resetBlock s).err = false := rfl
@[simp] theorem resetBlock_cmdOvr (s : State) : (resetBlock s).cmdOvr = false := rfl
@[simp] theorem resetBlock_errCode (s : State) : (resetBlock s).errCode = 0 := rfl
@[simp] theorem resetBlock_lastOp (s : State) : (resetBlock s).lastOp = 0 := rfl
@[simp] theorem resetBlock_latched (s : State) : (resetBlock s).latched = Latched.reset := rfl
@[simp] theorem resetBlock_work (s : State) : (resetBlock s).work = Work.reset := rfl
@[simp] theorem resetBlock_mem (s : State) : (resetBlock s).mem = memoryAfterReset s := rfl
@[simp] theorem resetBlock_platform (s : State) : (resetBlock s).platform = s.platform := rfl
@[simp] theorem resetBlock_duties (s : State) : (resetBlock s).duties = [] := rfl
@[simp] theorem resetBlock_inputs (s : State) : (resetBlock s).inputs = s.inputs := rfl
@[simp] theorem resetBlock_hostData (s : State) : (resetBlock s).hostData = s.hostData := rfl
@[simp] theorem resetBlock_hostIrq (s : State) : (resetBlock s).hostIrq = s.hostIrq := rfl
@[simp] theorem resetBlock_hostBytes (s : State) : (resetBlock s).hostBytes = s.hostBytes := rfl
@[simp] theorem resetBlock_draws (s : State) : (resetBlock s).draws = s.draws + 1 := rfl

@[simp] theorem Latched.source_lo (l : Latched) : l.source.lo = l.srcAddr.toNat := rfl
@[simp] theorem Latched.source_hi (l : Latched) : l.source.hi = l.srcAddr.toNat + l.srcLen.toNat := rfl
@[simp] theorem Latched.destination_lo (l : Latched) : l.destination.lo = l.dstAddr.toNat := rfl
@[simp] theorem Latched.destination_hi (l : Latched) : l.destination.hi = l.dstAddr.toNat + l.dstCap.toNat := rfl

theorem errInfoValue_toNat {info : Nat} (h : info < 2 ^ 32) (draw : Nat) : (errInfoValue info draw).toNat = info := by
  rw [errInfoValue, if_pos h, BitVec.toNat_ofNat, Nat.mod_eq_of_lt h]

theorem State.idle_or_busy (s : State) : s.phase = .idle ∨ s.phase = .busy := by
  cases s.phase <;> simp

theorem busy_eq_true_iff (s : State) : s.busy = true ↔ s.phase = .busy := by simp [State.busy]

theorem busy_eq_false_iff (s : State) : s.busy = false ↔ s.phase = .idle := by
  cases h : s.phase <;> simp [State.busy, h]

/-- The write-1-to-clear, field by field (R25). -/
theorem clearStatus_eq (w : Word) (s : State) :
    clearStatus w s = { s with
      done := s.done && !w.getLsbD 1, err := s.err && !w.getLsbD 2,
      errCode := if w.getLsbD 2 then 0 else s.errCode, cmdOvr := s.cmdOvr && !w.getLsbD 3 } := by
  unfold clearStatus acknowledgeError
  cases w.getLsbD 1 <;> cases w.getLsbD 2 <;> cases w.getLsbD 3 <;> simp

end Sys2Proof.Machine
end

