-- ==== Sys2Proof/Laws/Command.lean ====
section
/-! SUPPORT. Commands: the common checks (R119, R120), everything a completion step can end in (R121, R122), and what `raise`,
`finish` and `resetBlock` do to memory and to the invariant. -/

namespace Sys2Proof.Machine

/-! ## The checks -/

/-- The configuration check passes exactly when both windows lie in memory and, if neither is empty, they are apart (R119). -/
theorem configCheck_eq_none_iff (l : Latched) :
    configCheck l = none ↔
      l.srcAddr.toNat + l.srcLen.toNat ≤ 2 ^ 32 ∧ l.dstAddr.toNat + l.dstCap.toNat ≤ 2 ^ 32 ∧
      ¬(0 < l.srcLen.toNat ∧ 0 < l.dstCap.toNat ∧ l.srcAddr.toNat < l.dstAddr.toNat + l.dstCap.toNat ∧
        l.dstAddr.toNat < l.srcAddr.toNat + l.srcLen.toNat) := by
  unfold configCheck
  by_cases h1 : Config.addressSpace < l.source.hi
  · rw [if_pos h1]; simp only [Config.addressSpace, Latched.source_hi] at h1; simp; omega
  · rw [if_neg h1]
    by_cases h2 : Config.addressSpace < l.destination.hi
    · rw [if_pos h2]; simp only [Config.addressSpace, Latched.destination_hi] at h2; simp; omega
    · rw [if_neg h2]
      simp only [Config.addressSpace, Latched.source_hi, Latched.destination_hi] at h1 h2
      by_cases h3 : 0 < l.srcLen.toNat ∧ 0 < l.dstCap.toNat ∧ l.source.lo < l.destination.hi ∧ l.destination.lo < l.source.hi
      · rw [if_pos h3]
        simp only [Latched.source_hi, Latched.destination_hi, Latched.source_lo, Latched.destination_lo] at h3
        simp [h3]
      · rw [if_neg h3]
        simp only [Latched.source_hi, Latched.destination_hi, Latched.source_lo, Latched.destination_lo] at h3
        simp only [true_iff]
        exact ⟨by omega, by omega, h3⟩

theorem commonChecks_eq_none_iff (s : State) :
    commonChecks s = none ↔ configCheck s.latched = none ∧ firstFailing s.platform s.latched.source = none := by
  unfold commonChecks
  cases configCheck s.latched with
  | some i => simp
  | none => cases firstFailing s.platform s.latched.source <;> simp

/-- The two errors of the common checks. -/
theorem commonChecks_error {s : State} {e : CmdError} {info : Nat} (h : commonChecks s = some (e, info)) :
    (e = .config ∧ configCheck s.latched = some info) ∨
    (e = .io ∧ configCheck s.latched = none ∧ firstFailing s.platform s.latched.source = some info) := by
  unfold commonChecks at h
  cases hc : configCheck s.latched with
  | some i => rw [hc] at h; simp at h; simp [h]
  | none =>
    rw [hc] at h
    cases hf : firstFailing s.platform s.latched.source with
    | some a => rw [hf] at h; simp at h; simp [h]
    | none => rw [hf] at h; simp at h

/-- `sourceBytes` has the latched length (R15). -/
@[simp] theorem sourceBytes_length (s : State) : (sourceBytes s).length = s.latched.srcLen.toNat :=
  Memory.readBytes_length _ _ _

/-! ## The completion step -/

/-- The stages of the running command. -/
def stagesOf (op : Op) : Latched → Platform → List Byte → Work → Work × CmdEnd :=
  match op with
  | .encode => encodeStages
  | .decode => decodeStages

/-- Everything a command can end in, once its windows are idempotent memory: an error of the common checks, an error of its own
stages, or success (R121, R122, R140, R180). -/
theorem completeCommand_cases (s : State) :
    (s.platform.sideEffects.any (touchesWindows s) = true ∧ completeCommand s = .fault .hostDutySideEffects) ∨
    (s.platform.sideEffects.any (touchesWindows s) = false ∧ ∃ e info, commonChecks s = some (e, info) ∧
      completeCommand s = .next (raise e info s)) ∨
    (s.platform.sideEffects.any (touchesWindows s) = false ∧ commonChecks s = none ∧ ∃ w r,
      stagesOf s.latched.op s.latched s.platform (sourceBytes s) s.work = (w, r) ∧
      completeCommand s = .next (endCommand r { s with work := w })) := by
  unfold completeCommand
  cases hse : s.platform.sideEffects.any (touchesWindows s)
  · simp only [Bool.false_eq_true, ↓reduceIte, false_and, true_and, false_or]
    cases hc : commonChecks s with
    | none =>
      refine .inr ⟨rfl, (stagesOf s.latched.op s.latched s.platform (sourceBytes s) s.work).1,
        (stagesOf s.latched.op s.latched s.platform (sourceBytes s) s.work).2, rfl, ?_⟩
      cases hop : s.latched.op <;> simp only [completeEncode, completeDecode, completeWith, hc, stagesOf]
    | some e =>
      refine .inl ⟨e.1, e.2, rfl, ?_⟩
      cases hop : s.latched.op <;> simp only [completeEncode, completeDecode, completeWith, hc]
  · exact .inl ⟨rfl, rfl⟩

/-- The errors of either command's own stages. -/
theorem stagesOf_raise {op : Op} {l : Latched} {p : Platform} {src : List Byte} {w w' : Work} {e : CmdError} {info : Nat}
    (h : stagesOf op l p src w = (w', .raise e info)) : e ≠ .illegalCmd ∧ e ≠ .config := by
  cases op with
  | encode => rcases encodeStages_raise h with rfl | rfl | rfl | rfl <;> simp
  | decode =>
    have := decodeStages_raise h
    simp only [List.mem_cons, List.not_mem_nil, or_false] at this
    rcases this with rfl | rfl | rfl | rfl | rfl | rfl | rfl | rfl <;> simp

/-! ## Memory at a command's end -/

theorem Latched.destination_clip_has (l : Latched) (a : Nat) :
    l.destination.clip.has a = true ↔ l.dstAddr.toNat ≤ a ∧ a < l.dstAddr.toNat + l.dstCap.toNat ∧ a < 2 ^ 32 := by
  rw [Span.has_iff]
  simp only [Span.clip, Latched.destination_lo, Latched.destination_hi, Config.addressSpace]
  omega

theorem memoryAfterError_of_ne {e : CmdError} (h1 : e ≠ .illegalCmd) (h2 : e ≠ .config) (s : State) :
    memoryAfterError e s = s.mem.unspecify s.latched.destination.clip s.draws := by
  cases e <;> first | rfl | exact absurd rfl h1 | exact absurd rfl h2

/-- An error writes no byte outside the destination window (R229). -/
theorem read_memoryAfterError_outside (e : CmdError) (s : State) {a : Nat}
    (h : ¬(s.latched.dstAddr.toNat ≤ a ∧ a < s.latched.dstAddr.toNat + s.latched.dstCap.toNat)) :
    (memoryAfterError e s).read a = s.mem.read a := by
  have hw : s.latched.destination.clip.has a = false := by
    by_contra hc
    have := (Latched.destination_clip_has s.latched a).mp (by simpa using hc)
    omega
  by_cases h1 : e = .illegalCmd
  · subst h1; rfl
  · by_cases h2 : e = .config
    · subst h2; rfl
    · rw [memoryAfterError_of_ne h1 h2, Memory.read_unspecify_outside _ _ _ hw]

theorem memoryAfterError_wf (e : CmdError) {s : State} (h : s.mem.wf = true) : (memoryAfterError e s).wf = true := by
  by_cases h1 : e = .illegalCmd
  · subst h1; exact h
  · by_cases h2 : e = .config
    · subst h2; exact h
    · rw [memoryAfterError_of_ne h1 h2]
      exact Memory.unspecify_wf h (Span.clip_hi _) _

theorem memoryAfterError_draws (e : CmdError) {s : State} (h : MemoryInv s) :
    ∀ f ∈ (memoryAfterError e s).free, f.draw < s.draws + 1 := by
  have old : ∀ f ∈ s.mem.free, f.draw < s.draws + 1 := fun f hf => Nat.lt_succ_of_lt (h.drawsFresh f hf)
  by_cases h1 : e = .illegalCmd
  · subst h1; exact old
  · by_cases h2 : e = .config
    · subst h2; exact old
    · rw [memoryAfterError_of_ne h1 h2]
      exact Memory.unspecify_free_draw h.canonical (Nat.lt_succ_self _) old

/-- The codes of R220 lie between 1 and 12; a command's own errors between 2 and 12. -/
theorem CmdError.code_range (e : CmdError) : 1 ≤ e.code.toNat ∧ e.code.toNat ≤ 12 := by
  cases e <;> decide

theorem CmdError.code_ge_two {e : CmdError} (h : e ≠ .illegalCmd) : 2 ≤ e.code.toNat := by
  cases e <;> first | exact absurd rfl h | decide

/-! ## The invariant at a command's end -/

/-- Error entry keeps the invariant when no success is still signalled. -/
theorem raise_inv {e : CmdError} {info : Nat} {s : State} (h : Inv s) (hd : s.done = false) : Inv (raise e info s) where
  status :=
    { noErr := fun hc => by simp at hc
      errCodeRange := fun _ => CmdError.code_range e
      notBoth := fun hc => by simp [hd] at hc
      errLen := fun _ => rfl
      lenInWindow := by simp }
  busy :=
    { flags := fun hc => by simp at hc
      registers := fun hc => by simp at hc
      lastOp := fun hc => by simp at hc
      duties := fun hc => by simp at hc }
  memory := { canonical := memoryAfterError_wf e h.memory.canonical, drawsFresh := memoryAfterError_draws e h.memory }
  failing := h.failing
  sideEffects := h.sideEffects

/-- Success keeps the invariant when no error is signalled and the output fits the window. -/
theorem finish_inv {out : List Byte} {s : State} (h : Inv s) (he : s.err = false)
    (hl : out.length ≤ s.latched.dstCap.toNat) (hs : s.latched.dstAddr.toNat + s.latched.dstCap.toNat ≤ 2 ^ 32) :
    Inv (finish out s) where
  status :=
    { noErr := fun _ => h.status.noErr he
      errCodeRange := fun hc => by simp [he] at hc
      notBoth := fun hc => by simp [he] at hc
      errLen := fun hc => by simp [he] at hc
      lenInWindow := by simp only [finish_outLen, finish_latched, BitVec.toNat_ofNat]; exact le_trans (Nat.mod_le _ _) hl }
  busy :=
    { flags := fun hc => by simp at hc
      registers := fun hc => by simp at hc
      lastOp := fun hc => by simp at hc
      duties := fun hc => by simp at hc }
  memory :=
    { canonical := Memory.writeBytes_wf h.memory.canonical (by simp only [Config.addressSpace]; omega)
      drawsFresh := Memory.writeBytes_free_draw h.memory.canonical (by simp only [Config.addressSpace]; omega) h.memory.drawsFresh }
  failing := h.failing
  sideEffects := h.sideEffects

/-- The working state is no part of the invariant. -/
theorem Inv.with_work {s : State} (h : Inv s) (w : Work) : Inv { s with work := w } :=
  { status := { noErr := h.status.noErr, errCodeRange := h.status.errCodeRange, notBoth := h.status.notBoth,
                errLen := h.status.errLen, lenInWindow := h.status.lenInWindow }
    busy := { flags := h.busy.flags, registers := h.busy.registers, lastOp := h.busy.lastOp, duties := h.busy.duties }
    memory := { canonical := h.memory.canonical, drawsFresh := h.memory.drawsFresh }
    failing := h.failing, sideEffects := h.sideEffects }

/-- Nor are the pending acts. -/
theorem Inv.with_inputs {s : State} (h : Inv s) (l : List Input) : Inv { s with inputs := l } :=
  { status := { noErr := h.status.noErr, errCodeRange := h.status.errCodeRange, notBoth := h.status.notBoth,
                errLen := h.status.errLen, lenInWindow := h.status.lenInWindow }
    busy := { flags := h.busy.flags, registers := h.busy.registers, lastOp := h.busy.lastOp, duties := h.busy.duties }
    memory := { canonical := h.memory.canonical, drawsFresh := h.memory.drawsFresh }
    failing := h.failing, sideEffects := h.sideEffects }

/-! ## Reset -/

theorem memoryAfterReset_idle {s : State} (h : s.phase = .idle) : memoryAfterReset s = s.mem := by
  simp [memoryAfterReset, h]

theorem memoryAfterReset_busy {s : State} (h : s.phase = .busy) :
    memoryAfterReset s = s.mem.unspecify s.latched.destination.clip s.draws := by
  simp [memoryAfterReset, h]

theorem memoryAfterReset_wf {s : State} (h : s.mem.wf = true) : (memoryAfterReset s).wf = true := by
  cases hp : s.phase
  · rw [memoryAfterReset_idle hp]; exact h
  · rw [memoryAfterReset_busy hp]; exact Memory.unspecify_wf h (Span.clip_hi _) _

theorem memoryAfterReset_draws {s : State} (h : MemoryInv s) :
    ∀ f ∈ (memoryAfterReset s).free, f.draw < s.draws + 1 := by
  have old : ∀ f ∈ s.mem.free, f.draw < s.draws + 1 := fun f hf => Nat.lt_succ_of_lt (h.drawsFresh f hf)
  cases hp : s.phase
  · rw [memoryAfterReset_idle hp]; exact old
  · rw [memoryAfterReset_busy hp]; exact Memory.unspecify_free_draw h.canonical (Nat.lt_succ_self _) old

end Sys2Proof.Machine
end

