-- ==== Sys2Proof/Laws/Environment.lean ====
section
/-! SUPPORT. The acts of the agents around the block: the windows with duties, when each act is a breach, and what a change of the
platform does to memory. -/

namespace Sys2Proof.Machine

/-! ## Windows with duties (R270) -/

theorem mem_dutyWindows (s : State) (v : Span) :
    v ∈ s.dutyWindows ↔ ∃ d ∈ s.duties, v = d.source ∨ v = d.destination := by
  simp [State.dutyWindows, Duty.windows]

theorem Duty.touches_iff (d : Duty) (w : Span) :
    d.touches w = true ↔ d.source.overlaps w = true ∨ d.destination.overlaps w = true := by
  simp [Duty.touches, Duty.windows]

@[simp] theorem Latched.duty_source (l : Latched) : l.duty.source = l.source := rfl
@[simp] theorem Latched.duty_destination (l : Latched) : l.duty.destination = l.destination := rfl

/-! ## Host writes -/

/-- Everything a host write can do (R87, R270). -/
theorem hostMemWrite_cases (addr : Nat) (data : List Byte) (s : State) :
    (Config.addressSpace < addr + data.length ∧ hostMemWrite addr data s = .fault .outsideMemory) ∨
    (addr + data.length ≤ Config.addressSpace ∧
      (∃ v ∈ s.dutyWindows, v.overlaps { lo := addr, hi := addr + data.length } = true) ∧
      hostMemWrite addr data s = .fault .hostDutyWrite) ∨
    (addr + data.length ≤ Config.addressSpace ∧
      (∀ v ∈ s.dutyWindows, v.overlaps { lo := addr, hi := addr + data.length } = false) ∧
      hostMemWrite addr data s = .next { s with mem := s.mem.writeBytes addr data }) := by
  unfold hostMemWrite
  by_cases h : Config.addressSpace < addr + data.length
  · exact .inl ⟨h, if_pos h⟩
  · rw [if_neg h]
    cases hb : s.dutyWindows.any (fun v => v.overlaps { lo := addr, hi := addr + data.length })
    · exact .inr (.inr ⟨by omega, by simpa using hb, rfl⟩)
    · exact .inr (.inl ⟨by omega, by simpa using hb, rfl⟩)

/-! ## Changes of the platform -/

/-- Some address of `w` lies in one of the spans exactly when `firstIn` finds one. -/
theorem firstIn_isSome_iff (l : List Span) (w : Span) :
    (firstIn l w).isSome = true ↔ ∃ a, w.has a = true ∧ inSpans l a = true := by
  cases h : firstIn l w with
  | some a => simpa using ⟨a, ((firstIn_eq_some_iff l w a).mp h).1, ((firstIn_eq_some_iff l w a).mp h).2.1⟩
  | none =>
    have hn := (firstIn_eq_none_iff l w).mp h
    simp only [Option.isSome_none, Bool.false_eq_true, false_iff, not_exists, not_and, Bool.not_eq_true]
    exact hn

/-- Everything a change of the platform can do. -/
theorem changePlatform_cases (c : PlatformChange) (s : State) :
    (∃ f, changeBreach s c = some f ∧ changePlatform c s = .fault f) ∨
    (changeBreach s c = none ∧ changePlatform c s = .next (applyChange c s)) := by
  unfold changePlatform
  cases changeBreach s c <;> simp

/-- With no duty in force no change is a breach. -/
theorem changeBreach_of_no_duty {s : State} (h : s.duties = []) (c : PlatformChange) : changeBreach s c = none := by
  have hw : s.dutyWindows = [] := by simp [State.dutyWindows, h]
  cases c <;> simp [changeBreach, hw]

@[simp] theorem applyChange_platform (c : PlatformChange) (s : State) :
    (applyChange c s).platform = s.platform.change c := by
  cases c <;> rfl

/-! ## Memory that stops having side effects (log entry 21) -/

theorem Memory.unspecifyAll_wf {m : Memory} (hm : m.wf = true) (draw : Nat) (l : List Span) :
    (m.unspecifyAll draw l).wf = true := by
  induction l generalizing m with
  | nil => exact hm
  | cons w l ih => exact ih (Memory.unspecify_wf hm (Nat.min_le_right _ _) draw)

theorem Memory.unspecifyAll_free_draw {m : Memory} (hm : m.wf = true) {draw n : Nat} (l : List Span) (hd : draw < n)
    (h : ∀ f ∈ m.free, f.draw < n) : ∀ f ∈ (m.unspecifyAll draw l).free, f.draw < n := by
  induction l generalizing m with
  | nil => exact h
  | cons w l ih =>
    exact ih (Memory.unspecify_wf hm (Nat.min_le_right _ _) draw) (Memory.unspecify_free_draw hm hd h)

/-- After `unspecifyAll` an address of a span reads as the draw's free value, and every other address as before. -/
theorem Memory.read_unspecifyAll (m : Memory) (draw : Nat) (l : List Span) {a : Nat} (ha : a < Config.addressSpace) :
    (m.unspecifyAll draw l).read a = if inSpans l a then Config.freeByte draw a else m.read a := by
  induction l generalizing m with
  | nil => rfl
  | cons w l ih =>
    have hc : inSpans (w :: l) a = (w.has a || inSpans l a) := by simp [inSpans]
    rw [Memory.unspecifyAll, ih, hc]
    cases hl : inSpans l a
    · cases hw : w.has a
      · simp [Memory.read_unspecify_outside m w.clip draw ((Span.clip_has w ha).trans hw)]
      · simp [Memory.read_unspecify_inside m w.clip draw ((Span.clip_has w ha).trans hw)]
    · simp

theorem becomePlain_memoryInv {s : State} (h : MemoryInv s) (w : Span) : MemoryInv (becomePlain w s) where
  canonical := Memory.unspecifyAll_wf h.canonical _ _
  drawsFresh := Memory.unspecifyAll_free_draw h.canonical _ (Nat.lt_succ_self _)
    (fun f hf => Nat.lt_succ_of_lt (h.drawsFresh f hf))

end Sys2Proof.Machine
end

