-- ==== Sys2Proof/Laws/PerInstr.lean ====
section
/-! SUPPORT. Per instruction: the form of its encoding (30_encoding.md R82, R83, R86). -/

namespace Sys2Proof.Laws.EncodedForm

/-- A command's encoding is one of the three legal words exactly when it is that command; a transaction's descriptor has seven bits,
its low two are 0, and bit 6 says whether it writes. -/
def Statement (i : Instr) : Prop :=
  i.wellFormed = true →
    match encode i with
    | .command w => (w = 0#32 ↔ i = .nop) ∧ (w = 1#32 ↔ i = .encode) ∧ (w = 2#32 ↔ i = .decode)
    | .bus t data =>
      t.getLsbD 7 = false ∧ t.extractLsb' 0 2 = 0#2 ∧
        ((t.getLsbD 6 = true ∧ ∃ r, i = .wr r data) ∨ (t.getLsbD 6 = false ∧ data = 0 ∧ ∃ r, i = .rd r))

theorem descriptor_fields (write : Bool) (r : Reg) :
    (descriptor write r).getLsbD 7 = false ∧ (descriptor write r).getLsbD 6 = write ∧
      (descriptor write r).extractLsb' 0 2 = 0#2 := by
  cases r with
  | reserved k => revert k write; decide
  | _ => revert write; decide

theorem nop : Statement .nop := by simp [Statement, encode]

theorem encode : Statement .encode := by simp [Statement, Sys2Proof.encode]

theorem decode : Statement .decode := by simp [Statement, Sys2Proof.encode]

theorem illegal (w : Word) : Statement (.illegal w) := by
  simp only [Statement, Instr.wellFormed, legalCommand, Sys2Proof.encode]
  simp +contextual

theorem rd (r : Reg) : Statement (.rd r) := by
  obtain ⟨h7, h6, h0⟩ := descriptor_fields false r
  exact fun _ => ⟨h7, h0, .inr ⟨h6, rfl, r, rfl⟩⟩

theorem wr (r : Reg) (data : Word) : Statement (.wr r data) := by
  obtain ⟨h7, h6, h0⟩ := descriptor_fields true r
  exact fun _ => ⟨h7, h0, .inl ⟨h6, r, rfl⟩⟩

end Sys2Proof.Laws.EncodedForm
end

