-- ==== Sys2Proof/Laws/Step.lean ====
section
/-! SUPPORT. The step: what each instruction answers, what a step can be (one case per kind of pending act), and that placing a word
makes it the next thing that runs. -/

namespace Sys2Proof.Machine

/-! ## Instructions -/

/-- The state an instruction leads to. -/
def afterInstr (i : Instr) (s : State) : State :=
  match i with
  | .nop => if s.phase = .busy then dropCommand s else s
  | .encode => if s.phase = .busy then dropCommand s else startCommand .encode s
  | .decode => if s.phase = .busy then dropCommand s else startCommand .decode s
  | .illegal w => if s.phase = .busy then dropCommand s else illegalCommand w s
  | .rd r => hostRead r s
  | .wr r data => writeReg r data s

/-- Every instruction answers a next state. -/
theorem exec_eq_next (i : Instr) (s : State) : exec i s = .next (afterInstr i s) := by
  cases i <;> rfl

/-- What `issue` can do (R114). -/
theorem issue_cases (w : Word) (s : State) :
    (s.phase = .busy ∧ issue w s = dropCommand s) ∨
    (s.phase = .idle ∧ w = 0#32 ∧ issue w s = s) ∨
    (s.phase = .idle ∧ w = 1#32 ∧ issue w s = startCommand .encode s) ∨
    (s.phase = .idle ∧ w = 2#32 ∧ issue w s = startCommand .decode s) ∨
    (s.phase = .idle ∧ w ≠ 0#32 ∧ w ≠ 1#32 ∧ w ≠ 2#32 ∧ issue w s = illegalCommand w s) := by
  unfold issue
  cases hp : s.phase
  · by_cases h0 : w = 0#32
    · subst h0; simp
    · by_cases h1 : w = 1#32
      · subst h1; simp
      · by_cases h2 : w = 2#32
        · subst h2; simp
        · simp [h0, h1, h2]
  · simp

/-! ## The step, one case per kind of pending act -/

theorem step_nil_busy {s : State} (h : s.inputs = []) (hp : s.phase = .busy) : step s = completeCommand s := by
  simp [step, fetch, h, blockTurn, hp]

theorem step_nil_idle {s : State} (h : s.inputs = []) (hp : s.phase = .idle) : step s = .next s := by
  simp [step, fetch, h, blockTurn, hp]

theorem step_block_busy {s : State} {rest : List Input} (h : s.inputs = .block :: rest) (hp : s.phase = .busy) :
    step s = completeCommand { s with inputs := rest } := by
  simp [step, fetch, h, blockTurn, hp]

theorem step_block_idle {s : State} {rest : List Input} (h : s.inputs = .block :: rest) (hp : s.phase = .idle) :
    step s = .next { s with inputs := rest } := by
  simp [step, fetch, h, blockTurn, hp]

theorem step_host {s : State} {t : HostWord} {rest : List Input} (h : s.inputs = .host t :: rest) :
    step s = match decode t with
      | .ok i => exec i { s with inputs := rest }
      | .error e => .refused (.illegalAccess e) := by
  cases hd : decode t <;> simp [step, fetch, h, turnOf, hd]

theorem step_access {s : State} {addr : Word} {bytes : Nat} {write : Option Word} {rest : List Input}
    (h : s.inputs = .access addr bytes write :: rest) :
    step s = match decodeAccess addr bytes write with
      | .ok i => exec i { s with inputs := rest }
      | .error e => .refused (.illegalAccess e) := by
  cases hd : decodeAccess addr bytes write <;> simp [step, fetch, h, turnOf, hd]

theorem step_env {s : State} {e : EnvEvent} {rest : List Input} (h : s.inputs = .env e :: rest) :
    step s = applyEvent e { s with inputs := rest } := by
  simp [step, fetch, h]

/-- Everything a step can be (R123, R275). -/
theorem step_cases (s : State) :
    (s.inputs = [] ∧ s.phase = .idle ∧ step s = .next s) ∨
    (∃ rest, (s.inputs = .block :: rest ∧ s.phase = .idle) ∧ step s = .next { s with inputs := rest }) ∨
    (∃ rest, (s.inputs = rest ∧ rest = [] ∨ s.inputs = .block :: rest) ∧ s.phase = .busy ∧
      step s = completeCommand { s with inputs := rest }) ∨
    (∃ x rest i, s.inputs = x :: rest ∧ step s = exec i { s with inputs := rest }) ∨
    (∃ e, step s = .refused (.illegalAccess e)) ∨
    (∃ e rest, s.inputs = .env e :: rest ∧ step s = applyEvent e { s with inputs := rest }) := by
  cases hi : s.inputs with
  | nil =>
    rcases s.idle_or_busy with hp | hp
    · exact .inl ⟨rfl, hp, step_nil_idle hi hp⟩
    · refine .inr (.inr (.inl ⟨[], .inl ⟨rfl, rfl⟩, hp, ?_⟩))
      rw [step_nil_busy hi hp, ← hi]
  | cons x rest =>
    cases x with
    | host t =>
      rw [step_host hi]
      cases decode t with
      | ok i => exact .inr (.inr (.inr (.inl ⟨_, rest, i, rfl, rfl⟩)))
      | error e => exact .inr (.inr (.inr (.inr (.inl ⟨e, rfl⟩))))
    | access addr bytes write =>
      rw [step_access hi]
      cases decodeAccess addr bytes write with
      | ok i => exact .inr (.inr (.inr (.inl ⟨_, rest, i, rfl, rfl⟩)))
      | error e => exact .inr (.inr (.inr (.inr (.inl ⟨e, rfl⟩))))
    | block =>
      rcases s.idle_or_busy with hp | hp
      · exact .inr (.inl ⟨rest, ⟨rfl, hp⟩, step_block_idle hi hp⟩)
      · exact .inr (.inr (.inl ⟨rest, .inr rfl, hp, step_block_busy hi hp⟩))
    | env e => exact .inr (.inr (.inr (.inr (.inr ⟨e, rest, rfl, step_env hi⟩))))

end Sys2Proof.Machine
end

