-- ==== Sys2Proof/Tests/Slice0.lean ====
section
/-! SUPPORT. Tests, whose expected values come from the vectors of 95_test_vectors.md (named beside each) or from the encodings of
30_encoding.md; and, for the statements with hypotheses, witnesses that meet the hypotheses. -/

set_option maxRecDepth 20000

namespace Sys2Proof.Tests

open Sys2Proof.Machine

/-! ## Small states -/

/-- The next state of an outcome, if it is one. -/
def nextOf : Host.Outcome State Fault Refusal → Option State
  | .next s => some s
  | _ => none

/-- The fault of an outcome, if it is one. -/
def faultOf : Host.Outcome State Fault Refusal → Option Fault
  | .fault f => some f
  | _ => none

theorem next_of_map {β : Type} {o : Host.Outcome State Fault Refusal} {f : State → β} {x : β}
    (h : (nextOf o).map f = some x) : ∃ t, o = .next t ∧ f t = x := by
  cases o with
  | next t => exact ⟨t, rfl, by simpa [nextOf] using h⟩
  | fault e => simp [nextOf] at h
  | refused e => simp [nextOf] at h

/-- The operands of `op` on `len` bytes at 0x1000, with the destination at 0x2000. -/
def operands (op : Op) (len cap : Word) : Latched :=
  { op := op, srcAddr := 0x1000, srcLen := len, dstAddr := 0x2000, dstCap := cap, blkle := false, wrap256 := false }

/-- The running command `op` on the bytes `src`. -/
def running (op : Op) (src : List Byte) (cap : Word) : State :=
  let l := operands op (BitVec.ofNat 32 src.length) cap
  { State.reset with
    phase := .busy, lastOp := op.code, latched := l, duties := [l.duty],
    mem := Memory.unknown.writeBytes 0x1000 src }

/-- The machine at reset with a pending act. -/
def pending (x : Input) : State := { State.reset with inputs := [x] }

def aaab : List Byte := [0x61, 0x61, 0x61, 0x62]

/-- The container of "aaab" (V-ENC1). -/
def aaabContainer : List Byte :=
  [0x02, 0x61, 0x01, 0, 0, 0, 0, 0, 0, 0, 0x00, 0x62, 0x01, 0, 0, 0, 0, 0, 0, 0, 0x01, 0x10, 0x04]

def anyPlatform : Platform := { failing := [], sideEffects := [] }

def encodeOperands (cap : Word) : Latched := (running .encode aaab cap).latched

theorem running_inv (src : List Byte) (op : Op) (cap : Word) (hm : (Memory.unknown.writeBytes 0x1000 src).wf = true)
    (hf : ∀ f ∈ (Memory.unknown.writeBytes 0x1000 src).free, f.draw < 1) : Inv (running op src cap) :=
  { status := { noErr := fun _ => rfl, errCodeRange := fun h => by simp [running, State.reset] at h
                notBoth := by simp [running, State.reset], errLen := fun _ => rfl
                lenInWindow := by simp [running, State.reset] }
    busy := { flags := fun _ => ⟨rfl, rfl⟩, registers := fun _ => ⟨rfl, rfl⟩
              lastOp := fun _ => by cases op <;> rfl, duties := fun _ => List.mem_singleton.mpr rfl }
    memory := { canonical := hm, drawsFresh := hf }
    failing := show spansWf [] = true by decide
    sideEffects := show spansWf [] = true by decide }

theorem running_aaab_inv (op : Op) (cap : Word) : Inv (running op aaab cap) :=
  running_inv aaab op cap (by decide) (by decide)

/-! ## Well-formedness -/

theorem test_illegal_nop_is_not_well_formed : (Instr.illegal 0x00000000#32).wellFormed = false := by decide
theorem test_illegal_encode_is_not_well_formed : (Instr.illegal 0x00000001#32).wellFormed = false := by decide
theorem test_illegal_decode_is_not_well_formed : (Instr.illegal 0x00000002#32).wellFormed = false := by decide
theorem test_illegal_word_is_well_formed : (Instr.illegal 0x00000003#32).wellFormed = true := by decide

/-! ## Decoding, from words written out from the encodings (R82, R83, R86) -/

theorem test_decode_nop : decode (.command 0b0000000000000000000000000000_0000#32) = .ok .nop := by decide
theorem test_decode_encode : decode (.command 0b0000000000000000000000000000_0001#32) = .ok .encode := by decide
theorem test_decode_decode : decode (.command 0b0000000000000000000000000000_0010#32) = .ok .decode := by decide
theorem test_decode_illegal_op :
    decode (.command 0b0000000000000000000000000000_0011#32) = .ok (.illegal 0x3#32) := by decide
theorem test_decode_illegal_rsvd :
    decode (.command 0b1000000000000000000000000000_0001#32) = .ok (.illegal 0x80000001#32) := by decide
theorem test_decode_rd_status : decode (.bus 0b0_0_0011_00#8 0) = .ok (.rd .status) := by decide
theorem test_decode_rd_last_reserved : decode (.bus 0b0_0_1111_00#8 0) = .ok (.rd (.reserved 5)) := by decide
theorem test_decode_wr_src_addr : decode (.bus 0b0_1_0100_00#8 0x1000) = .ok (.wr .srcAddr 0x1000) := by decide
theorem test_decode_wr_cmd : decode (.bus 0x48#8 0x1) = .ok (.wr .cmd 0x1) := by decide
theorem test_decode_misaligned : decode (.bus 0b0_1_0100_01#8 0) = .error .misaligned := by decide
theorem test_decode_eighth_bit : decode (.bus 0b1_1_0100_00#8 0) = .error .notADescriptor := by decide

theorem test_table_words :
    decodeTableWord 32 0x00000000 = some .nop ∧ decodeTableWord 32 0x00000001 = some .encode ∧
    decodeTableWord 32 0x00000002 = some .decode ∧ decodeTableWord 32 0xFFFFFFFF = some (.illegal 0xFFFFFFFF) ∧
    decodeTableWord 8 0x0C = some (.rd .status) ∧ decodeTableWord 8 0x48 = some (.wr .cmd 0) ∧
    decodeTableWord 40 0x148 = some (.wr .cmd 1) := by decide

/-! ## One step of each instruction -/

/-- V-CMD's start: IDLE, STATUS = 0x00001002, OUT_LEN = 23. -/
def afterEncode : State := { State.reset with done := true, lastOp := 1, outLen := 23 }

/-- V-CMD1. -/
theorem test_nop_idle : nextOf (step (afterEncode.withFetchWord 32 0)) = some afterEncode := by decide

/-- V-CMD10. -/
theorem test_nop_busy :
    (nextOf (step ((running .encode aaab 64).withFetchWord 32 0))).map State.statusWord = some 0x00001009 := by decide

/-- R116, the irq line included. -/
theorem test_encode_starts :
    (nextOf (step ({ afterEncode with ctrl := 7, srcLen := 4 }.withFetchWord 32 1))).map
      (fun t => (t.statusWord, t.outLen, t.irq, t.latched.srcLen, t.latched.blkle)) = some (0x00001001, 0, false, 4, true) := by
  decide

/-- V-CMD11. -/
theorem test_decode_starts :
    (nextOf (step ({ afterEncode with done := false, cmdOvr := true }.withFetchWord 32 2))).map State.statusWord
      = some 0x00002009 := by decide

/-- V-CMD3. -/
theorem test_illegal_op :
    (nextOf (step (afterEncode.withFetchWord 32 0x0000000F))).map (fun t => (t.statusWord, t.errInfo, t.outLen))
      = some (0x0000F104, 0x0000000F, 0) := by decide

/-- V-CMD7. -/
theorem test_illegal_rsvd :
    (nextOf (step (afterEncode.withFetchWord 32 0x80000000))).map (fun t => (t.statusWord, t.errInfo, t.outLen))
      = some (0x00000104, 0x80000000, 0) := by decide

/-- V-REG1. -/
theorem test_rd_id : (nextOf (exec (.rd .id) State.reset)).map State.hostData = some 0x48554607 := by decide

/-- V-REG11's start. -/
theorem test_rd_status :
    (nextOf (exec (.rd .status) { afterEncode with cmdOvr := true })).map State.hostData = some 0x0000100A := by decide

/-- V-REG3. -/
theorem test_wr_ctrl : (nextOf (exec (.wr .ctrl 0xFFFFFFFF) State.reset)).map (readReg .ctrl) = some 0x7 := by decide

/-- V-REG13. -/
theorem test_wr_status_clears_err :
    (nextOf (exec (.wr .status 0x4) { State.reset with err := true, errCode := 9, lastOp := 2, errInfo := 11 })).map
      (fun t => (t.statusWord, t.errInfo)) = some (0x00002000, 11) := by decide

/-! ## Host programs (R88), with the descriptors of P1 and P2 -/

theorem test_setup :
    Pseudo.expand (.setup 0x1000 4 0x2000 64) =
      [.host (.bus 0x50 0x1000), .host (.bus 0x54 4), .host (.bus 0x58 0x2000), .host (.bus 0x5C 64)] := by decide

theorem test_clear : Pseudo.expand .clear = [.host (.bus 0x4C 0xE)] := by decide

/-- WAIT while BUSY gives the block agent its turn and polls again. -/
theorem test_wait :
    (nextOf (step { running .encode aaab 64 with inputs := Pseudo.expand .wait })).map State.inputs
      = some [.block, .env (.poll .status 1 0)] := by decide

/-! ## The block agent's step -/

/-- V-ENC1, and P1's end state. -/
theorem test_encode_aaab :
    (nextOf (completeCommand (running .encode aaab 64))).map
      (fun t => (t.statusWord, t.done, t.outLen, t.errInfo, t.mem.readBytes 0x2000 23))
      = some (0x00001002, true, 23, 0, aaabContainer) := by decide +kernel

/-- V-ENC15. -/
theorem test_encode_dst_full :
    (nextOf (completeCommand (running .encode aaab 22))).map (fun t => (t.statusWord, t.errInfo, t.outLen))
      = some (0x00001404, 23, 0) := by decide +kernel

/-- V-DEC1 of V-ENC1. -/
theorem test_decode_aaab :
    (nextOf (completeCommand (running .decode aaabContainer 64))).map
      (fun t => (t.statusWord, t.outLen, t.mem.readBytes 0x2000 4)) = some (0x00002002, 4, aaab) := by decide +kernel

/-- V-DEC19. -/
theorem test_decode_dst_full :
    (nextOf (completeCommand (running .decode aaabContainer 3))).map (fun t => (t.statusWord, t.errInfo))
      = some (0x00002404, 4) := by decide +kernel

/-- V-DEC12: a code with a shorter code as prefix is never emitted. -/
theorem test_decode_unterminated :
    (nextOf (completeCommand (running .decode
      [2, 0x78, 1, 0, 0, 0, 0, 0, 0, 0, 0, 0x79, 2, 0, 0, 0, 0, 0, 0, 0, 1, 0x40, 6] 64))).map
      (fun t => (t.statusWord, t.errInfo)) = some (0x00002C04, 1) := by decide +kernel

/-- V-CFG10 and R264: an ENCODE with every register at its reset value. -/
theorem test_encode_from_reset :
    (nextOf (completeCommand (startCommand .encode State.reset))).map (fun t => (t.statusWord, t.errInfo))
      = some (0x00001404, 2) := by decide +kernel

/-- V-RST2. -/
theorem test_reset_while_busy :
    (nextOf (applyEvent .reset (running .encode aaab 64))).map (fun t => (t.statusWord, t.outLen, t.mem.readBytes 0x1000 4))
      = some (0, 0, aaab) := by decide

/-- A byte of the destination window after an error is the free value of the error's draw (R229). -/
theorem test_destination_after_error (b : Byte) :
    ((raise .dstFull 23 { running .encode aaab 22 with mem := (Memory.unknown.write 0x2000 b) }).mem).read 0x2000
      = Config.freeByte 1 0x2000 := by
  simp only [raise, memoryAfterError]
  exact Memory.read_unspecify_inside _ _ _ (by decide)

/-! ## Witnesses: reset, decoding and the step -/

theorem witness_reset_idle : State.reset.phase = .idle := rfl

theorem witness_reset_busy :
    (running .encode aaab 64).phase = .busy ∧
    ¬((running .encode aaab 64).latched.dstAddr.toNat ≤ 0x1FFF ∧ 0x1FFF < 0x2000 + 64) ∧
    (running .encode aaab 64).latched.dstAddr.toNat ≤ 0x203F ∧
    0x203F < (running .encode aaab 64).latched.dstAddr.toNat + (running .encode aaab 64).latched.dstCap.toNat := by decide

theorem completed_aaab :
    ∃ t, completeCommand (running .encode aaab 64) = .next t ∧ t.done = true ∧ t.outLen = 23 := by
  obtain ⟨t, ht, hx⟩ := next_of_map test_encode_aaab
  exact ⟨t, ht, congrArg (fun x => x.2.1) hx, congrArg (fun x => x.2.2.1) hx⟩

theorem witness_step_invariant : ∃ t, Inv (running .encode aaab 64) ∧ step (running .encode aaab 64) = .next t := by
  obtain ⟨t, h, -⟩ := completed_aaab
  exact ⟨t, running_aaab_inv _ _, (step_nil_busy rfl rfl).trans h⟩

theorem witness_step_runs :
    (pending (.host (.command 1))).inputs = .host (.command 1) :: [] ∧ decode (.command 1) = .ok .encode ∧
    decodeTableWord 8 0x0C = some (.rd .status) := by decide

theorem witness_block_turn :
    (running .encode aaab 64).inputs = [] ∧ (running .encode aaab 64).phase = .busy ∧ State.reset.inputs = [] ∧
    State.reset.phase = .idle ∧ (pending .block).inputs = .block :: [] ∧ (pending .block).phase = .idle ∧
    ({ pending .block with phase := .busy }).phase = .busy := by decide

theorem witness_misaligned_descriptor :
    (pending (.host (.bus 0x51 0))).inputs = .host (.bus 0x51 0) :: [] ∧ (0x51#8).getLsbD 7 = false ∧
    (0x51#8).toNat % 4 ≠ 0 := by decide

/-- Offsets at the boundaries of the register window: 0x3C is the last register, 0x3D is misaligned, 0x40 is outside. -/
theorem witness_raw_access (off : Word) :
    (pending (.access (Config.regBase + off) 4 none)).inputs = .access (Config.regBase + off) 4 none :: [] ∧
    (0x3C#32).toNat < 64 ∧ (0x3C#32).toNat % 4 = 0 ∧ (0x3D#32).toNat < 64 ∧ (0x3D#32).toNat % 4 ≠ 0 ∧ 64 ≤ (0x40#32).toNat :=
  ⟨rfl, by decide⟩

theorem witness_encode_of_decode : decode (.bus 0x54 4) = .ok (.wr .srcLen 4) ∧ (Instr.illegal 7).wellFormed = true := by decide

/-! ## Witnesses: registers and commands -/

theorem witness_running_command :
    ∃ u, (running .encode aaab 64).phase = .busy ∧ completeCommand (running .encode aaab 64) = .next u ∧
      Inv (running .encode aaab 64) := by
  obtain ⟨t, h, -⟩ := next_of_map test_encode_aaab
  exact ⟨t, rfl, h, running_aaab_inv _ _⟩

theorem witness_read_write_register : (Reg.dstCap = .ctrl ∨ Reg.dstCap = .srcAddr ∨ Reg.dstCap = .srcLen ∨
    Reg.dstCap = .dstAddr ∨ Reg.dstCap = .dstCap) := by decide

theorem witness_nop_word : (0x00000010#32).extractLsb' 4 28 ≠ 0#28 := by decide

theorem witness_irq : ({ State.reset with ctrl := 1 }).phase = .idle ∧ ({ State.reset with ctrl := 1 }).ctrl.getLsbD 0 = true := by
  decide

/-! ## Witnesses: checks, errors and the end of a command -/

def withOperands (s : State) (srcAddr srcLen dstAddr dstCap : Word) : State :=
  { s with latched := { s.latched with srcAddr := srcAddr, srcLen := srcLen, dstAddr := dstAddr, dstCap := dstCap } }

/-- V-CFG2, V-CFG3, V-CFG6 and V-CFG5: one state for each clause. -/
theorem witness_config :
    (∀ a l d c, (withOperands (running .encode [] 0) a l d c).platform.sideEffects.any
      (touchesWindows (withOperands (running .encode [] 0) a l d c)) = false) ∧
    2 ^ 32 < (0xFFFFFFFF#32).toNat + (2#32).toNat ∧
    (¬ 2 ^ 32 < (0x1000#32).toNat + (4#32).toNat ∧ 2 ^ 32 < (0xFFFFFFF0#32).toNat + (0x11#32).toNat) ∧
    ((0x1000#32).toNat < (0x1010#32).toNat + (64#32).toNat ∧ (0x1010#32).toNat < (0x1000#32).toNat + (0x11#32).toNat) ∧
    ¬((0x1010#32).toNat < (0x1000#32).toNat + (0x10#32).toNat) :=
  ⟨fun _ _ _ _ => rfl, by decide⟩

/-- V-CFG5's shape: adjacent windows pass, the command completes and ERRCODE was not CONFIG before. -/
theorem witness_config_legal :
    ∃ t, completeCommand (withOperands (running .encode [] 0) 0x1000 0 0x1000 0) = .next t ∧
      (withOperands (running .encode [] 0) 0x1000 0 0x1000 0).errCode ≠ 0x2#4 ∧
      configCheck (withOperands (running .encode [] 0) 0x1000 0 0x1000 0).latched = none := by
  have h : (nextOf (completeCommand (withOperands (running .encode [] 0) 0x1000 0 0x1000 0))).map State.errInfo = some 2 := by
    decide +kernel
  obtain ⟨t, ht, -⟩ := next_of_map h
  exact ⟨t, ht, by decide, by decide⟩

/-- V-IO1. -/
def failingSource : State :=
  { running .encode aaab 64 with platform := { failing := [{ lo := 0x1002, hi := 0x1004 }], sideEffects := [] } }

theorem witness_failing_source :
    failingSource.platform.sideEffects.any (touchesWindows failingSource) = false ∧
    configCheck failingSource.latched = none ∧ failingSource.latched.srcAddr.toNat ≤ 0x1002 ∧
    0x1002 < failingSource.latched.srcAddr.toNat + failingSource.latched.srcLen.toNat ∧
    failingSource.platform.memOk 0x1002 = false ∧
    (∀ b, failingSource.latched.srcAddr.toNat ≤ b → b < 0x1002 → failingSource.platform.memOk b = true) := by
  refine ⟨by decide, by decide, by decide, by decide, by decide, fun b h1 h2 => ?_⟩
  have h1 : 0x1000 ≤ b := h1
  simp [failingSource, Platform.memOk, inSpans, Span.has]
  omega

theorem test_failing_source :
    (nextOf (completeCommand failingSource)).map (fun t => (t.statusWord, t.errInfo)) = some (0x00001304, 0x1002) := by
  decide +kernel

theorem witness_raise :
    CmdError.io ≠ .config ∧ CmdError.io ≠ .illegalCmd ∧ (CmdError.config = .config ∨ CmdError.config = .illegalCmd) := by decide

theorem witness_command_ends :
    Inv (running .encode aaab 64) ∧ (running .encode aaab 64).phase = .busy ∧
    (running .encode aaab 64).platform.sideEffects.any (touchesWindows (running .encode aaab 64)) = false :=
  ⟨running_aaab_inv _ _, rfl, rfl⟩

theorem witness_errors_of_encode :
    ∃ t, Inv (running .encode aaab 22) ∧ (running .encode aaab 22).phase = .busy ∧
      completeCommand (running .encode aaab 22) = .next t ∧ t.errInfo = 23 ∧ (running .encode aaab 22).latched.op = .encode := by
  obtain ⟨t, h, ht⟩ := next_of_map test_encode_dst_full
  exact ⟨t, running_aaab_inv _ _, rfl, h, congrArg (fun x => x.2.1) ht, rfl⟩

/-- DECODE of "aaab" itself, program P4 (b): FMT_TRUNCATED(4). -/
theorem witness_errors_of_decode :
    ∃ t, Inv (running .decode aaab 64) ∧ completeCommand (running .decode aaab 64) = .next t ∧ t.err = true ∧
      t.errCode = 0x7#4 ∧ (running .decode aaab 64).latched.op = .decode := by
  have h : (nextOf (completeCommand (running .decode aaab 64))).map (fun t => (t.err, t.errCode, t.errInfo)) =
      some (true, 0x7#4, 4) := by decide +kernel
  obtain ⟨t, ht, hx⟩ := next_of_map h
  exact ⟨t, running_aaab_inv _ _, ht, congrArg (fun x => x.1) hx, congrArg (fun x => x.2.1) hx, rfl⟩

theorem decode_aaab_stages :
    (decodeStages (running .decode aaabContainer 64).latched anyPlatform aaabContainer Work.reset).2 = .finish aaab := by
  decide +kernel

theorem encode_aaab_stages :
    (encodeStages (encodeOperands 64) anyPlatform aaab Work.reset).2 = .finish aaabContainer := by decide +kernel

theorem witness_success_of_decode :
    ∃ w, (running .decode aaabContainer 64).mem.wf = true ∧
      (running .decode aaabContainer 64).platform.sideEffects.any (touchesWindows (running .decode aaabContainer 64)) = false ∧
      configCheck (running .decode aaabContainer 64).latched = none ∧
      firstFailing (running .decode aaabContainer 64).platform (running .decode aaabContainer 64).latched.source = none ∧
      decodeStages (running .decode aaabContainer 64).latched (running .decode aaabContainer 64).platform
        (sourceBytes (running .decode aaabContainer 64)) (running .decode aaabContainer 64).work = (w, .finish aaab) := by
  refine ⟨_, by decide, rfl, by decide, by decide, Prod.ext rfl ?_⟩
  rw [show sourceBytes (running .decode aaabContainer 64) = aaabContainer by decide +kernel]
  exact decode_aaab_stages

/-- V-ENC15: an ENCODE whose stages end in DST_FULL(23). -/
theorem witness_error_of_encode_stages :
    ∃ w, (running .encode aaab 22).platform.sideEffects.any (touchesWindows (running .encode aaab 22)) = false ∧
      configCheck (running .encode aaab 22).latched = none ∧
      firstFailing (running .encode aaab 22).platform (running .encode aaab 22).latched.source = none ∧
      encodeStages (running .encode aaab 22).latched (running .encode aaab 22).platform
        (sourceBytes (running .encode aaab 22)) (running .encode aaab 22).work = (w, .raise .dstFull 23) :=
  ⟨_, rfl, by decide, by decide, Prod.ext rfl (by decide +kernel)⟩

/-- V-DEC9's container: a DECODE whose stages end in FMT_BAD_PADDING(8). -/
theorem witness_error_of_decode_stages :
    ∃ w, (running .decode [0x00, 0xAA, 0x08] 64).platform.sideEffects.any
        (touchesWindows (running .decode [0x00, 0xAA, 0x08] 64)) = false ∧
      configCheck (running .decode [0x00, 0xAA, 0x08] 64).latched = none ∧
      firstFailing (running .decode [0x00, 0xAA, 0x08] 64).platform (running .decode [0x00, 0xAA, 0x08] 64).latched.source = none ∧
      decodeStages (running .decode [0x00, 0xAA, 0x08] 64).latched (running .decode [0x00, 0xAA, 0x08] 64).platform
        (sourceBytes (running .decode [0x00, 0xAA, 0x08] 64)) (running .decode [0x00, 0xAA, 0x08] 64).work =
          (w, .raise .fmtBadPadding 8) :=
  ⟨_, rfl, by decide, by decide, Prod.ext rfl (by decide +kernel)⟩

/-! ## Witnesses: the encoder -/

theorem witness_encode_stages :
    ∃ w', encodeStages (encodeOperands 64) anyPlatform aaab Work.reset = (w', .finish aaabContainer) :=
  ⟨_, Prod.ext rfl encode_aaab_stages⟩

/-- V-EX1's tree: node 1 (b) and node 0 (a) under node 2. -/
theorem witness_tree :
    ([0x61, 0x62] : List Byte) ≠ [] ∧ ([0x61, 0x62] : List Byte)[1]? = some 0x62 ∧
    (buildTree (frequencies aaab) [0x61, 0x62]).1[2]? = some (.internal 0 1 4) ∧
    ([0x61, 0x62] : List Byte).length ≤ 2 ∧ 2 < 2 * ([0x61, 0x62] : List Byte).length - 1 ∧ aaab ≠ [] := by decide +kernel

theorem witness_extract_min :
    ([0, 1] : List Nat) ≠ [] ∧ extractMin [.leaf 0x61 3, .leaf 0x62 1] [0, 1] = some (1, [0]) := by decide

theorem witness_codes :
    ((([(0x61, [false]), (0x62, [true])] : List (Byte × List Bool)).map Prod.fst).Nodup) ∧
    ((0x62, [true]) : Byte × List Bool) ∈ [((0x61, [false]) : Byte × List Bool), (0x62, [true])] ∧
    (0x63 : Byte) ∉ ([0x61, 0x62] : List Byte) := by decide

/-- V-ENC3's alphabet of one symbol, and V-EX1's of two, whose codes are "0" for the left leaf and "1" for the right. -/
theorem witness_code_paths :
    alphabet (frequencies (List.replicate 4 0x78)) = [0x78] ∧ 2 ≤ (alphabet (frequencies aaab)).length ∧
    assignCodes (buildTree (frequencies aaab) [0x61, 0x62]).1 [2] [0x61, 0x62] = [(0x61, [false]), (0x62, [true])] := by
  decide +kernel

theorem witness_code_too_long :
    ∃ t, Inv (running .encode aaab 64) ∧ (running .encode aaab 64).phase = .busy ∧
      (running .encode aaab 64).latched.op = .encode ∧ completeCommand (running .encode aaab 64) = .next t ∧
      aaab.length < 2 ^ 32 ∧ 0x62 ∈ alphabet (frequencies aaab) := by
  obtain ⟨t, h, -⟩ := next_of_map test_encode_aaab
  exact ⟨t, running_aaab_inv _ _, rfl, rfl, h, by decide, by decide +kernel⟩

/-- V-ENC16's source: the 256 bytes 00 01 02 … FF. -/
def allBytes : List Byte := (List.range 256).map (BitVec.ofNat 8)

theorem mem_allBytes (b : Byte) : b ∈ allBytes :=
  List.mem_map.mpr ⟨b.toNat, List.mem_range.mpr b.isLt, by simp⟩

/-- V-ENC16. -/
def fullAlphabet : State :=
  { running .encode [] 64 with
    latched := { (running .encode [] 64).latched with srcLen := 256 }
    mem := { cells := (List.range' 1 255).map (fun i => (0x1000 + i, BitVec.ofNat 8 i)), free := [] } }

theorem sourceBytes_fullAlphabet : sourceBytes fullAlphabet = allBytes := by decide +kernel

theorem witness_full_alphabet :
    fullAlphabet.latched.op = .encode ∧ fullAlphabet.latched.wrap256 = false ∧
    fullAlphabet.platform.sideEffects.any (touchesWindows fullAlphabet) = false ∧ configCheck fullAlphabet.latched = none ∧
    firstFailing fullAlphabet.platform fullAlphabet.latched.source = none ∧ (∀ b : Byte, b ∈ sourceBytes fullAlphabet) :=
  ⟨rfl, rfl, rfl, by decide, by decide, fun b => by rw [sourceBytes_fullAlphabet]; exact mem_allBytes b⟩

/-- V-ENC4 and V-CFG8's capacity. -/
theorem witness_empty_source :
    (running .encode [] 2).mem.wf = true ∧ (running .encode [] 2).latched.op = .encode ∧
    (running .encode [] 2).latched.srcLen = 0 ∧ 2 ≤ (running .encode [] 2).latched.dstCap.toNat ∧
    (running .encode [] 2).latched.dstAddr.toNat + (running .encode [] 2).latched.dstCap.toNat ≤ 2 ^ 32 ∧
    (running .encode [] 2).platform.memOk (running .encode [] 2).latched.dstAddr.toNat = true ∧
    (running .encode [] 2).platform.memOk ((running .encode [] 2).latched.dstAddr.toNat + 1) = true ∧
    (running .encode [] 2).platform.sideEffects.any (touchesWindows (running .encode [] 2)) = false := by decide

/-- V-ENC3. -/
theorem witness_single_symbol :
    ∃ w', encodeStages (encodeOperands 64) anyPlatform (List.replicate 4 0x78) Work.reset =
      (w', .finish [1, 0x78, 1, 0, 0, 0, 0, 0, 0, 0, 0, 0, 4]) :=
  ⟨_, Prod.ext rfl (by decide +kernel)⟩

/-- The destination's lowest failing byte is 0x2010. -/
def failingDestination : Platform := { failing := [{ lo := 0x2010, hi := 0x3000 }], sideEffects := [] }

/-- One input for each clause: V-ENC15, whose 23 bytes do not fit 22; a failing destination byte; and memory that answers. -/
theorem witness_required_length :
    let freq := frequencies aaab
    let A := alphabet freq
    let W := buildCodebook freq A { Work.reset with freq := freq }
    let N := 2 + 10 * A.length + ((A.map (fun s => freq.getD s.toNat 0 * W.cbLen.getD s.toNat 0)).sum + 7) / 8
    A.length ≠ 256 ∧ (∀ s ∈ A, W.cbLen.getD s.toNat 0 ≤ 64) ∧ (encodeOperands 22).dstCap.toNat < N ∧
      N ≤ (encodeOperands 23).dstCap.toNat ∧ (encodeOperands 23).dstAddr.toNat ≤ 0x2010 ∧
      0x2010 < (encodeOperands 23).dstAddr.toNat + N ∧ failingDestination.memOk 0x2010 = false := by decide +kernel

theorem witness_required_length_answers :
    (∀ b, 0x2000 ≤ b → b < 0x2010 → failingDestination.memOk b = true) ∧ (∀ a, anyPlatform.memOk a = true) := by
  refine ⟨fun b h1 h2 => ?_, fun _ => rfl⟩
  simp [failingDestination, Platform.memOk, inSpans, Span.has]
  omega

/-- V-IO2's shape: an ENCODE that fits, with a failing destination byte. -/
theorem test_failing_destination :
    (encodeStages (encodeOperands 23) failingDestination aaab Work.reset).2 = .raise .io 0x2010 := by decide +kernel

theorem witness_codebook_entry :
    1 ≤ entry (codeLengths [(0x62, [true])]) 0x62 ∧ entry (codeLengths [(0x62, [true])]) 0x62 ≤ 64 ∧
    entry (codeValues [(0x62, [true])]) 0x62 < 2 ^ entry (codeLengths [(0x62, [true])]) 0x62 := by decide +kernel

/-! ## Witnesses: the decoder -/

/-- V-DEC2 and V-DEC4. -/
theorem witness_truncated :
    ([0x00] : List Byte).length < 2 ∧
    ([0x01, 0x41, 0x01, 0x00] : List Byte).length < 2 + 10 * (([0x01, 0x41, 0x01, 0x00] : List Byte).getD 0 0).toNat := by decide

/-- V-DEC5 and V-DEC7: a bad length in entry 0 and a collision in entry 1. -/
theorem witness_deserialize_errors :
    deserialize false 1 0 [0x41, 0x41, 0, 0, 0, 0, 0, 0, 0, 0] [] = ([], some (.fmtBadLength, 2)) ∧
    deserialize false 2 0 [0x61, 1, 0, 0, 0, 0, 0, 0, 0, 0, 0x62, 1, 0, 0, 0, 0, 0, 0, 0, 0] [] =
      ([{ len := 1, val := 0, sym := 0x61 }], some (.fmtCollision, 11)) ∧
    rmapFind [{ len := 1, val := 0, sym := 0x61 }] 1 0 = some 0x61 ∧ (0x61 : Byte) ≠ 0x62 := by decide +kernel

theorem witness_deserialize :
    deserialize false 2 0 (aaabContainer.drop 1) [] =
      ([{ len := 1, val := 0, sym := 0x61 }, { len := 1, val := 1, sym := 0x62 }], none) := by decide +kernel

/-- The last codebook entry repeats a code with another symbol, and a header that promises it: DECODE ends in its error. -/
theorem witness_decode_codebook_error :
    2 + 10 * (([0x02, 0x61, 1, 0, 0, 0, 0, 0, 0, 0, 0, 0x62, 1, 0, 0, 0, 0, 0, 0, 0, 0, 0x00] : List Byte).getD 0 0).toNat ≤
      ([0x02, 0x61, 1, 0, 0, 0, 0, 0, 0, 0, 0, 0x62, 1, 0, 0, 0, 0, 0, 0, 0, 0, 0x00] : List Byte).length ∧
    (deserialize (encodeOperands 64).blkle 2 0 [0x61, 1, 0, 0, 0, 0, 0, 0, 0, 0, 0x62, 1, 0, 0, 0, 0, 0, 0, 0, 0, 0x00] []).2 =
      some (.fmtCollision, 11) := by decide +kernel

/-- V-DEC9 and V-DEC8: a count above 7, and one above the bit count of an empty payload; and V-DEC1's container, whose count 4 is
legal for its one payload byte. -/
theorem witness_bad_padding :
    (∀ C ∈ ([[0x00, 0xAA, 0x08], [0x00, 0x03], aaabContainer] : List (List Byte)),
      2 + 10 * (C.getD 0 0).toNat ≤ C.length ∧
      (deserialize (encodeOperands 64).blkle (C.getD 0 0).toNat 0 (C.drop 1) []).2 = none) ∧
    7 < (([0x00, 0xAA, 0x08] : List Byte).getD 2 0).toNat ∧
    8 * (([0x00, 0x03] : List Byte).length - 2 - 10 * 0) < (([0x00, 0x03] : List Byte).getD 1 0).toNat ∧
    (aaabContainer.getD (aaabContainer.length - 1) 0).toNat ≤ 7 ∧
    (aaabContainer.getD (aaabContainer.length - 1) 0).toNat ≤ 8 * (aaabContainer.length - 2 - 10 * 2) := by decide +kernel

/-- The reverse map of V-EX1. -/
def aaabMap : List RevEntry := [{ len := 1, val := 0, sym := 0x61 }, { len := 1, val := 1, sym := 0x62 }]

/-- Each clause of the walk step: a full candidate, a bit that matches nothing, a match at the capacity, a match at a failing
address and a match that is emitted; and a walk's end inside a code. -/
theorem witness_walk_step :
    ({ Walk.start with candLen := 64 }).candLen = 64 ∧
    Walk.start.candLen ≠ 64 ∧ rmapFind [] (Walk.start.candLen + 1) (2 * Walk.start.candVal + true.toNat) = none ∧
    rmapFind aaabMap (Walk.start.candLen + 1) (2 * Walk.start.candVal + true.toNat) = some 0x62 ∧
    ({ Walk.start with outCnt := 3 }).outCnt = (encodeOperands 3).dstCap.toNat ∧
    Walk.start.outCnt ≠ (encodeOperands 3).dstCap.toNat ∧
    ({ failing := [{ lo := 0x2000, hi := 0x2001 }], sideEffects := [] } : Platform).memOk
      ((encodeOperands 3).dstAddr.toNat + Walk.start.outCnt) = false ∧
    anyPlatform.memOk ((encodeOperands 3).dstAddr.toNat + Walk.start.outCnt) = true := by decide

/-- Zero bits under a map that holds only the code "1": none of their prefixes is a code; 65 bits are the first that overrun, and 64
the last that do not. -/
theorem witness_unmatched :
    Walk.start.candLen = 0 ∧ Walk.start.candVal = 0 ∧
    (∀ j, j ≤ 64 → 1 ≤ j → rmapFind [{ len := 1, val := 1, sym := 0x62 }] j (bitsVal ((List.replicate 65 false).take j)) = none ∧
      rmapFind [{ len := 1, val := 1, sym := 0x62 }] j (bitsVal ((List.replicate 64 false).take j)) = none) ∧
    64 < (List.replicate 65 false).length ∧ List.replicate 64 false ≠ [] ∧ (List.replicate 64 false).length ≤ 64 := by
  decide +kernel

theorem witness_legacy : ∀ b : Byte, b ∈ allBytes := mem_allBytes

def decodeOperands : Latched :=
  { op := .decode, srcAddr := 0x2000, srcLen := 23, dstAddr := 0x3000, dstCap := 4, blkle := false, wrap256 := false }

/-- The ENCODE of V-ENC1 and the DECODE of the container it wrote meet every hypothesis of the round trip. -/
theorem witness_round_trip :
    ∃ s t u : State, s.mem.wf = true ∧ s.latched.op = .encode ∧ s.done = false ∧ completeCommand s = .next t ∧
      t.done = true ∧ s.latched.wrap256 = false ∧ u.latched.op = .decode ∧ u.mem = t.mem ∧
      u.latched.srcAddr = s.latched.dstAddr ∧ u.latched.srcLen = t.outLen ∧ u.latched.blkle = s.latched.blkle ∧
      s.latched.srcLen.toNat ≤ u.latched.dstCap.toNat ∧ configCheck u.latched = none ∧
      firstFailing u.platform u.latched.source = none ∧
      (∀ a, u.latched.dstAddr.toNat ≤ a → a < u.latched.dstAddr.toNat + s.latched.srcLen.toNat → u.platform.memOk a = true) ∧
      u.platform.sideEffects.any (touchesWindows u) = false := by
  obtain ⟨t, ht, hd, hl⟩ := completed_aaab
  refine ⟨running .encode aaab 64, t,
    { t with latched := decodeOperands, platform := anyPlatform },
    by decide, rfl, rfl, ht, hd, rfl, rfl, rfl, rfl, hl.symm, rfl,
    show 4 ≤ decodeOperands.dstCap.toNat by decide, show configCheck decodeOperands = none by decide,
    show firstFailing anyPlatform decodeOperands.source = none by decide, fun _ _ _ => rfl, rfl⟩

/-! ## Witnesses: the agents around the block -/

/-- The windows of the running ENCODE of "aaab": 0x1000 to 0x1003 and 0x2000 to 0x203F. -/
def aaabDuty : Duty := (encodeOperands 64).duty

theorem aaabDuty_windows :
    aaabDuty = { source := { lo := 0x1000, hi := 0x1004 }, destination := { lo := 0x2000, hi := 0x2040 } } := by decide

/-- Memory with side effects on the window `v`. -/
def withDevice (s : State) (v : Span) : State := { s with platform := { failing := [], sideEffects := [v] } }

/-- A write that ends at the top of the address space with no duty in force, writes that end below and begin above a window while
duties are in force, and bytes a host read returns: the last below the destination window and the first above it. -/
theorem witness_host_write :
    State.reset.mem.wf = true ∧ State.reset.duties = [] ∧ 0xFFFFFFFC + aaab.length ≤ 2 ^ 32 ∧
    (running .encode aaab 64).mem.wf = true ∧ (running .encode aaab 64).duties = [aaabDuty] ∧
    (∀ addr ∈ [0xFFC, 0x1004, 0x1FFC, 0x2040], ∀ a, addr ≤ a → a < addr + aaab.length →
      ¬(aaabDuty.source.lo ≤ a ∧ a < aaabDuty.source.hi) ∧
      ¬(aaabDuty.destination.lo ≤ a ∧ a < aaabDuty.destination.hi)) ∧
    (∀ a ∈ [0x1FFF, 0x2040], ¬(aaabDuty.destination.lo ≤ a ∧ a < aaabDuty.destination.hi)) ∧
    (running .encode aaab 64).platform.sideEffects = [] := by
  refine ⟨by decide, rfl, by decide, by decide, rfl, ?_, by decide, rfl⟩
  rw [aaabDuty_windows]
  intro addr h a h1 h2
  simp only [List.mem_cons, List.not_mem_nil, or_false, aaab, List.length_cons, List.length_nil] at *
  omega

/-- The first and the last byte of each window of a running command; `memOk` true there, and false where the platform fails. -/
theorem witness_breach :
    aaabDuty ∈ (running .encode aaab 64).duties ∧ aaabDuty = (running .encode aaab 64).latched.duty ∧
    (∀ a ∈ [0x1000, 0x1003], aaabDuty.source.lo ≤ a ∧ a < aaabDuty.source.hi ∧ a < 2 ^ 32) ∧
    (∀ a ∈ [0x2000, 0x203F], aaabDuty.destination.lo ≤ a ∧ a < aaabDuty.destination.hi ∧ a < 2 ^ 32) ∧
    (running .encode aaab 64).platform.memOk 0x1003 = true ∧
    (aaabDuty ∈ failingSource.duties ∧ failingSource.platform.memOk 0x1003 = false) ∧
    aaabDuty ∈ (withDevice (running .encode aaab 64) aaabDuty.destination).duties ∧
    aaabDuty = (withDevice (running .encode aaab 64) aaabDuty.destination).latched.duty ∧
    (∃ u ∈ (withDevice (running .encode aaab 64) aaabDuty.destination).platform.sideEffects, u.lo ≤ 0x203F ∧ 0x203F < u.hi) := by
  decide

/-- A host write into the source window of a running command. -/
theorem test_breach : faultOf (applyEvent (.memWrite 0x1003 [0]) (running .encode aaab 64)) = some .hostDutyWrite := by decide

/-- A window that lies on memory with side effects, made plain while the command runs: it was no idempotent memory at the start. -/
theorem test_plain_is_a_breach :
    faultOf (applyEvent (.platform (.plain { lo := 0x203F, hi := 0x2040 }))
      (withDevice (running .encode aaab 64) aaabDuty.destination)) = some .hostDutySideEffects := by decide

/-- Memory that stops having side effects holds a free value, whatever was written before (log entry 21). -/
theorem test_plain_memory_is_unspecified (m : Memory) :
    ((becomePlain { lo := 0, hi := 8 } (withDevice { State.reset with mem := m } { lo := 4, hi := 12 })).mem).read 7
      = Config.freeByte 1 7 :=
  Memory.read_unspecifyAll m 1 _ (by decide)

/-- A second command, started before the host saw the first one's end, leaves the duties on the first one's windows. -/
theorem test_second_command_keeps_the_duties :
    (nextOf (exec .encode { running .encode aaab 64 with phase := .idle })).map State.duties
      = some [Latched.reset.duty, aaabDuty] := by decide

theorem witness_memOk_change : State.reset.duties = [] ∧ 0xFFFFFFFF < 2 ^ 32 := by decide

/-- A running command with an act of the host and one of the block pending. -/
theorem witness_command_completes :
    ∃ s : State, Inv s ∧ s.phase = .busy ∧ s.inputs = [.host (.command 0), .block] ∧
      s.platform.sideEffects.any (touchesWindows s) = false :=
  let i := running_aaab_inv .encode 64
  ⟨{ running .encode aaab 64 with inputs := [.host (.command 0), .block] },
    { status := { noErr := i.status.noErr, errCodeRange := i.status.errCodeRange, notBoth := i.status.notBoth
                  errLen := i.status.errLen, lenInWindow := i.status.lenInWindow }
      busy := { flags := i.busy.flags, registers := i.busy.registers, lastOp := i.busy.lastOp, duties := i.busy.duties }
      memory := { canonical := i.memory.canonical, drawsFresh := i.memory.drawsFresh }
      failing := i.failing, sideEffects := i.sideEffects }, rfl, rfl, rfl⟩

end Sys2Proof.Tests
end

section
/-! ## The walk's bounds and what the decoder's result depends on

The walk registers stay in the bounds of R46 (O52), and DECODE depends neither on WRAP256 nor on old working state (O55). -/

namespace Sys2Proof.Machine

/-- What every step of the walk keeps (R46, R195): OUTCNT counts the emitted bytes and stays within the capacity, and the candidate
has at most 64 bits, which hold its value. -/
structure WalkInv (l : Latched) (w : Walk) : Prop where
  counts : w.outCnt = w.emitted.length
  inCapacity : w.outCnt ≤ l.dstCap.toNat
  candLen : w.candLen ≤ 64
  candVal : w.candVal < 2 ^ w.candLen

theorem WalkInv.start (l : Latched) : WalkInv l Walk.start where
  counts := rfl
  inCapacity := Nat.zero_le _
  candLen := Nat.zero_le _
  candVal := Nat.one_pos

/-- A bit joins a candidate that has fewer than 64. -/
theorem WalkInv.extend {l : Latched} {w : Walk} (h : WalkInv l w) (b : Bool) (hlen : w.candLen ≠ 64) :
    WalkInv l { w with candVal := 2 * w.candVal + b.toNat, candLen := w.candLen + 1 } where
  counts := h.counts
  inCapacity := h.inCapacity
  candLen := by have := h.candLen; dsimp only; omega
  candVal := by
    have hv := h.candVal
    have hb := Bool.toNat_lt b
    dsimp only
    rw [Nat.pow_succ]
    omega

theorem emitSymbol_walkInv {l : Latched} {w : Walk} (p : Platform) (s : Byte) (h : WalkInv l w) :
    WalkInv l (emitSymbol l p s w).1 := by
  rcases emitSymbol_cases l p s w with ⟨-, he⟩ | ⟨-, -, he⟩ | ⟨hcap, -, he⟩
  · rw [he]; exact h
  · rw [he]; exact h
  · rw [he]
    exact { counts := by simp [h.counts], inCapacity := by have := h.inCapacity; dsimp only; omega
            candLen := Nat.zero_le _, candVal := Nat.one_pos }

theorem walkStep_walkInv {l : Latched} {w : Walk} (p : Platform) (m : List RevEntry) (i : Nat) (b : Bool) (h : WalkInv l w) :
    WalkInv l (walkStep l p m i b w).1 := by
  rcases walkStep_cases l p m i b w with ⟨-, hs⟩ | ⟨hlen, -, hs⟩ | ⟨hlen, s, -, hs⟩
  · rw [hs]; exact h
  · rw [hs]; exact h.extend b hlen
  · rw [hs]; exact emitSymbol_walkInv p s (h.extend b hlen)

theorem walkBits_walkInv {l : Latched} {w : Walk} (p : Platform) (m : List RevEntry) (i : Nat) (T : List Bool) (h : WalkInv l w) :
    WalkInv l (walkBits l p m i T w).1 :=
  walkBits_induction (P := WalkInv l) (fun i b _ hw => walkStep_walkInv p m i b hw) h

theorem walkStep_outCnt_le (l : Latched) (p : Platform) (m : List RevEntry) (i : Nat) (b : Bool) (w : Walk) :
    (walkStep l p m i b w).1.outCnt ≤ w.outCnt + 1 := by
  rcases walkStep_cases l p m i b w with ⟨-, hs⟩ | ⟨-, -, hs⟩ | ⟨-, s, -, hs⟩
  · rw [hs]; exact Nat.le_succ _
  · rw [hs]; exact Nat.le_succ _
  · rw [hs]
    rcases emitSymbol_cases l p s { w with candVal := 2 * w.candVal + b.toNat, candLen := w.candLen + 1 }
      with ⟨-, he⟩ | ⟨-, -, he⟩ | ⟨-, -, he⟩
    · rw [he]; exact Nat.le_succ _
    · rw [he]; exact Nat.le_succ _
    · rw [he]

/-- The walk emits at most one byte a bit (R195). -/
theorem walkBits_outCnt_le (l : Latched) (p : Platform) (m : List RevEntry) (i : Nat) (T : List Bool) (w : Walk) :
    (walkBits l p m i T w).1.outCnt ≤ w.outCnt + T.length := by
  induction T generalizing i w with
  | nil => exact Nat.le_refl _
  | cons b T ih =>
    have hstep := walkStep_outCnt_le l p m i b w
    rw [List.length_cons]
    cases hw : walkStep l p m i b w with
    | mk w' r =>
      rw [hw] at hstep
      dsimp only at hstep
      cases r with
      | none =>
        rw [walkBits_cons_of_none hw]
        have := ih (i + 1) w'
        omega
      | some e =>
        rw [walkBits_cons_of_some hw]
        dsimp only
        omega

/-- A DECODE that succeeds writes no more bytes than its destination holds (R70, R192). -/
theorem decodeStages_finish_length {l : Latched} {p : Platform} {C : List Byte} {w w' : Work} {out : List Byte}
    (h : decodeStages l p C w = (w', .finish out)) : out.length ≤ l.dstCap.toNat := by
  obtain ⟨-, -, -, rfl⟩ := decodeStages_finish h
  have hw := walkBits_walkInv p (deserialize l.blkle (C.getD 0 0).toNat 0 (C.drop 1) []).1 0
    (payloadToBits (C.drop (1 + 10 * (C.getD 0 0).toNat)).dropLast ((C.drop (1 + 10 * (C.getD 0 0).toNat)).getLastD 0).toNat)
    (WalkInv.start l)
  rw [List.length_reverse, ← hw.counts]
  exact hw.inCapacity

/-! ### What the decoder reads -/

/-- The walk does not look at WRAP256 (R181). -/
theorem walkBits_wrap256 (l : Latched) (b : Bool) (p : Platform) (m : List RevEntry) (i : Nat) (T : List Bool) (w : Walk) :
    walkBits { l with wrap256 := b } p m i T w = walkBits l p m i T w := by
  induction T generalizing i w with
  | nil => rfl
  | cons c T ih =>
    have hstep : walkStep { l with wrap256 := b } p m i c w = walkStep l p m i c w := rfl
    cases hw : walkStep l p m i c w with
    | mk w' r =>
      cases r with
      | none => rw [walkBits_cons_of_none hw, walkBits_cons_of_none (hstep.trans hw), ih]
      | some e => rw [walkBits_cons_of_some hw, walkBits_cons_of_some (hstep.trans hw)]

/-- How the payload stages end depends neither on WRAP256 nor on the working state they start from (R47, R181). -/
theorem expandPayload_end_congr (l : Latched) (b : Bool) (p : Platform) (m : List RevEntry) (tail : List Byte) (w w' : Work) :
    (expandPayload { l with wrap256 := b } p m tail w).2 = (expandPayload l p m tail w').2 := by
  dsimp only [expandPayload]
  rw [walkBits_wrap256]
  split
  · rfl
  · cases (walkBits l p m 0 (payloadToBits tail.dropLast (tail.getLastD 0).toNat) Walk.start).2 <;> rfl

/-- How DECODE's stages end depends neither on WRAP256 nor on the working state they start from (R47, R181). -/
theorem decodeStages_end_congr (l : Latched) (b : Bool) (p : Platform) (C : List Byte) (w w' : Work) :
    (decodeStages { l with wrap256 := b } p C w).2 = (decodeStages l p C w').2 := by
  dsimp only [decodeStages]
  split
  · rfl
  · split
    · rfl
    · cases (deserialize l.blkle (C.getD 0 0).toNat 0 (C.drop 1) []).2 with
      | some e => rfl
      | none => exact expandPayload_end_congr l b p _ _ _ _

end Sys2Proof.Machine

open Sys2Proof Sys2Proof.Machine

/-- Settles O52, from the invariant `WalkInv` of the walk and the bound of one emitted byte a bit. -/
theorem walkStaysInItsBounds : Obligations.WalkStaysInItsBounds := by
  intro l p m T r
  have h := walkBits_walkInv p m 0 T (WalkInv.start l)
  have hbits : r.1.outCnt ≤ 0 + T.length := walkBits_outCnt_le l p m 0 T Walk.start
  exact ⟨h.counts, by omega, h.inCapacity, h.candLen, h.candVal⟩

/-- Settles O55: neither the walk nor the codebook stage reads WRAP256, and every stage overwrites the working state it uses. -/
theorem decodeIgnoresWrap256AndOldWork : Obligations.DecodeIgnoresWrap256AndOldWork :=
  fun l p C w w' b => decodeStages_end_congr l b p C w w'

end

section
/-! ## The machine's invariant

The invariant of Sys2Proof/Safety.lean holds after reset (O3) and every step keeps it (O4); what reset leaves (O1). -/

namespace Sys2Proof.Machine

/-! ### The fields the invariant does not read -/

theorem StatusInv.congr {s t : State} (h : StatusInv s) (hdone : t.done = s.done) (herr : t.err = s.err)
    (hcode : t.errCode = s.errCode) (hout : t.outLen = s.outLen) (hlatched : t.latched = s.latched) : StatusInv t where
  noErr := by rw [herr, hcode]; exact h.noErr
  errCodeRange := by rw [herr, hcode]; exact h.errCodeRange
  notBoth := by rw [hdone, herr]; exact h.notBoth
  errLen := by rw [herr, hout]; exact h.errLen
  lenInWindow := by rw [hout, hlatched]; exact h.lenInWindow

theorem BusyInv.congr {s t : State} (h : BusyInv s) (hphase : t.phase = s.phase) (hdone : t.done = s.done)
    (herr : t.err = s.err) (hout : t.outLen = s.outLen) (hinfo : t.errInfo = s.errInfo) (hop : t.lastOp = s.lastOp)
    (hlatched : t.latched = s.latched) (hduties : s.phase = .busy → t.duties = s.duties) : BusyInv t where
  flags := by rw [hphase, hdone, herr]; exact h.flags
  registers := by rw [hphase, hout, hinfo]; exact h.registers
  lastOp := by rw [hphase, hop, hlatched]; exact h.lastOp
  duties := by rw [hphase, hlatched]; exact fun hp => hduties hp ▸ h.duties hp

/-- The registers the host may write at any time, the pending acts and what the host has received are no part of the invariant. -/
theorem Inv.with_unconstrained {s : State} (h : Inv s) (ctrl : BitVec 3) (srcAddr srcLen dstAddr dstCap : Word) (cmdOvr : Bool)
    (inputs : List Input) (hostData : Word) (hostIrq : Bool) :
    Inv { s with
      ctrl := ctrl, srcAddr := srcAddr, srcLen := srcLen, dstAddr := dstAddr, dstCap := dstCap, cmdOvr := cmdOvr,
      inputs := inputs, hostData := hostData, hostIrq := hostIrq } where
  status := h.status.congr rfl rfl rfl rfl rfl
  busy := h.busy.congr rfl rfl rfl rfl rfl rfl rfl fun _ => rfl
  memory := { canonical := h.memory.canonical, drawsFresh := h.memory.drawsFresh }
  failing := h.failing
  sideEffects := h.sideEffects

/-- Memory may change, as long as it keeps its canonical form and its draws are older than the counter. -/
theorem Inv.with_memory {s : State} (h : Inv s) (hostBytes : List Byte) {mem : Memory} {draws : Nat} (hwf : mem.wf = true)
    (hfree : ∀ f ∈ mem.free, f.draw < draws) :
    Inv { s with mem := mem, draws := draws, hostBytes := hostBytes } where
  status := h.status.congr rfl rfl rfl rfl rfl
  busy := h.busy.congr rfl rfl rfl rfl rfl rfl rfl fun _ => rfl
  memory := { canonical := hwf, drawsFresh := hfree }
  failing := h.failing
  sideEffects := h.sideEffects

/-- The platform may change, as long as its spans stay well formed. -/
theorem Inv.with_platform {s : State} (h : Inv s) {p : Platform} (hf : spansWf p.failing = true)
    (hs : spansWf p.sideEffects = true) : Inv { s with platform := p } where
  status := h.status.congr rfl rfl rfl rfl rfl
  busy := h.busy.congr rfl rfl rfl rfl rfl rfl rfl fun _ => rfl
  memory := { canonical := h.memory.canonical, drawsFresh := h.memory.drawsFresh }
  failing := hf
  sideEffects := hs

/-- The end of the host's duties keeps the invariant: they end only while no command runs (R74, R270). -/
theorem observeEnd_inv {s : State} (h : Inv s) : Inv (observeEnd s) where
  status := h.status.congr rfl rfl rfl rfl rfl
  busy := h.busy.congr rfl rfl rfl rfl rfl rfl rfl fun hp => if_pos ((busy_eq_true_iff s).mpr hp)
  memory := { canonical := h.memory.canonical, drawsFresh := h.memory.drawsFresh }
  failing := h.failing
  sideEffects := h.sideEffects

/-! ### Commands -/

theorem dropCommand_inv {s : State} (h : Inv s) : Inv (dropCommand s) := h.with_unconstrained ..

/-- A command's start brings the clauses about a running command into force (R116). -/
theorem startCommand_inv {s : State} (h : Inv s) (op : Op) : Inv (startCommand op s) where
  status :=
    { noErr := fun _ => rfl
      errCodeRange := fun he => by simp at he
      notBoth := by simp
      errLen := fun _ => rfl
      lenInWindow := by simp }
  busy :=
    { flags := fun _ => ⟨rfl, rfl⟩
      registers := fun _ => ⟨rfl, rfl⟩
      lastOp := fun _ => by cases op <;> rfl
      duties := fun _ => List.mem_cons_self }
  memory := { canonical := h.memory.canonical, drawsFresh := h.memory.drawsFresh }
  failing := h.failing
  sideEffects := h.sideEffects

/-- An illegal word written while IDLE keeps the invariant (R117). -/
theorem illegalCommand_inv {s : State} (h : Inv s) (hp : s.phase = .idle) (w : Word) : Inv (illegalCommand w s) where
  status :=
    { noErr := fun he => by simp at he
      errCodeRange := fun _ => by simp
      notBoth := by simp
      errLen := fun _ => rfl
      lenInWindow := by simp }
  busy :=
    { flags := fun hb => by simp [hp] at hb
      registers := fun hb => by simp [hp] at hb
      lastOp := fun hb => by simp [hp] at hb
      duties := fun hb => by simp [hp] at hb }
  memory := { canonical := h.memory.canonical, drawsFresh := h.memory.drawsFresh }
  failing := h.failing
  sideEffects := h.sideEffects

theorem issue_inv {s : State} (h : Inv s) (w : Word) : Inv (issue w s) := by
  rcases issue_cases w s with ⟨-, hi⟩ | ⟨-, -, hi⟩ | ⟨-, -, hi⟩ | ⟨-, -, hi⟩ | ⟨hp, -, -, -, hi⟩ <;> rw [hi]
  · exact dropCommand_inv h
  · exact h
  · exact startCommand_inv h _
  · exact startCommand_inv h _
  · exact illegalCommand_inv h hp w

/-! ### Register accesses -/

/-- The write-1-to-clear keeps the flags in agreement (R25). -/
theorem clearStatus_inv {s : State} (h : Inv s) (w : Word) : Inv (clearStatus w s) := by
  rw [clearStatus_eq]
  refine
    { status :=
        { noErr := fun he => ?_
          errCodeRange := fun he => ?_
          notBoth := fun hb => h.status.notBoth ?_
          errLen := fun he => h.status.errLen ?_
          lenInWindow := h.status.lenInWindow }
      busy :=
        { flags := fun hp => ?_, registers := h.busy.registers, lastOp := h.busy.lastOp, duties := h.busy.duties }
      memory := { canonical := h.memory.canonical, drawsFresh := h.memory.drawsFresh }
      failing := h.failing
      sideEffects := h.sideEffects }
  · cases hw : w.getLsbD 2
    · exact h.status.noErr (by simpa only [hw, Bool.not_false, Bool.and_true] using he)
    · rfl
  · simp only [Bool.and_eq_true, Bool.not_eq_true'] at he
    dsimp only
    rw [he.2]
    exact h.status.errCodeRange he.1
  · simp only [Bool.and_eq_true] at hb
    exact ⟨hb.1.1, hb.2.1⟩
  · simp only [Bool.and_eq_true] at he
    exact he.1
  · obtain ⟨hd, he⟩ := h.busy.flags hp
    simp [hd, he]

theorem hostRead_inv {s : State} (h : Inv s) (r : Reg) : Inv (hostRead r s) := by
  have hdata : Inv { s with hostData := readReg r s } := h.with_unconstrained ..
  cases r with
  | status => exact observeEnd_inv hdata
  | _ => exact hdata

theorem writeReg_inv {s : State} (h : Inv s) (r : Reg) (w : Word) : Inv (writeReg r w s) := by
  cases r with
  | cmd => exact issue_inv h w
  | status => exact clearStatus_inv h w
  | _ => exact h.with_unconstrained ..

/-- Every instruction keeps the invariant. -/
theorem afterInstr_inv {s : State} (h : Inv s) (i : Instr) : Inv (afterInstr i s) := by
  have hcmd (t : State) (ht : s.phase = .idle → Inv t) : Inv (if s.phase = .busy then dropCommand s else t) := by
    rcases s.idle_or_busy with hp | hp
    · simpa [hp] using ht hp
    · simpa [hp] using dropCommand_inv h
  cases i with
  | nop => exact hcmd s fun _ => h
  | encode => exact hcmd _ fun _ => startCommand_inv h _
  | decode => exact hcmd _ fun _ => startCommand_inv h _
  | illegal w => exact hcmd _ fun hp => illegalCommand_inv h hp w
  | rd r => exact hostRead_inv h r
  | wr r w => exact writeReg_inv h r w

/-! ### The completion step -/

/-- The output of a command that succeeds fits its destination (R70). -/
theorem stagesOf_finish_length {op : Op} {l : Latched} {p : Platform} {src : List Byte} {w w' : Work} {out : List Byte}
    (h : stagesOf op l p src w = (w', .finish out)) : out.length ≤ l.dstCap.toNat := by
  cases op with
  | encode =>
    obtain ⟨-, -, -, -, hlen, -⟩ := encodeStages_finish h
    exact hlen
  | decode => exact decodeStages_finish_length h

/-- The completion step of a running command keeps the invariant (R121, R122). -/
theorem completeCommand_inv {s t : State} (h : Inv s) (hp : s.phase = .busy) (ht : completeCommand s = .next t) : Inv t := by
  obtain ⟨hdone, herr⟩ := h.busy.flags hp
  rcases completeCommand_cases s with ⟨-, hc⟩ | ⟨-, e, info, -, hc⟩ | ⟨-, hchecks, w, r, hst, hc⟩ <;>
    cases hc.symm.trans ht
  · exact raise_inv h hdone
  · cases r with
    | raise e info => exact raise_inv (h.with_work w) hdone
    | finish out =>
      obtain ⟨-, hdst, -⟩ := (configCheck_eq_none_iff _).mp ((commonChecks_eq_none_iff s).mp hchecks).1
      exact finish_inv (h.with_work w) herr (stagesOf_finish_length hst) hdst

/-! ### The other agents' acts -/

theorem hostMemWrite_inv {s t : State} {addr : Nat} {data : List Byte} (h : Inv s) (ht : hostMemWrite addr data s = .next t) :
    Inv t := by
  rcases hostMemWrite_cases addr data s with ⟨-, hc⟩ | ⟨-, -, hc⟩ | ⟨hlen, -, hc⟩ <;>
    cases hc.symm.trans ht
  exact h.with_memory s.hostBytes (Memory.writeBytes_wf h.memory.canonical hlen)
    (Memory.writeBytes_free_draw h.memory.canonical hlen h.memory.drawsFresh)

theorem hostMemRead_inv {s t : State} {addr count : Nat} (h : Inv s) (ht : hostMemRead addr count s = .next t) : Inv t := by
  unfold hostMemRead at ht
  split at ht <;> cases ht
  exact h.with_memory _ h.memory.canonical fun f hf => Nat.lt_succ_of_lt (h.memory.drawsFresh f hf)

theorem poll_inv {s : State} (h : Inv s) (r : Reg) (mask value : Word) : Inv (poll r mask value s) := by
  unfold poll
  dsimp only
  split
  · exact hostRead_inv h r
  · exact (hostRead_inv h r).with_inputs _

theorem readIrq_inv {s : State} (h : Inv s) : Inv (readIrq s) := by
  have hirq : Inv { s with hostIrq := s.irq } := h.with_unconstrained ..
  unfold readIrq
  dsimp only
  split
  · exact observeEnd_inv hirq
  · exact hirq

theorem waitIrq_inv {s : State} (h : Inv s) : Inv (waitIrq s) := by
  unfold waitIrq
  dsimp only
  split
  · exact readIrq_inv h
  · exact (readIrq_inv h).with_inputs _

/-- A reset establishes the invariant's clauses about the block and keeps those about memory and the platform (R260 to R262). -/
theorem resetBlock_inv {s : State} (h : Inv s) : Inv (resetBlock s) where
  status :=
    { noErr := fun _ => rfl
      errCodeRange := fun he => by simp at he
      notBoth := by simp
      errLen := fun _ => rfl
      lenInWindow := by simp }
  busy :=
    { flags := fun _ => ⟨rfl, rfl⟩
      registers := fun _ => ⟨rfl, rfl⟩
      lastOp := fun hp => by simp at hp
      duties := fun hp => by simp at hp }
  memory := { canonical := memoryAfterReset_wf h.memory.canonical, drawsFresh := memoryAfterReset_draws h.memory }
  failing := h.failing
  sideEffects := h.sideEffects

theorem applyChange_inv {s : State} (h : Inv s) (c : PlatformChange) : Inv (applyChange c s) := by
  cases c with
  | answers w => exact h.with_platform (carveSpans_wf w h.failing) h.sideEffects
  | fails w => exact h.with_platform (addSpan_wf _ w.clip_hi h.failing) h.sideEffects
  | device w => exact h.with_platform h.failing (addSpan_wf _ w.clip_hi h.sideEffects)
  | plain w =>
    have hmem := becomePlain_memoryInv h.memory w
    exact (h.with_platform (p := s.platform.change (.plain w)) h.failing (carveSpans_wf w h.sideEffects)).with_memory
      s.hostBytes hmem.canonical hmem.drawsFresh

theorem changePlatform_inv {s t : State} {c : PlatformChange} (h : Inv s) (ht : changePlatform c s = .next t) : Inv t := by
  rcases changePlatform_cases c s with ⟨f, -, hc⟩ | ⟨-, hc⟩ <;> cases hc.symm.trans ht
  exact applyChange_inv h c

/-- Every act of the agents around the block keeps the invariant. -/
theorem applyEvent_inv {s t : State} {e : EnvEvent} (h : Inv s) (ht : applyEvent e s = .next t) : Inv t := by
  cases e with
  | memWrite addr data => exact hostMemWrite_inv h ht
  | memRead addr count => exact hostMemRead_inv h ht
  | platform c => exact changePlatform_inv h ht
  | poll r mask value => cases ht; exact poll_inv h r mask value
  | readIrq => cases ht; exact readIrq_inv h
  | waitIrq => cases ht; exact waitIrq_inv h
  | reset => cases ht; exact resetBlock_inv h

/-! ### Every step, and reset -/

/-- Every step keeps the invariant, whichever agent moves. -/
theorem step_inv {s t : State} (h : Inv s) (ht : step s = .next t) : Inv t := by
  rcases step_cases s with
    ⟨-, -, hs⟩ | ⟨rest, -, hs⟩ | ⟨rest, -, hp, hs⟩ | ⟨x, rest, i, -, hs⟩ | ⟨e, hs⟩ | ⟨e, rest, -, hs⟩
  · cases hs.symm.trans ht; exact h
  · cases hs.symm.trans ht; exact h.with_inputs rest
  · exact completeCommand_inv (h.with_inputs rest) hp (hs.symm.trans ht)
  · cases (hs.trans (exec_eq_next i _)).symm.trans ht; exact afterInstr_inv (h.with_inputs rest) i
  · cases hs.symm.trans ht
  · exact applyEvent_inv (h.with_inputs rest) (hs.symm.trans ht)

theorem reset_inv : Inv State.reset where
  status :=
    { noErr := fun _ => rfl
      errCodeRange := fun he => by simp [State.reset] at he
      notBoth := by simp [State.reset]
      errLen := fun _ => rfl
      lenInWindow := Nat.zero_le _ }
  busy :=
    { flags := fun _ => ⟨rfl, rfl⟩
      registers := fun _ => ⟨rfl, rfl⟩
      lastOp := fun hp => by simp [State.reset] at hp
      duties := fun hp => by simp [State.reset] at hp }
  memory := { canonical := Memory.unknown_wf, drawsFresh := by decide }
  failing := by decide
  sideEffects := by decide

/-- The interrupt line is low while neither DONE nor ERR is set (R240). -/
theorem irq_of_no_flag {s : State} (hd : s.done = false) (he : s.err = false) : s.irq = false := by
  simp [State.irq, hd, he]

/-- STATUS reads 0 when every field of it is clear (R25). -/
theorem statusWord_of_clear {s : State} (hp : s.phase = .idle) (hd : s.done = false) (he : s.err = false)
    (ho : s.cmdOvr = false) (hc : s.errCode = 0) (hl : s.lastOp = 0) : s.statusWord = 0 := by
  rw [State.statusWord, (busy_eq_false_iff s).mpr hp, hd, he, ho, hc, hl]
  decide

end Sys2Proof.Machine

open Sys2Proof Sys2Proof.Machine

/-- Settles O4, agent by agent: `afterInstr_inv` for the host's instructions, `completeCommand_inv` for the block agent and
`applyEvent_inv` for the acts around the block. -/
theorem everyStepKeepsTheInvariant : Obligations.EveryStepKeepsTheInvariant :=
  fun _ _ h ht => step_inv h ht

/-- Settles O3: the flags are clear, no command runs, and memory is one unspecified range of draw 0, older than the counter's 1. -/
theorem resetStateMeetsTheInvariant : Obligations.ResetStateMeetsTheInvariant := reset_inv

/-- Settles O1: every field of both states has its reset value by definition, and a reset in IDLE leaves memory as it was. -/
theorem resetRegisterValues : Obligations.ResetRegisterValues := by
  intro s
  refine ⟨resetBlock s, rfl, fun hp a => ?_, ?_⟩
  · rw [resetBlock_mem, memoryAfterReset_idle hp]
  · rintro u (rfl | rfl) <;>
      exact ⟨rfl, rfl, rfl, statusWord_of_clear rfl rfl rfl rfl rfl rfl, rfl, rfl, rfl, rfl, rfl, rfl, rfl, rfl, rfl, rfl, rfl,
        irq_of_no_flag rfl rfl⟩

end

section
/-! ## Host accesses and the running command

A write of CMD is the command its word selects (O14), and no host access changes how a running command ends (O17). -/

namespace Sys2Proof.Machine

/-! ### The command word -/

/-- A command word is its OP field and its RSVD field (R80). -/
theorem command_toNat (w : Word) : w.toNat = (w.extractLsb' 4 28).toNat * 16 + (w.extractLsb' 0 4).toNat := by
  simp only [BitVec.extractLsb'_toNat, Nat.shiftRight_eq_div_pow]
  have := w.isLt
  omega

/-- The decoder's reading of a command word as one comparison a command (R81 to R83). -/
theorem decodeCommand_eq (w : Word) :
    decodeCommand w = if w = 0#32 then .nop else if w = 1#32 then .encode else if w = 2#32 then .decode else .illegal w := by
  by_cases h0 : w = 0#32
  · subst h0; decide
  by_cases h1 : w = 1#32
  · subst h1; decide
  by_cases h2 : w = 2#32
  · subst h2; decide
  rw [if_neg h0, if_neg h1, if_neg h2]
  dsimp only [decodeCommand]
  split
  case isFalse => rfl
  case isTrue hr =>
    have hop : (w.extractLsb' 0 4).toNat = w.toNat := by rw [command_toNat w, hr]; simp
    rw [hop]
    split
    · next h => exact absurd (BitVec.eq_of_toNat_eq h) h0
    · next h => exact absurd (BitVec.eq_of_toNat_eq h) h1
    · next h => exact absurd (BitVec.eq_of_toNat_eq h) h2
    · rfl

/-- An instruction that the host's command word selects does what writing the word to CMD does (R24, R114). -/
theorem afterInstr_decodeCommand (w : Word) (s : State) : afterInstr (decodeCommand w) s = issue w s := by
  rw [decodeCommand_eq, issue]
  by_cases h0 : w = 0#32
  · simp [h0, afterInstr]
  · by_cases h1 : w = 1#32
    · simp [h1, afterInstr]
    · by_cases h2 : w = 2#32
      · simp [h2, afterInstr]
      · simp [h0, h1, h2, afterInstr]

/-! ### What a completion step depends on -/

/-- The two states run the same command over the same memory and platform, and agree in the registers and the working state that
the command leaves its results in (R40, R116). -/
structure SameCommand (s t : State) : Prop where
  phase : t.phase = s.phase
  latched : t.latched = s.latched
  mem : t.mem = s.mem
  platform : t.platform = s.platform
  work : t.work = s.work
  outLen : t.outLen = s.outLen
  errInfo : t.errInfo = s.errInfo
  draws : t.draws = s.draws

/-- The two states signal the same success or error. -/
structure SameFlags (s t : State) : Prop where
  done : t.done = s.done
  err : t.err = s.err
  errCode : t.errCode = s.errCode

theorem SameCommand.with_work {s t : State} (h : SameCommand s t) (w : Work) :
    SameCommand { s with work := w } { t with work := w } :=
  ⟨h.phase, h.latched, h.mem, h.platform, rfl, h.outLen, h.errInfo, h.draws⟩

theorem SameFlags.with_work {s t : State} (h : SameFlags s t) (w : Work) :
    SameFlags { s with work := w } { t with work := w } :=
  ⟨h.done, h.err, h.errCode⟩

theorem SameCommand.raise {s t : State} (h : SameCommand s t) (e : CmdError) (info : Nat) :
    SameCommand (raise e info s) (raise e info t) where
  phase := rfl
  latched := h.latched
  mem := by cases e <;> simp only [raise_mem, memoryAfterError, h.mem, h.latched, h.draws]
  platform := h.platform
  work := h.work
  outLen := rfl
  errInfo := by simp only [raise_errInfo, h.draws]
  draws := by simp only [raise_draws, h.draws]

theorem SameCommand.finish {s t : State} (h : SameCommand s t) (out : List Byte) :
    SameCommand (finish out s) (finish out t) where
  phase := rfl
  latched := h.latched
  mem := by simp only [finish_mem, h.mem, h.latched]
  platform := h.platform
  work := h.work
  outLen := rfl
  errInfo := h.errInfo
  draws := h.draws

theorem SameCommand.endCommand {s t : State} (h : SameCommand s t) (r : CmdEnd) :
    SameCommand (endCommand r s) (endCommand r t) := by
  cases r with
  | finish out => exact h.finish out
  | raise e info => exact h.raise e info

theorem SameFlags.raise {s t : State} (h : SameFlags s t) (e : CmdError) (info : Nat) :
    SameFlags (raise e info s) (raise e info t) := ⟨h.done, rfl, rfl⟩

theorem SameFlags.endCommand {s t : State} (h : SameFlags s t) (r : CmdEnd) :
    SameFlags (endCommand r s) (endCommand r t) := by
  cases r with
  | finish out => exact ⟨rfl, h.err, h.errCode⟩
  | raise e info => exact h.raise e info

theorem SameCommand.sideEffects {s t : State} (h : SameCommand s t) :
    t.platform.sideEffects.any (touchesWindows t) = s.platform.sideEffects.any (touchesWindows s) := by
  have htouch : touchesWindows t = touchesWindows s := by
    funext v
    rw [touchesWindows, touchesWindows, h.latched]
  rw [htouch, h.platform]

theorem SameCommand.commonChecks {s t : State} (h : SameCommand s t) : commonChecks t = commonChecks s := by
  rw [Machine.commonChecks, Machine.commonChecks, h.latched, h.platform]

theorem SameCommand.sourceBytes {s t : State} (h : SameCommand s t) : sourceBytes t = sourceBytes s := by
  rw [Machine.sourceBytes, Machine.sourceBytes, h.latched, h.mem]

/-- A running command that fails a common check ends in that error (R119, R120). -/
theorem completeCommand_of_error {s : State} {e : CmdError} {info : Nat}
    (hside : s.platform.sideEffects.any (touchesWindows s) = false) (hchecks : commonChecks s = some (e, info)) :
    completeCommand s = .next (raise e info s) := by
  rcases completeCommand_cases s with ⟨hs, -⟩ | ⟨-, e', info', hc, h⟩ | ⟨-, hc, -⟩
  · rw [hside] at hs; cases hs
  · rw [hchecks] at hc; cases hc; exact h
  · rw [hchecks] at hc; cases hc

/-- A running command that passes the common checks ends as its stages say (R121, R122). -/
theorem completeCommand_of_stages {s : State} {w : Work} {r : CmdEnd}
    (hside : s.platform.sideEffects.any (touchesWindows s) = false) (hchecks : commonChecks s = none)
    (hst : stagesOf s.latched.op s.latched s.platform (sourceBytes s) s.work = (w, r)) :
    completeCommand s = .next (endCommand r { s with work := w }) := by
  rcases completeCommand_cases s with ⟨hs, -⟩ | ⟨-, e', info', hc, -⟩ | ⟨-, -, w', r', hst', h⟩
  · rw [hside] at hs; cases hs
  · rw [hchecks] at hc; cases hc
  · rw [hst] at hst'; cases hst'; exact h

/-- The same command ends the same way, and under the same flags with the same flags. -/
theorem SameCommand.completeCommand {s t u : State} (h : SameCommand s t) (hu : completeCommand s = .next u) :
    ∃ v, completeCommand t = .next v ∧ SameCommand u v ∧ (SameFlags s t → SameFlags u v) := by
  rcases completeCommand_cases s with ⟨-, hc⟩ | ⟨hside, e, info, hchecks, hc⟩ | ⟨hside, hchecks, w, r, hst, hc⟩ <;>
    cases hc.symm.trans hu
  · exact ⟨_, completeCommand_of_error (h.sideEffects.trans hside) (h.commonChecks.trans hchecks), h.raise e info,
      fun hf => hf.raise e info⟩
  · refine ⟨_, completeCommand_of_stages (h.sideEffects.trans hside) (h.commonChecks.trans hchecks) ?_,
      (h.with_work w).endCommand r, fun hf => (hf.with_work w).endCommand r⟩
    rw [h.latched, h.platform, h.work, h.sourceBytes]
    exact hst

/-! ### What a host access leaves of the running command -/

/-- An instruction leaves a running command as it is (R115, R223, R272). -/
theorem afterInstr_sameCommand {s : State} (hp : s.phase = .busy) (i : Instr) : SameCommand s (afterInstr i s) := by
  have hdrop : SameCommand s (dropCommand s) := ⟨rfl, rfl, rfl, rfl, rfl, rfl, rfl, rfl⟩
  cases i with
  | nop => simpa only [afterInstr, hp, if_true] using hdrop
  | encode => simpa only [afterInstr, hp, if_true] using hdrop
  | decode => simpa only [afterInstr, hp, if_true] using hdrop
  | illegal w => simpa only [afterInstr, hp, if_true] using hdrop
  | rd r => cases r <;> exact ⟨rfl, rfl, rfl, rfl, rfl, rfl, rfl, rfl⟩
  | wr r w =>
    cases r with
    | cmd => simpa only [afterInstr, writeReg, issue, hp, if_true] using hdrop
    | status =>
      simp only [afterInstr, writeReg, clearStatus_eq]
      exact ⟨rfl, rfl, rfl, rfl, rfl, rfl, rfl, rfl⟩
    | _ => exact ⟨rfl, rfl, rfl, rfl, rfl, rfl, rfl, rfl⟩

/-- While a command runs its flags are clear, so no instruction changes them: the write-1-to-clear has nothing to clear (R25,
R116). -/
theorem afterInstr_sameFlags {s : State} (h : Inv s) (hp : s.phase = .busy) (i : Instr) : SameFlags s (afterInstr i s) := by
  obtain ⟨hdone, herr⟩ := h.busy.flags hp
  obtain ⟨hdone', herr'⟩ := (afterInstr_inv h i).busy.flags ((afterInstr_sameCommand hp i).phase.trans hp)
  exact ⟨hdone'.trans hdone.symm, herr'.trans herr.symm,
    ((afterInstr_inv h i).status.noErr herr').trans (h.status.noErr herr).symm⟩

end Sys2Proof.Machine

open Sys2Proof Sys2Proof.Machine

/-- Settles O14, by the command word's decoding. -/
theorem cmdWriteRunsTheCommandWord : Obligations.CmdWriteRunsTheCommandWord := by
  intro s w
  rw [exec_eq_next, exec_eq_next, afterInstr_decodeCommand]
  rfl

/-- Settles O17: an instruction leaves the running command as it is, and the completion step depends on nothing else. -/
theorem runningCommandIsIndependentOfHostAccesses : Obligations.RunningCommandIsIndependentOfHostAccesses := by
  intro s i hp
  have hcmd := afterInstr_sameCommand hp i
  refine ⟨afterInstr i s, exec_eq_next i s, hcmd.phase.trans hp, hcmd.latched, fun u hu => ?_⟩
  obtain ⟨v, hv, hsame, hflags⟩ := hcmd.completeCommand hu
  refine ⟨v, hv, hsame.mem, hsame.outLen, hsame.errInfo, hsame.work, hsame.phase, fun hinv => ?_⟩
  obtain ⟨hdone, herr, hcode⟩ := hflags (afterInstr_sameFlags hinv hp i)
  exact ⟨hdone, herr, hcode⟩

end

section
/-! ## The codebook tables

CB_LEN and CB_VAL hold the codes they were filled with (O36). -/

namespace Sys2Proof.Machine

theorem byte_toNat_ne {s t : Byte} (h : s ≠ t) : s.toNat ≠ t.toNat := fun hc => h (BitVec.eq_of_toNat_eq hc)

/-- Reading a table of the 256 symbols after one entry is set. -/
theorem entry_set {t : List Nat} (ht : t.length = 256) (c s : Byte) (v : Nat) :
    entry (t.set c.toNat v) s = if s = c then v else entry t s := by
  have hs : s.toNat < t.length := ht ▸ s.isLt
  unfold entry
  rw [List.getD_eq_getElem?_getD, List.getD_eq_getElem?_getD]
  by_cases h : s = c
  · subst h
    rw [if_pos rfl, List.getElem?_set_self hs, Option.getD_some]
  · rw [if_neg h, List.getElem?_set_ne (byte_toNat_ne (Ne.symm h))]

/-- A table of the 256 symbols that is all zeros. -/
theorem entry_replicate_zero (n : Nat) (s : Byte) : entry (List.replicate n 0) s = 0 := by
  rw [entry, List.getD_eq_getElem?_getD, List.getElem?_replicate]
  split <;> rfl

/-- Storing one code in a table: a code without a value leaves the table as it is. -/
def storeCode (value : List Bool → Option Nat) (t : List Nat) (c : Byte × List Bool) : List Nat :=
  match value c.2 with
  | some v => t.set c.1.toNat v
  | none => t

/-- What CB_VAL holds for a code: its value, if it has at most 64 bits (R149). -/
def shortValue (c : List Bool) : Option Nat := if c.length ≤ 64 then some (bitsVal c) else none

theorem codeLengths_eq (codes : List (Byte × List Bool)) :
    codeLengths codes = codes.foldl (storeCode (fun c => some c.length)) (List.replicate 256 0) := rfl

theorem codeValues_eq (codes : List (Byte × List Bool)) :
    codeValues codes = codes.foldl (storeCode shortValue) (List.replicate 256 0) := by
  have hstep : (fun (t : List Nat) (c : Byte × List Bool) =>
      if c.2.length ≤ Config.maxCodeLength then t.set c.1.toNat (bitsVal c.2) else t) = storeCode shortValue := by
    funext t c
    by_cases h : c.2.length ≤ 64 <;> simp [storeCode, shortValue, h]
  rw [codeValues, hstep]

section
variable (value : List Bool → Option Nat)

theorem storeCode_length (t : List Nat) (c : Byte × List Bool) : (storeCode value t c).length = t.length := by
  unfold storeCode
  cases value c.2 <;> simp

theorem entry_storeCode_other {t : List Nat} (ht : t.length = 256) {c : Byte × List Bool} {s : Byte} (h : s ≠ c.1) :
    entry (storeCode value t c) s = entry t s := by
  unfold storeCode
  cases value c.2 with
  | none => rfl
  | some v => exact (entry_set ht c.1 s v).trans (if_neg h)

theorem entry_storeCode_same {t : List Nat} (ht : t.length = 256) {c : Byte × List Bool} {v : Nat} (h : value c.2 = some v) :
    entry (storeCode value t c) c.1 = v := by
  unfold storeCode
  rw [h]
  exact (entry_set ht c.1 c.1 v).trans (if_pos rfl)

/-- Storing codes changes the entries of their symbols only. -/
theorem entry_foldl_storeCode_of_not_mem {codes : List (Byte × List Bool)} {t : List Nat} (ht : t.length = 256) {s : Byte}
    (h : s ∉ codes.map Prod.fst) : entry (codes.foldl (storeCode value) t) s = entry t s := by
  induction codes generalizing t with
  | nil => rfl
  | cons c codes ih =>
    rw [List.map_cons, List.mem_cons, not_or] at h
    rw [List.foldl_cons, ih ((storeCode_length value t c).trans ht) h.2, entry_storeCode_other value ht h.1]

/-- Of codes of distinct symbols each is stored in its own entry. -/
theorem entry_foldl_storeCode_of_mem {codes : List (Byte × List Bool)} {t : List Nat} (ht : t.length = 256)
    (hnodup : (codes.map Prod.fst).Nodup) {c : Byte × List Bool} (hc : c ∈ codes) {v : Nat} (hv : value c.2 = some v) :
    entry (codes.foldl (storeCode value) t) c.1 = v := by
  induction codes generalizing t with
  | nil => cases hc
  | cons d codes ih =>
    obtain ⟨hd, hrest⟩ := List.nodup_cons.mp hnodup
    have ht' := (storeCode_length value t d).trans ht
    rw [List.foldl_cons]
    rcases List.mem_cons.mp hc with rfl | hc
    · rw [entry_foldl_storeCode_of_not_mem value ht' hd, entry_storeCode_same value ht hv]
    · exact ih ht' hrest hc

end

/-- CB_LEN of a coded symbol is its code's length (R44, R149). -/
theorem entry_codeLengths {codes : List (Byte × List Bool)} (hnodup : (codes.map Prod.fst).Nodup) {c : Byte × List Bool}
    (hc : c ∈ codes) : entry (codeLengths codes) c.1 = c.2.length := by
  rw [codeLengths_eq]
  exact entry_foldl_storeCode_of_mem _ List.length_replicate hnodup hc rfl

/-- CB_LEN of a symbol without a code is 0 (R44). -/
theorem entry_codeLengths_of_not_mem {codes : List (Byte × List Bool)} {s : Byte} (hs : s ∉ codes.map Prod.fst) :
    entry (codeLengths codes) s = 0 := by
  rw [codeLengths_eq, entry_foldl_storeCode_of_not_mem _ List.length_replicate hs, entry_replicate_zero]

/-- CB_VAL of a symbol whose code has at most 64 bits is the code's value (R44, R149). -/
theorem entry_codeValues {codes : List (Byte × List Bool)} (hnodup : (codes.map Prod.fst).Nodup) {c : Byte × List Bool}
    (hc : c ∈ codes) (hlen : c.2.length ≤ 64) : entry (codeValues codes) c.1 = bitsVal c.2 := by
  rw [codeValues_eq]
  exact entry_foldl_storeCode_of_mem _ List.length_replicate hnodup hc (if_pos hlen)

/-- The code read back from the codebook is the assigned one (R157). -/
theorem codeOf_codebook {codes : List (Byte × List Bool)} (hnodup : (codes.map Prod.fst).Nodup) {c : Byte × List Bool}
    (hc : c ∈ codes) (hlen : c.2.length ≤ 64) : codeOf (codeLengths codes) (codeValues codes) c.1 = c.2 := by
  rw [codeOf, entry_codeLengths hnodup hc, entry_codeValues hnodup hc hlen, bitsOf_bitsVal]

end Sys2Proof.Machine

open Sys2Proof Sys2Proof.Machine

/-- Settles O36, by what one stored code changes and the inverse of `bitsVal`. -/
theorem codebookHoldsTheCodes : Obligations.CodebookHoldsTheCodes :=
  fun _ hnodup => ⟨fun _ hc => entry_codeLengths hnodup hc, fun _ hs => entry_codeLengths_of_not_mem hs,
    fun _ hc hlen => codeOf_codebook hnodup hc hlen⟩

end

section
/-! ## The encoder's widths

Bounds of the encoder's working state: counts, tree and code lengths (O34). -/

namespace Sys2Proof.Machine

/-! ### Counts (R141) -/

theorem entry_modify_succ {t : List Nat} (ht : t.length = 256) (b s : Byte) :
    entry (t.modify b.toNat (· + 1)) s = if b = s then entry t s + 1 else entry t s := by
  have hs : s.toNat < t.length := ht ▸ s.isLt
  have hb : b.toNat = s.toNat ↔ b = s := BitVec.toNat_inj
  simp only [entry, List.getD_eq_getElem?_getD, List.getElem?_modify, List.getElem?_eq_getElem hs, hb]
  split <;> rfl

/-- Counting the bytes of a source onto a table. -/
theorem entry_foldl_count (src : List Byte) {t : List Nat} (ht : t.length = 256) (s : Byte) :
    entry (src.foldl (fun f b => f.modify b.toNat (· + 1)) t) s = entry t s + src.count s := by
  induction src generalizing t with
  | nil => rfl
  | cons b src ih =>
    rw [List.foldl_cons, ih ((List.length_modify _ _ _).trans ht), entry_modify_succ ht, List.count_cons]
    by_cases h : b = s <;> simp [h]
    omega

/-- `FREQ[s]` is the number of occurrences of `s` (R141). -/
theorem entry_frequencies (src : List Byte) (s : Byte) : entry (frequencies src) s = src.count s := by
  rw [frequencies, entry_foldl_count src List.length_replicate, entry_replicate_zero, Nat.zero_add]

/-- FREQ has one counter a symbol (R41). -/
theorem frequencies_length (src : List Byte) : (frequencies src).length = 256 := by
  have h (t : List Nat) : (src.foldl (fun f b => f.modify b.toNat (· + 1)) t).length = t.length := by
    induction src generalizing t with
    | nil => rfl
    | cons b src ih => rw [List.foldl_cons, ih, List.length_modify]
  exact (h _).trans List.length_replicate

/-- No count exceeds the source length (R41). -/
theorem frequencies_le (src : List Byte) : ∀ f ∈ frequencies src, f ≤ src.length := by
  intro f hf
  obtain ⟨i, hi, rfl⟩ := List.getElem_of_mem hf
  have hi' : i < 256 := frequencies_length src ▸ hi
  have hcount := entry_frequencies src (BitVec.ofNat 8 i)
  rw [entry, BitVec.toNat_ofNat, Nat.mod_eq_of_lt hi', List.getD_eq_getElem _ _ hi] at hcount
  rw [hcount]
  exact List.count_le_length

/-! ### The alphabet (R142) -/

theorem mem_alphabet (src : List Byte) (s : Byte) : s ∈ alphabet (frequencies src) ↔ s ∈ src := by
  have hall : s ∈ (List.range 256).map (BitVec.ofNat 8) :=
    List.mem_map.mpr ⟨s.toNat, List.mem_range.mpr s.isLt, by simp⟩
  simp only [alphabet, List.mem_filter, hall, true_and, decide_eq_true_eq, entry_frequencies]
  exact List.one_le_count_iff

theorem alphabet_nodup (freq : List Nat) : (alphabet freq).Nodup := by
  refine List.Nodup.filter _ (List.Nodup.map_on (fun i hi j hj h => ?_) List.nodup_range)
  have hij := congrArg BitVec.toNat h
  simp only [BitVec.toNat_ofNat] at hij
  simp only [List.mem_range, Config.symbols] at hi hj
  omega

theorem alphabet_length_le (freq : List Nat) : (alphabet freq).length ≤ 256 :=
  (List.length_filter_le _ _).trans_eq (by simp)

theorem alphabet_ne_nil {src : List Byte} (h : src ≠ []) : alphabet (frequencies src) ≠ [] := by
  obtain ⟨s, hs⟩ := List.exists_mem_of_ne_nil src h
  exact List.ne_nil_of_mem ((mem_alphabet src s).mpr hs)

/-- The counts of the present symbols add up to the source length. -/
theorem sum_frequencies_alphabet (src : List Byte) :
    ((alphabet (frequencies src)).map (entry (frequencies src))).sum = src.length := by
  have hperm : (alphabet (frequencies src)).Perm src.dedup :=
    (List.perm_ext_iff_of_nodup (alphabet_nodup _) (List.nodup_dedup src)).mpr fun s => by
      rw [mem_alphabet, List.mem_dedup]
  rw [(hperm.map _).sum_eq, ← List.sum_map_count_dedup_eq_length src]
  exact congrArg List.sum (List.map_congr_left fun s _ => entry_frequencies src s)

/-! ### Extraction (R146) -/

theorem foldl_min_mem (nodes : List Node) (k : Nat) (q : List Nat) :
    q.foldl (fun m j => if keyBefore nodes j m then j else m) k ∈ k :: q := by
  induction q generalizing k with
  | nil => exact List.mem_singleton.mpr rfl
  | cons j q ih =>
    rw [List.foldl_cons]
    split
    · exact List.mem_cons_of_mem _ (ih j)
    · rcases List.mem_cons.mp (ih k) with h | h
      · rw [h]; exact List.mem_cons_self
      · exact List.mem_cons_of_mem _ (List.mem_cons_of_mem _ h)

/-- `extractMin` takes a member out of `Q` and leaves the others (R146). -/
theorem extractMin_perm {nodes : List Node} {q rest : List Nat} {m : Nat} (h : extractMin nodes q = some (m, rest)) :
    q.Perm (m :: rest) := by
  rw [extractMin_eq h]
  refine List.perm_cons_erase ?_
  cases q with
  | nil => cases h
  | cons k q =>
    cases h
    exact foldl_min_mem nodes k q

theorem extractMin_of_ne_nil (nodes : List Node) {q : List Nat} (h : q ≠ []) :
    ∃ m rest, extractMin nodes q = some (m, rest) := by
  cases q with
  | nil => exact absurd rfl h
  | cons k q => exact ⟨_, _, rfl⟩

/-! ### The tree (R145 to R148) -/

theorem nodeFreq_append_of_lt {nodes : List Node} {k : Nat} (h : k < nodes.length) (x : Node) :
    nodeFreq (nodes ++ [x]) k = nodeFreq nodes k := by
  rw [nodeFreq, nodeFreq, List.getElem?_append_left h]

theorem nodeFreq_append_self (nodes : List Node) (x : Node) : nodeFreq (nodes ++ [x]) nodes.length = x.freq := by
  rw [nodeFreq, List.getElem?_concat_length]
  rfl

theorem map_nodeFreq_range (nodes : List Node) : (List.range nodes.length).map (nodeFreq nodes) = nodes.map Node.freq := by
  apply List.ext_getElem
  · simp
  · intro i hi _
    have hi' : i < nodes.length := by simpa using hi
    simp [nodeFreq, List.getElem?_eq_getElem hi']

/-- What the merge loop keeps, for an alphabet of `n` symbols whose counts add up to `total`: a round takes two members out of `Q`
and puts the new node in; only the nodes after the leaves are internal, with older nodes as children; the waiting nodes' freqs add up
to `total`, which no node's freq exceeds. -/
structure TreeInv (n total : Nat) (nodes : List Node) (q : List Nat) : Prop where
  size : nodes.length + q.length = 2 * n
  leaves : n ≤ nodes.length
  newest : nodes.length - 1 ∈ q
  waiting : ∀ k ∈ q, k < nodes.length
  children : ∀ k l r f, nodes[k]? = some (Node.internal l r f) → n ≤ k ∧ l < k ∧ r < k
  sum : (q.map (nodeFreq nodes)).sum = total
  bounded : ∀ x ∈ nodes, x.freq ≤ total

theorem seedLeaves_treeInv (freq : List Nat) {A : List Byte} (h : A ≠ []) :
    TreeInv A.length (A.map (entry freq)).sum (seedLeaves freq A) (List.range A.length) := by
  have hlen : (seedLeaves freq A).length = A.length := List.length_map _
  have hpos := List.length_pos_of_ne_nil h
  have hfreq : (seedLeaves freq A).map Node.freq = A.map (entry freq) := by
    rw [seedLeaves, List.map_map]
    rfl
  refine { size := ?_, leaves := ?_, newest := ?_, waiting := ?_, children := ?_, sum := ?_, bounded := ?_ }
  · rw [hlen, List.length_range, Nat.two_mul]
  · exact hlen.ge
  · rw [hlen, List.mem_range]; omega
  · intro k hk
    rw [hlen]
    exact List.mem_range.mp hk
  · intro k l r f hk
    obtain ⟨s, -, hs⟩ := List.mem_map.mp (List.mem_of_getElem? hk)
    cases hs
  · rw [← hlen, map_nodeFreq_range, hfreq]
  · intro x hx
    rw [← hfreq]
    exact List.le_sum_of_mem (List.mem_map_of_mem hx)

/-- One round of the merge loop (R147). -/
theorem TreeInv.round {n total : Nat} {nodes : List Node} {q q1 q2 : List Nat} {x y : Nat} (h : TreeInv n total nodes q)
    (hx : extractMin nodes q = some (x, q1)) (hy : extractMin nodes q1 = some (y, q2)) :
    TreeInv n total (nodes ++ [.internal y x (nodeFreq nodes x + nodeFreq nodes y)]) (nodes.length :: q2) := by
  have hperm : q.Perm (x :: y :: q2) := (extractMin_perm hx).trans ((extractMin_perm hy).cons x)
  have hlen : q.length = q2.length + 2 := hperm.length_eq
  have hold : ∀ k ∈ x :: y :: q2, k < nodes.length := fun k hk => h.waiting k (hperm.mem_iff.mpr hk)
  have hrest : ∀ k ∈ q2, k < nodes.length := fun k hk => hold k (List.mem_cons_of_mem _ (List.mem_cons_of_mem _ hk))
  have hsum : nodeFreq nodes x + (nodeFreq nodes y + (q2.map (nodeFreq nodes)).sum) = total := by
    rw [← h.sum, (hperm.map _).sum_eq, List.map_cons, List.map_cons, List.sum_cons, List.sum_cons]
  have hsize := h.size
  have hleaves := h.leaves
  have hlen' : (nodes ++ [Node.internal y x (nodeFreq nodes x + nodeFreq nodes y)]).length = nodes.length + 1 :=
    List.length_append
  refine { size := ?_, leaves := ?_, newest := ?_, waiting := ?_, children := ?_, sum := ?_, bounded := ?_ }
  · rw [hlen', List.length_cons]
    omega
  · omega
  · rw [hlen']
    exact List.mem_cons_self
  · intro k hk
    rw [hlen']
    rcases List.mem_cons.mp hk with rfl | hk
    · exact Nat.lt_succ_self _
    · exact Nat.lt_succ_of_lt (hrest k hk)
  · intro k l r f hk
    rcases Nat.lt_or_ge k nodes.length with hlt | hge
    · rw [List.getElem?_append_left hlt] at hk
      exact h.children k l r f hk
    · obtain ⟨rfl, hnode⟩ :
          k = nodes.length ∧ Node.internal y x (nodeFreq nodes x + nodeFreq nodes y) = .internal l r f := by
        rw [List.getElem?_append_right hge, List.getElem?_singleton] at hk
        split at hk
        · exact ⟨by omega, Option.some.inj hk⟩
        · cases hk
      cases hnode
      exact ⟨hleaves, hold y (List.mem_cons_of_mem _ List.mem_cons_self), hold x List.mem_cons_self⟩
  · rw [List.map_cons, List.sum_cons, nodeFreq_append_self,
      List.map_congr_left fun k hk => nodeFreq_append_of_lt (hrest k hk) _, Node.freq]
    omega
  · intro z hz
    rcases List.mem_append.mp hz with hz | hz
    · exact h.bounded z hz
    · rw [List.mem_singleton.mp hz, Node.freq]
      omega

/-- With enough rounds the merge loop ends with the root alone in `Q` (R147, R148). -/
theorem mergeLoop_treeInv {n total rounds : Nat} {nodes : List Node} {q : List Nat} (h : TreeInv n total nodes q)
    (hrounds : q.length ≤ rounds + 1) :
    TreeInv n total (mergeLoop rounds nodes q).1 (mergeLoop rounds nodes q).2 ∧ (mergeLoop rounds nodes q).2.length = 1 := by
  induction rounds generalizing nodes q with
  | zero =>
    have hpos := List.length_pos_of_mem h.newest
    exact ⟨h, by dsimp only [mergeLoop]; omega⟩
  | succ rounds ih =>
    obtain ⟨x, q1, hx⟩ := extractMin_of_ne_nil nodes (List.ne_nil_of_mem h.newest)
    have hq : q.length = q1.length + 1 := (extractMin_perm hx).length_eq
    cases q1 with
    | nil =>
      obtain ⟨k, rfl⟩ := List.length_eq_one_iff.mp hq
      rw [mergeLoop_singleton]
      exact ⟨h, rfl⟩
    | cons k q1 =>
      obtain ⟨y, q2, hy⟩ := extractMin_of_ne_nil nodes (List.cons_ne_nil k q1)
      have hq1 : (k :: q1).length = q2.length + 1 := (extractMin_perm hy).length_eq
      rw [mergeLoop_round hx hy]
      exact ih (h.round hx hy) (by rw [List.length_cons]; omega)

/-- The tree of a nonempty alphabet: the loop's invariant, `2n - 1` nodes, and the root alone in `Q`. -/
theorem buildTree_treeInv (freq : List Nat) {A : List Byte} (h : A ≠ []) :
    TreeInv A.length (A.map (entry freq)).sum (buildTree freq A).1 (buildTree freq A).2 ∧
    (buildTree freq A).1.length = 2 * A.length - 1 ∧ (buildTree freq A).2 = [2 * A.length - 2] := by
  obtain ⟨hinv, hone⟩ : TreeInv A.length (A.map (entry freq)).sum (buildTree freq A).1 (buildTree freq A).2 ∧
      (buildTree freq A).2.length = 1 := mergeLoop_treeInv (seedLeaves_treeInv freq h) (by simp)
  have hsize := hinv.size
  obtain ⟨k, hk⟩ := List.length_eq_one_iff.mp hone
  have hroot := hinv.newest
  rw [hk, List.mem_singleton] at hroot
  have hlen : (buildTree freq A).1.length = 2 * A.length - 1 := by omega
  exact ⟨hinv, hlen, by rw [hk, ← hroot, hlen]; rfl⟩

/-- The root's freq is the sum of the counts (R42). -/
theorem nodeFreq_root (freq : List Nat) {A : List Byte} (h : A ≠ []) :
    nodeFreq (buildTree freq A).1 (2 * A.length - 2) = (A.map (entry freq)).sum := by
  obtain ⟨hinv, -, hroot⟩ := buildTree_treeInv freq h
  have hsum := hinv.sum
  rw [hroot] at hsum
  simpa using hsum

/-! ### Code lengths (R44, R149) -/

/-- Every edge of the tree leads to an older node, and only the nodes after the `n` leaves have edges: a path from node `k` has at most
`k + 1 - n` of them. -/
theorem leafCodes_length_le {n total : Nat} {nodes : List Node} {q : List Nat} (h : TreeInv n total nodes q) (d k : Nat)
    (path : List Bool) : ∀ c ∈ leafCodes nodes d k path, c.2.length ≤ path.length + (k + 1 - n) := by
  induction d generalizing k path with
  | zero => intro c hc; cases hc
  | succ d ih =>
    intro c hc
    rw [leafCodes] at hc
    split at hc
    · cases hc
    · rw [List.mem_singleton.mp hc]
      exact Nat.le_add_right _ _
    · next l r f hk =>
      obtain ⟨hn, hl, hr⟩ := h.children k l r f hk
      rcases List.mem_append.mp hc with hc | hc
      · have hle := ih l (path ++ [false]) c hc
        rw [List.length_append, List.length_singleton] at hle
        omega
      · have hle := ih r (path ++ [true]) c hc
        rw [List.length_append, List.length_singleton] at hle
        omega

theorem assignCodes_of_two (nodes : List Node) (queue : List Nat) (s s' : Byte) (A : List Byte) :
    assignCodes nodes queue (s :: s' :: A) = leafCodes nodes nodes.length (queue.headD 0) [] := rfl

/-- A code of an alphabet of `n ≥ 2` symbols has at most `n - 1` bits, and the only code of one symbol has one (R149, R150). -/
theorem assignCodes_length_le (freq : List Nat) (A : List Byte) :
    ∀ c ∈ assignCodes (buildTree freq A).1 (buildTree freq A).2 A, c.2.length ≤ max 1 (A.length - 1) := by
  intro c hc
  match A, hc with
  | [s], hc =>
    rw [List.mem_singleton.mp hc]
    exact le_max_left _ _
  | s :: s' :: A, hc =>
    obtain ⟨hinv, -, hroot⟩ := buildTree_treeInv freq (List.cons_ne_nil s (s' :: A))
    rw [assignCodes_of_two, hroot] at hc
    have hle := leafCodes_length_le hinv _ _ _ c hc
    simp only [List.headD_cons, List.length_nil] at hle
    omega

end Sys2Proof.Machine

open Sys2Proof Sys2Proof.Machine

/-- Settles O34: the counts by R141, the tree by the merge loop's invariant, and the codes by the paths' edges. -/
theorem encoderWorkFitsItsWidths : Obligations.EncoderWorkFitsItsWidths := by
  intro src hsrc freq A T
  have hA : A ≠ [] := alphabet_ne_nil hsrc
  have hn : A.length ≤ 256 := alphabet_length_le freq
  have htotal : (A.map (entry freq)).sum = src.length := sum_frequencies_alphabet src
  obtain ⟨hinv, hlen, -⟩ := buildTree_treeInv freq hA
  refine ⟨frequencies_le src, fun x hx => htotal ▸ hinv.bounded x hx, (nodeFreq_root freq hA).trans htotal, ?_,
    fun c hc => ?_⟩
  · exact hlen.trans_le (by omega)
  · exact (assignCodes_length_le freq A c hc).trans (by omega)

end

section
/-! ## The reverse map

What deserializing the codebook region leaves in the reverse map, and the entry that an error names (O48). -/

namespace Sys2Proof.Machine

/-! ### The fields of an entry -/

/-- The symbol byte of entry `k` (R92, R184). -/
def entrySym (body : List Byte) (k : Nat) : Byte := body.getD (10 * k) 0

/-- The code length of entry `k` (R92, R184). -/
def entryLen (body : List Byte) (k : Nat) : Nat := (body.getD (10 * k + 1) 0).toNat

/-- The code value of entry `k`, the low bits of its code block (R97, R184). -/
def entryVal (le : Bool) (body : List Byte) (k : Nat) : Nat :=
  blockValue le ((body.drop (10 * k + 2)).take 8) % 2 ^ entryLen body k

/-- The symbol that the map gives the code of entry `k`. -/
def entryFound (le : Bool) (body : List Byte) (m : List RevEntry) (k : Nat) : Option Byte :=
  rmapFind m (entryLen body k) (entryVal le body k)

theorem entrySym_drop (body : List Byte) (k : Nat) : entrySym (body.drop 10) k = entrySym body (k + 1) := by
  simp only [entrySym, List.getD_eq_getElem?_getD, List.getElem?_drop]
  rw [show 10 + 10 * k = 10 * (k + 1) by omega]

theorem entryLen_drop (body : List Byte) (k : Nat) : entryLen (body.drop 10) k = entryLen body (k + 1) := by
  simp only [entryLen, List.getD_eq_getElem?_getD, List.getElem?_drop]
  rw [show 10 + (10 * k + 1) = 10 * (k + 1) + 1 by omega]

theorem entryFound_drop (le : Bool) (body : List Byte) (m : List RevEntry) (k : Nat) :
    entryFound le (body.drop 10) m k = entryFound le body m (k + 1) := by
  simp only [entryFound, entryVal, entryLen_drop, List.drop_drop]
  rw [show 10 + (10 * k + 2) = 10 * (k + 1) + 2 by omega]

/-- Entry `k` was accepted: its length is legal and the map gives its code its symbol (R184, R186). -/
def EntryAccepted (le : Bool) (body : List Byte) (m : List RevEntry) (k : Nat) : Prop :=
  1 ≤ entryLen body k ∧ entryLen body k ≤ 64 ∧ entryFound le body m k = some (entrySym body k)

/-- Entry `k`, counted from entry number `first`, fails with this error: for its length, or because the map holds its code with
another symbol (R185, R186). -/
def EntryFails (le : Bool) (body : List Byte) (m : List RevEntry) (first k : Nat) (e : CmdError) (info : Nat) : Prop :=
  e = .fmtBadLength ∧ info = 2 + 10 * (first + k) ∧ (entryLen body k = 0 ∨ 64 < entryLen body k) ∨
  e = .fmtCollision ∧ info = 1 + 10 * (first + k) ∧ 1 ≤ entryLen body k ∧ entryLen body k ≤ 64 ∧
    ∃ s, s ≠ entrySym body k ∧ entryFound le body m k = some s

theorem EntryAccepted.of_drop {le : Bool} {body : List Byte} {m : List RevEntry} {k : Nat}
    (h : EntryAccepted le (body.drop 10) m k) : EntryAccepted le body m (k + 1) := by
  unfold EntryAccepted at h ⊢
  rwa [entryLen_drop, entryFound_drop, entrySym_drop] at h

theorem EntryFails.of_drop {le : Bool} {body : List Byte} {m : List RevEntry} {first k : Nat} {e : CmdError} {info : Nat}
    (h : EntryFails le (body.drop 10) m (first + 1) k e info) : EntryFails le body m first (k + 1) e info := by
  unfold EntryFails at h ⊢
  rwa [entryLen_drop, entryFound_drop, entrySym_drop, Nat.add_right_comm first 1 k, Nat.add_assoc first k 1] at h

theorem EntryAccepted.mono {le : Bool} {body : List Byte} {m m' : List RevEntry} {k : Nat} (hm : m <+: m')
    (h : EntryAccepted le body m k) : EntryAccepted le body m' k := by
  obtain ⟨l, rfl⟩ := hm
  obtain ⟨h1, h64, hfound⟩ := h
  exact ⟨h1, h64, rmapFind_append_of_some l hfound⟩

/-- The first entry of the region, in the terms above (`deserialize_cases`). -/
theorem deserialize_first_cases (le : Bool) (n first : Nat) (body : List Byte) (m : List RevEntry) :
    ((entryLen body 0 = 0 ∨ 64 < entryLen body 0) ∧
      deserialize le (n + 1) first body m = (m, some (.fmtBadLength, 2 + 10 * first))) ∨
    (1 ≤ entryLen body 0 ∧ entryLen body 0 ≤ 64 ∧ (∃ s, entryFound le body m 0 = some s ∧ s ≠ entrySym body 0) ∧
      deserialize le (n + 1) first body m = (m, some (.fmtCollision, 1 + 10 * first))) ∨
    (1 ≤ entryLen body 0 ∧ entryLen body 0 ≤ 64 ∧ entryFound le body m 0 = some (entrySym body 0) ∧
      deserialize le (n + 1) first body m = deserialize le n (first + 1) (body.drop 10) m) ∨
    (1 ≤ entryLen body 0 ∧ entryLen body 0 ≤ 64 ∧ entryFound le body m 0 = none ∧
      deserialize le (n + 1) first body m = deserialize le n (first + 1) (body.drop 10)
        (m ++ [{ len := entryLen body 0, val := entryVal le body 0, sym := entrySym body 0 }])) :=
  deserialize_cases le n first body m

/-! ### The map -/

/-- A reverse map: at most one triple a key, and legal keys (R45). -/
structure RevMapInv (m : List RevEntry) : Prop where
  keys : m.Pairwise (fun e f => ¬(e.len = f.len ∧ e.val = f.val))
  legal : ∀ e ∈ m, 1 ≤ e.len ∧ e.len ≤ 64 ∧ e.val < 2 ^ e.len

theorem RevMapInv.nil : RevMapInv [] := ⟨.nil, fun _ h => nomatch h⟩

/-- A legal triple whose key the map does not hold yet joins the map. -/
theorem RevMapInv.append {m : List RevEntry} (h : RevMapInv m) {e : RevEntry} (hfree : rmapFind m e.len e.val = none)
    (hlegal : 1 ≤ e.len ∧ e.len ≤ 64 ∧ e.val < 2 ^ e.len) : RevMapInv (m ++ [e]) where
  keys := by
    refine List.pairwise_append.mpr ⟨h.keys, List.pairwise_singleton _ _, fun f hf g hg => ?_⟩
    rw [List.mem_singleton.mp hg]
    exact rmapFind_none hfree f hf
  legal := by
    intro f hf
    rcases List.mem_append.mp hf with hf | hf
    · exact h.legal f hf
    · rw [List.mem_singleton.mp hf]; exact hlegal

theorem entryVal_lt (le : Bool) (body : List Byte) (k : Nat) : entryVal le body k < 2 ^ entryLen body k :=
  Nat.mod_lt _ (Nat.two_pow_pos _)

theorem deserialize_revMapInv {le : Bool} {n first : Nat} {body : List Byte} {m : List RevEntry} (h : RevMapInv m) :
    RevMapInv (deserialize le n first body m).1 := by
  induction n generalizing first body m with
  | zero => exact h
  | succ n ih =>
    rcases deserialize_first_cases le n first body m with
      ⟨-, hd⟩ | ⟨-, -, -, hd⟩ | ⟨-, -, -, hd⟩ | ⟨h1, h64, hfree, hd⟩ <;> rw [hd]
    · exact h
    · exact h
    · exact ih h
    · exact ih (h.append hfree ⟨h1, h64, entryVal_lt le body 0⟩)

/-- An entry adds at most one triple. -/
theorem deserialize_length_le (le : Bool) (n first : Nat) (body : List Byte) (m : List RevEntry) :
    (deserialize le n first body m).1.length ≤ m.length + n := by
  induction n generalizing first body m with
  | zero => exact Nat.le_refl _
  | succ n ih =>
    rcases deserialize_first_cases le n first body m with
      ⟨-, hd⟩ | ⟨-, -, -, hd⟩ | ⟨-, -, -, hd⟩ | ⟨-, -, -, hd⟩ <;> rw [hd]
    · exact Nat.le_add_right _ _
    · exact Nat.le_add_right _ _
    · exact (ih (first + 1) (body.drop 10) m).trans (by omega)
    · refine (ih (first + 1) (body.drop 10) _).trans ?_
      rw [List.length_append, List.length_singleton]
      omega

/-- Triples are only added at the map's end. -/
theorem prefix_deserialize (le : Bool) (n first : Nat) (body : List Byte) (m : List RevEntry) :
    m <+: (deserialize le n first body m).1 := by
  induction n generalizing first body m with
  | zero => exact List.prefix_rfl
  | succ n ih =>
    rcases deserialize_first_cases le n first body m with
      ⟨-, hd⟩ | ⟨-, -, -, hd⟩ | ⟨-, -, -, hd⟩ | ⟨-, -, -, hd⟩
    · rw [hd]
    · rw [hd]
    · rw [hd]; exact ih (first + 1) (body.drop 10) m
    · rw [hd]; exact (List.prefix_append m _).trans (ih (first + 1) (body.drop 10) _)

/-! ### The entry that an error names -/

/-- When the entries after an accepted first one fail at entry `k`, the region fails at entry `k + 1`. -/
theorem firstFailing_of_drop {le : Bool} {body : List Byte} {m : List RevEntry} {n first : Nat} {e : CmdError} {info : Nat}
    (h0 : EntryAccepted le body m 0)
    (h : ∃ k, k < n ∧ (∀ j, j < k → EntryAccepted le (body.drop 10) m j) ∧
      EntryFails le (body.drop 10) m (first + 1) k e info) :
    ∃ k, k < n + 1 ∧ (∀ j, j < k → EntryAccepted le body m j) ∧ EntryFails le body m first k e info := by
  obtain ⟨k, hk, hacc, hfail⟩ := h
  refine ⟨k + 1, Nat.succ_lt_succ hk, fun j hj => ?_, hfail.of_drop⟩
  cases j with
  | zero => exact h0
  | succ j => exact (hacc j (Nat.lt_of_succ_lt_succ hj)).of_drop

/-- An error of the codebook region is that of its first failing entry (R185, R186, R224). -/
theorem deserialize_firstFailing {le : Bool} {n first : Nat} {body : List Byte} {m m' : List RevEntry} {e : CmdError} {info : Nat}
    (h : deserialize le n first body m = (m', some (e, info))) :
    ∃ k, k < n ∧ (∀ j, j < k → EntryAccepted le body m' j) ∧ EntryFails le body m' first k e info := by
  induction n generalizing first body m with
  | zero => cases h
  | succ n ih =>
    rcases deserialize_first_cases le n first body m with
      ⟨hlen, hd⟩ | ⟨h1, h64, ⟨s, hs, hne⟩, hd⟩ | ⟨h1, h64, hfound, hd⟩ | ⟨h1, h64, hfree, hd⟩ <;> rw [hd] at h
    · cases h
      exact ⟨0, Nat.succ_pos n, fun j hj => absurd hj (Nat.not_lt_zero j), .inl ⟨rfl, rfl, hlen⟩⟩
    · cases h
      exact ⟨0, Nat.succ_pos n, fun j hj => absurd hj (Nat.not_lt_zero j), .inr ⟨rfl, rfl, h1, h64, s, hne, hs⟩⟩
    · have hm := prefix_deserialize le n (first + 1) (body.drop 10) m
      rw [h] at hm
      exact firstFailing_of_drop (.mono hm ⟨h1, h64, hfound⟩) (ih h)
    · have hm := prefix_deserialize le n (first + 1) (body.drop 10)
        (m ++ [{ len := entryLen body 0, val := entryVal le body 0, sym := entrySym body 0 }])
      rw [h] at hm
      refine firstFailing_of_drop (.mono hm ⟨h1, h64, ?_⟩) (ih h)
      rw [entryFound, rmapFind_append_of_none _ hfree]
      simp [rmapFind]

/-- DECODE ends in the error that its codebook region ends in (R180, R224). -/
theorem decodeStages_of_deserialize_error {l : Latched} {p : Platform} {C : List Byte} (w : Work) {e : CmdError} {info : Nat}
    (hlen : 2 + 10 * (C.getD 0 0).toNat ≤ C.length)
    (h : (deserialize l.blkle (C.getD 0 0).toNat 0 (C.drop 1) []).2 = some (e, info)) :
    decodeStages l p C w = ({ w with rmap := (deserialize l.blkle (C.getD 0 0).toNat 0 (C.drop 1) []).1 }, .raise e info) := by
  rcases decodeStages_cases l p C w with ⟨hshort, -⟩ | ⟨-, e', info', hr, hd⟩ | ⟨-, hr, -⟩
  · omega
  · cases hr.symm.trans h; exact hd
  · cases hr.symm.trans h

end Sys2Proof.Machine

open Sys2Proof Sys2Proof.Machine

/-- Settles O48: the map's invariant, its growth by at most one triple an entry, and the first failing entry, each by induction over
the entries. -/
theorem reverseMapIsAMap : Obligations.ReverseMapIsAMap := by
  constructor
  · intro le n body m r h
    have hinv := deserialize_revMapInv (le := le) (n := n) (first := 0) (body := body) .nil
    have hlen := deserialize_length_le le n 0 body []
    rw [h] at hinv hlen
    refine ⟨by simpa using hlen, hinv.keys, hinv.legal, fun e info he => ?_⟩
    subst he
    obtain ⟨k, hk, hacc, hfail⟩ := deserialize_firstFailing h
    rw [EntryFails, Nat.zero_add] at hfail
    exact ⟨k, hk, hacc, hfail⟩
  · intro l p C w n r hlen e info hr
    exact decodeStages_of_deserialize_error w hlen hr

end

section
/-! ## Memory at a command's end and at a host access

The completion step writes no byte outside its destination window and touches no register but STATUS, OUT_LEN and ERR_INFO (O28); a
host access outside the windows with duties in force sees and changes memory alone (O57). -/

namespace Sys2Proof.Machine

/-! ### The frame of the completion step -/

/-- What a command that ran from `s` to `t` leaves as it was (R70, R118, R229): every byte outside its destination window, the
operand registers, the flags of other commands, and what is not the block's. -/
structure CommandFrame (s t : State) : Prop where
  mem : ∀ a, ¬(s.latched.dstAddr.toNat ≤ a ∧ a < s.latched.dstAddr.toNat + s.latched.dstCap.toNat) → t.mem.read a = s.mem.read a
  ctrl : t.ctrl = s.ctrl
  srcAddr : t.srcAddr = s.srcAddr
  srcLen : t.srcLen = s.srcLen
  dstAddr : t.dstAddr = s.dstAddr
  dstCap : t.dstCap = s.dstCap
  latched : t.latched = s.latched
  cmdOvr : t.cmdOvr = s.cmdOvr
  lastOp : t.lastOp = s.lastOp
  platform : t.platform = s.platform
  inputs : t.inputs = s.inputs

/-- The frame does not speak of the working state, so it may start from the stages' own. -/
theorem CommandFrame.of_with_work {s t : State} {w : Work} (h : CommandFrame { s with work := w } t) : CommandFrame s t :=
  { h with }

theorem raise_commandFrame (e : CmdError) (info : Nat) (s : State) : CommandFrame s (raise e info s) where
  mem := fun _ ha => read_memoryAfterError_outside e s ha
  ctrl := rfl
  srcAddr := rfl
  srcLen := rfl
  dstAddr := rfl
  dstCap := rfl
  latched := rfl
  cmdOvr := rfl
  lastOp := rfl
  platform := rfl
  inputs := rfl

/-- An output that fits the destination's capacity stays inside the window. -/
theorem finish_commandFrame {out : List Byte} {s : State} (hlen : out.length ≤ s.latched.dstCap.toNat) :
    CommandFrame s (finish out s) where
  mem := fun _ ha => Memory.read_writeBytes_outside _ _ (by omega)
  ctrl := rfl
  srcAddr := rfl
  srcLen := rfl
  dstAddr := rfl
  dstCap := rfl
  latched := rfl
  cmdOvr := rfl
  lastOp := rfl
  platform := rfl
  inputs := rfl

/-- However a command ends, it keeps its frame. -/
theorem completeCommand_commandFrame {s t : State} (ht : completeCommand s = .next t) : CommandFrame s t := by
  rcases completeCommand_cases s with ⟨-, hc⟩ | ⟨-, e, info, -, hc⟩ | ⟨-, -, w, r, hst, hc⟩ <;>
    cases hc.symm.trans ht
  · exact raise_commandFrame e info s
  · cases r with
    | raise e info => exact (raise_commandFrame e info { s with work := w }).of_with_work
    | finish out =>
      exact (finish_commandFrame (s := { s with work := w }) (stagesOf_finish_length hst)).of_with_work

/-! ### Host memory accesses -/

theorem Span.has_false_iff (w : Span) (a : Nat) : w.has a = false ↔ ¬(w.lo ≤ a ∧ a < w.hi) := by
  rw [← Span.has_iff, Bool.not_eq_true]

/-- Spans do not overlap exactly when the first has none of the second's addresses. -/
theorem Span.overlaps_eq_false_iff (v w : Span) : v.overlaps w = false ↔ ∀ a, w.has a = true → v.has a = false := by
  rw [Span.overlaps_comm, ← Bool.not_eq_true, Span.overlaps_iff_exists]
  simp only [not_exists, not_and, Bool.not_eq_true]

/-- A span that shares no address with a duty's two windows lies apart from every window with duties. -/
theorem dutyWindows_apart {s : State} {w : Span}
    (h : ∀ d ∈ s.duties, ∀ a, w.has a = true → d.source.has a = false ∧ d.destination.has a = false) :
    ∀ v ∈ s.dutyWindows, v.overlaps w = false := by
  intro v hv
  obtain ⟨d, hd, rfl | rfl⟩ := (mem_dutyWindows s v).mp hv
  · exact (Span.overlaps_eq_false_iff _ w).mpr fun a ha => (h d hd a ha).1
  · exact (Span.overlaps_eq_false_iff _ w).mpr fun a ha => (h d hd a ha).2

/-- A host write that stays in memory and off the windows with duties stores its bytes (R87). -/
theorem hostMemWrite_of_apart {s : State} {addr : Nat} {data : List Byte} (hspace : addr + data.length ≤ Config.addressSpace)
    (hapart : ∀ v ∈ s.dutyWindows, v.overlaps { lo := addr, hi := addr + data.length } = false) :
    hostMemWrite addr data s = .next { s with mem := s.mem.writeBytes addr data } := by
  rcases hostMemWrite_cases addr data s with ⟨hout, -⟩ | ⟨-, ⟨v, hv, hover⟩, -⟩ | ⟨-, -, hw⟩
  · omega
  · rw [hapart v hv] at hover
    cases hover
  · exact hw

/-- A host read that stays in memory completes (R87). -/
theorem hostMemRead_of_inSpace {addr count : Nat} (hspace : addr + count ≤ Config.addressSpace) (s : State) :
    hostMemRead addr count s =
      .next { s with hostBytes := (List.range' addr count).map (hostByte s), draws := s.draws + 1 } :=
  if_neg (Nat.not_lt.mpr hspace)

/-- Off the destinations with duties and off memory with side effects a host read sees memory's byte (R73). -/
theorem hostByte_eq_read {s : State} {a : Nat} (hdest : ∀ d ∈ s.duties, d.destination.has a = false)
    (hplain : ∀ v ∈ s.platform.sideEffects, v.has a = false) : hostByte s a = s.mem.read a := by
  have hd : s.duties.any (fun d => d.destination.has a) = false := by simpa using hdest
  have hp : inSpans s.platform.sideEffects a = false := by simpa [inSpans] using hplain
  rw [hostByte, hd, hp]
  rfl

end Sys2Proof.Machine

open Sys2Proof Sys2Proof.Machine

/-- Settles O28, from the frame of each of the completion step's ends. -/
theorem commandWritesOnlyItsDestinationWindow : Obligations.CommandWritesOnlyItsDestinationWindow := by
  intro s t ht
  have h := completeCommand_commandFrame ht
  exact ⟨h.mem, h.ctrl, h.srcAddr, h.srcLen, h.dstAddr, h.dstCap, h.latched, h.cmdOvr, h.lastOp, h.platform, h.inputs⟩

/-- Settles O57: a write off the windows is `Memory.writeBytes`, and a read off the destinations and side effects is `Memory.read`. -/
theorem hostWriteIsVisible : Obligations.HostWriteIsVisible := by
  constructor
  · intro s addr data hwf hspace hduties
    have hapart : ∀ v ∈ s.dutyWindows, v.overlaps { lo := addr, hi := addr + data.length } = false := by
      refine dutyWindows_apart fun d hd a ha => ?_
      obtain ⟨hlo, hhi⟩ := (Span.has_iff _ a).mp ha
      simpa only [Span.has_false_iff] using hduties d hd a hlo hhi
    refine ⟨_, hostMemWrite_of_apart hspace hapart, rfl, fun i hi => ?_, fun a ha => ?_⟩
    · rw [Memory.read_writeBytes_inside hwf hspace hi, List.getElem?_eq_getElem hi]
    · exact Memory.read_writeBytes_outside s.mem data ha
  · intro s addr n hspace
    refine ⟨_, hostMemRead_of_inSpace hspace s, rfl, by simp, fun i hi hdest hplain => ?_⟩
    have hbyte : hostByte s (addr + i) = s.mem.read (addr + i) := by
      simp only [← Span.has_false_iff] at hdest hplain
      exact hostByte_eq_read hdest hplain
    simp [hi, hbyte]

end

section
/-! ## Decoding and encoding

Decode and encode are inverse (O10, O11), which words are which commands (O8, O9), which host accesses run (O7), and that a step runs
the transaction it decodes (O5). -/

namespace Sys2Proof

/-! ### Command words (R80 to R83) -/

/-- A command word is fixed by its RSVD and OP fields (R80). -/
theorem command_eq_iff (w v : Word) :
    w = v ↔ w.extractLsb' 4 28 = v.extractLsb' 4 28 ∧ w.extractLsb' 0 4 = v.extractLsb' 0 4 := by
  refine ⟨fun h => ⟨by rw [h], by rw [h]⟩, fun ⟨hrsvd, hop⟩ => BitVec.eq_of_toNat_eq ?_⟩
  rw [Machine.command_toNat w, Machine.command_toNat v, hrsvd, hop]

/-- The decoder names a command exactly for its word, and calls a word illegal exactly when it is no command's (R82, R83). -/
theorem decodeCommand_iff (w : Word) :
    (decodeCommand w = .nop ↔ w = 0#32) ∧ (decodeCommand w = .encode ↔ w = 1#32) ∧ (decodeCommand w = .decode ↔ w = 2#32) ∧
    (decodeCommand w = .illegal w ↔ w ≠ 0#32 ∧ w ≠ 1#32 ∧ w ≠ 2#32) := by
  rw [Machine.decodeCommand_eq]
  by_cases h0 : w = 0#32
  · simp [h0]
  by_cases h1 : w = 1#32
  · simp [h1]
  by_cases h2 : w = 2#32
  · simp [h2]
  simp [h0, h1, h2]

theorem legalCommand_eq_false_iff (w : Word) : legalCommand w = false ↔ w ≠ 0#32 ∧ w ≠ 1#32 ∧ w ≠ 2#32 := by
  simp [legalCommand, and_assoc]

/-- An illegal word decodes to itself (R83). -/
theorem decodeCommand_of_not_legal {w : Word} (h : legalCommand w = false) : decodeCommand w = .illegal w :=
  (decodeCommand_iff w).2.2.2.mpr ((legalCommand_eq_false_iff w).mp h)

/-- What a command word decodes to is well formed and encodes to the word. -/
theorem decodeCommand_encode (w : Word) : (decodeCommand w).wellFormed = true ∧ encode (decodeCommand w) = .command w := by
  rw [Machine.decodeCommand_eq]
  by_cases h0 : w = 0#32
  · simp [h0, Instr.wellFormed, encode]
  by_cases h1 : w = 1#32
  · simp [h1, Instr.wellFormed, encode]
  by_cases h2 : w = 2#32
  · simp [h2, Instr.wellFormed, encode]
  have hlegal : legalCommand w = false := (legalCommand_eq_false_iff w).mpr ⟨h0, h1, h2⟩
  simp [h0, h1, h2, Instr.wellFormed, encode, hlegal]

/-! ### Transaction descriptors (R86) -/

@[simp] theorem Reg.ofIndex_index (r : Reg) : Reg.ofIndex r.index = r := by
  cases r with
  | reserved k => revert k; decide
  | _ => rfl

@[simp] theorem Reg.index_ofIndex : ∀ i : BitVec 4, (Reg.ofIndex i).index = i := by decide

/-- The IDX field of a descriptor is its register's index (R86). -/
theorem descriptor_index (write : Bool) (r : Reg) : (descriptor write r).extractLsb' 2 4 = r.index := by
  ext i hi
  rw [BitVec.getElem_extractLsb', descriptor, BitVec.getLsbD_append, if_neg (by omega), BitVec.getLsbD_append,
    if_pos (by omega), Nat.add_sub_cancel_left, BitVec.getLsbD_eq_getElem hi]

/-- A byte whose bit 7 and two low bits are 0 is the descriptor of its fields (R86). -/
theorem descriptor_of_fields {t : Byte} (h7 : t.getLsbD 7 = false) (h0 : t.extractLsb' 0 2 = 0#2) :
    descriptor (t.getLsbD 6) (Reg.ofIndex (t.extractLsb' 2 4)) = t := by
  rw [descriptor, Reg.index_ofIndex]
  ext i hi
  rw [← BitVec.getLsbD_eq_getElem, ← BitVec.getLsbD_eq_getElem]
  simp only [BitVec.getLsbD_append]
  split
  case isTrue hlow =>
    have hbit := congrArg (BitVec.getLsbD · i) h0
    simpa [hlow] using hbit.symm
  case isFalse hlow =>
    split
    case isTrue hidx => simp [hidx, show 2 + (i - 2) = i by omega]
    case isFalse hidx =>
      rcases (by omega : i = 6 ∨ i = 7) with rfl | rfl
      · simp
      · simpa using h7.symm
/-- A transaction's register and data, as its descriptor's fields name them (R86). -/
def transactionOf (t : Byte) (data : Word) : Instr :=
  if t.getLsbD 6 then .wr (Reg.ofIndex (t.extractLsb' 2 4)) data else .rd (Reg.ofIndex (t.extractLsb' 2 4))

/-- Everything a descriptor can decode to (R86). -/
theorem decodeTransaction_cases (t : Byte) (data : Word) :
    (t.getLsbD 7 = true ∧ decodeTransaction t data = .error .notADescriptor) ∨
    (t.getLsbD 7 = false ∧ t.extractLsb' 0 2 ≠ 0#2 ∧ decodeTransaction t data = .error .misaligned) ∨
    (t.getLsbD 7 = false ∧ t.extractLsb' 0 2 = 0#2 ∧ decodeTransaction t data = .ok (transactionOf t data)) := by
  unfold decodeTransaction
  cases h7 : t.getLsbD 7
  · by_cases h0 : t.extractLsb' 0 2 = 0#2
    · refine .inr (.inr ⟨rfl, h0, (if_neg (not_not.mpr h0)).trans ?_⟩)
      unfold transactionOf
      split <;> rfl
    · exact .inr (.inl ⟨rfl, h0, if_pos h0⟩)
  · exact .inl ⟨rfl, rfl⟩

theorem decodeTransaction_descriptor (write : Bool) (r : Reg) (data : Word) :
    decodeTransaction (descriptor write r) data = .ok (if write then .wr r data else .rd r) := by
  obtain ⟨h7, h6, h0⟩ := Laws.EncodedForm.descriptor_fields write r
  rcases decodeTransaction_cases (descriptor write r) data with ⟨h, -⟩ | ⟨-, h, -⟩ | ⟨-, -, hd⟩
  · rw [h7] at h; cases h
  · exact absurd h0 h
  · rw [hd, transactionOf, h6, descriptor_index, Reg.ofIndex_index]

theorem encode_transactionOf {t : Byte} (h7 : t.getLsbD 7 = false) (h0 : t.extractLsb' 0 2 = 0#2) (data : Word) :
    encode (transactionOf t data) = .bus t (if t.getLsbD 6 then data else 0#32) := by
  have ht := descriptor_of_fields h7 h0
  unfold transactionOf
  cases h6 : t.getLsbD 6 <;> rw [h6] at ht
  · exact congrArg (HostWord.bus · 0) ht
  · exact congrArg (HostWord.bus · data) ht

theorem transactionOf_wellFormed (t : Byte) (data : Word) : (transactionOf t data).wellFormed = true := by
  unfold transactionOf
  split <;> rfl

/-- The low two bits of a descriptor are its offset within a register word (R86). -/
theorem extractLsb'_two_eq_zero_iff (t : Byte) : t.extractLsb' 0 2 = 0#2 ↔ t.toNat % 4 = 0 := by
  rw [← BitVec.toNat_inj, BitVec.extractLsb'_toNat]
  simp

/-! ### Raw bus accesses (R85) -/

/-- The transaction of a raw access to register `r`: a write if it brings data. -/
def accessOf (r : Reg) : Option Word → Instr
  | some data => .wr r data
  | none => .rd r

/-- Everything a raw access at an offset from REG_BASE can decode to, in the order of the refusals (R85). -/
theorem decodeAccess_cases (off : Word) (bytes : Nat) (write : Option Word) :
    (64 ≤ off.toNat ∧ decodeAccess (Config.regBase + off) bytes write = .error .outsideWindow) ∨
    (off.toNat < 64 ∧ bytes ≠ 4 ∧ decodeAccess (Config.regBase + off) bytes write = .error .badWidth) ∨
    (off.toNat < 64 ∧ bytes = 4 ∧ off.toNat % 4 ≠ 0 ∧
      decodeAccess (Config.regBase + off) bytes write = .error .misaligned) ∨
    (off.toNat < 64 ∧ bytes = 4 ∧ off.toNat % 4 = 0 ∧
      decodeAccess (Config.regBase + off) bytes write =
        .ok (accessOf (Reg.ofIndex (BitVec.ofNat 4 (off.toNat / 4))) write)) := by
  have hoff : Config.regBase + off - Config.regBase = off := by rw [BitVec.add_comm, BitVec.add_sub_cancel]
  simp only [decodeAccess, hoff]
  by_cases hwin : 64 ≤ off.toNat
  · exact .inl ⟨hwin, if_pos hwin⟩
  rw [if_neg hwin]
  have hwin' : off.toNat < 64 := Nat.lt_of_not_le hwin
  by_cases hwidth : bytes = 4
  · rw [if_neg (not_not.mpr hwidth)]
    by_cases halign : off.toNat % 4 = 0
    · refine .inr (.inr (.inr ⟨hwin', hwidth, halign, ?_⟩))
      rw [if_neg (not_not.mpr halign)]
      cases write <;> rfl
    · exact .inr (.inr (.inl ⟨hwin', hwidth, halign, if_pos halign⟩))
  · exact .inr (.inl ⟨hwin', hwidth, if_pos hwidth⟩)

end Sys2Proof

namespace Sys2Proof.Machine

/-! ### The step on an access -/

theorem step_host_ok {s : State} {t : HostWord} {rest : List Input} {i : Instr} (h : s.inputs = .host t :: rest)
    (hd : decode t = .ok i) : step s = exec i { s with inputs := rest } := by
  rw [step_host h, hd]

theorem step_host_error {s : State} {t : HostWord} {rest : List Input} {e : DecodeError} (h : s.inputs = .host t :: rest)
    (hd : decode t = .error e) : step s = .refused (.illegalAccess e) := by
  rw [step_host h, hd]

theorem decodeTableWord_eq_some {nbits w : Nat} {i : Instr} (h : decodeTableWord nbits w = some i) :
    decode (tableWord nbits w) = .ok i := by
  unfold decodeTableWord at h
  split at h <;> cases h
  assumption

end Sys2Proof.Machine

open Sys2Proof Sys2Proof.Machine

/-- Settles O10: an illegal word is none of the three commands, and a descriptor's fields name its register. -/
theorem decodeOfEncodeIsTheInstruction : Obligations.DecodeOfEncodeIsTheInstruction := by
  intro i hi
  cases i with
  | nop => rfl
  | encode => rfl
  | decode => rfl
  | illegal w => exact congrArg Except.ok (decodeCommand_of_not_legal (by simpa [Instr.wellFormed] using hi))
  | rd r => exact decodeTransaction_descriptor false r 0
  | wr r data => exact decodeTransaction_descriptor true r data

/-- Settles O11, format by format; an accepted descriptor is determined by its W and IDX fields. -/
theorem encodeOfDecodeIsTheWord : Obligations.EncodeOfDecodeIsTheWord := by
  intro w i h
  cases w with
  | command v =>
    cases h
    exact decodeCommand_encode v
  | bus t data =>
    rcases decodeTransaction_cases t data with ⟨-, hd⟩ | ⟨-, -, hd⟩ | ⟨h7, h0, hd⟩ <;> cases hd.symm.trans h
    exact ⟨transactionOf_wellFormed t data, encode_transactionOf h7 h0 data⟩

/-- Settles O9: a command word is fixed by its two fields, and the decoder is one comparison a command. -/
theorem everyOtherCommandWordIsIllegal : Obligations.EveryOtherCommandWordIsIllegal := by
  intro w
  obtain ⟨hnop, hencode, hdecode, hillegal⟩ := decodeCommand_iff w
  exact ⟨hnop.trans (command_eq_iff w 0#32), hencode.trans (command_eq_iff w 1#32), hdecode.trans (command_eq_iff w 2#32),
    hillegal⟩

/-- Settles O8, by running the decoder on each word. -/
theorem specWordsDecodeToTheirInstructions : Obligations.SpecWordsDecodeToTheirInstructions := by
  unfold Obligations.SpecWordsDecodeToTheirInstructions
  decide

/-- Settles O7: every case of the decoder's refusals and of the one access that runs, at the offset from REG_BASE. -/
theorem onlyAlignedWordAccessesRun : Obligations.OnlyAlignedWordAccessesRun := by
  constructor
  · intro s t data rest hs h7 halign
    refine step_host_error hs ?_
    rcases decodeTransaction_cases t data with ⟨h, -⟩ | ⟨-, -, hd⟩ | ⟨-, h0, -⟩
    · rw [h7] at h; cases h
    · exact hd
    · exact absurd ((extractLsb'_two_eq_zero_iff t).mp h0) halign
  · intro s off bytes write rest hs
    rw [step_access hs]
    rcases decodeAccess_cases off bytes write with
      ⟨hwin, hd⟩ | ⟨hwin, hwidth, hd⟩ | ⟨hwin, hwidth, halign, hd⟩ | ⟨hwin, hwidth, halign, hd⟩ <;> rw [hd]
    · exact ⟨fun _ => rfl, fun h => absurd h hwin.not_gt, fun h => absurd h hwin.not_gt, fun h => absurd h hwin.not_gt⟩
    · exact ⟨fun h => absurd h hwin.not_ge, fun _ _ => rfl, fun _ h => absurd h hwidth, fun _ h => absurd h hwidth⟩
    · exact ⟨fun h => absurd h hwin.not_ge, fun _ h => absurd hwidth h, fun _ _ _ => rfl, fun _ _ h => absurd h halign⟩
    · exact ⟨fun h => absurd h hwin.not_ge, fun _ h => absurd hwidth h, fun _ _ h => absurd halign h,
        fun _ _ _ => by cases write <;> rfl⟩

/-- Settles O5: the step's case of a host word, and for a table word the same case on the state with that word placed first. -/
theorem stepRunsTheDecodedTransaction : Obligations.StepRunsTheDecodedTransaction :=
  ⟨fun _ _ _ _ hs hd => step_host_ok hs hd,
    fun s nbits w _ h => step_host_ok (s := s.withFetchWord nbits w) rfl (decodeTableWord_eq_some h)⟩

end

section
/-! ## Reading a container back

A packed payload unpacks to its bits (O44), a codebook entry reads back as written (O45), an accepted codebook registers every entry
(O49), and the container of a full alphabet overruns (O54). -/

namespace Sys2Proof.Machine

/-! ### The payload (R98, R189) -/

theorem eight_mul_payloadBytes (B : Nat) : 8 * payloadBytes B = B + padCount B := by
  have := (padCount_total B).1
  unfold payloadBytes
  omega

theorem payloadToBits_packBits (P : List Bool) :
    payloadToBits (packBits (payloadBytes P.length) (P ++ List.replicate (padCount P.length) false)) (padCount P.length) = P := by
  have hlen : (P ++ List.replicate (padCount P.length) false).length = 8 * payloadBytes P.length := by
    simp [eight_mul_payloadBytes]
  rw [payloadToBits, flatMap_msbBits_packBits _ hlen]
  simp

/-! ### One codebook entry (R92, R156, R184) -/

section
variable (le : Bool) (cbLen cbVal : List Nat) (s : Byte) (rest : List Byte)

theorem entrySym_codebookEntry : entrySym (codebookEntry le cbLen cbVal s ++ rest) 0 = s := rfl

theorem entryLen_codebookEntry (hlen : entry cbLen s ≤ 64) :
    entryLen (codebookEntry le cbLen cbVal s ++ rest) 0 = entry cbLen s := by
  have hbyte : entryLen (codebookEntry le cbLen cbVal s ++ rest) 0 = (BitVec.ofNat 8 (entry cbLen s)).toNat := rfl
  rw [hbyte, BitVec.toNat_ofNat, Nat.mod_eq_of_lt (by omega)]

theorem entryVal_codebookEntry (hlen : entry cbLen s ≤ 64) (hval : entry cbVal s < 2 ^ entry cbLen s) :
    entryVal le (codebookEntry le cbLen cbVal s ++ rest) 0 = entry cbVal s := by
  have hblock : ((codebookEntry le cbLen cbVal s ++ rest).drop 2).take 8 = blockBytes le (entry cbVal s) := by
    have hdrop : (codebookEntry le cbLen cbVal s ++ rest).drop 2 = blockBytes le (entry cbVal s) ++ rest := rfl
    rw [hdrop, List.take_left' (blockBytes_length le _)]
  have h64 : entry cbVal s < 2 ^ 64 := hval.trans_le (Nat.pow_le_pow_right (by decide) hlen)
  rw [entryVal, entryLen_codebookEntry le cbLen cbVal s rest hlen, hblock, blockValue_blockBytes le h64, Nat.mod_eq_of_lt hval]

end

/-! ### An accepted codebook (R184, R186) -/

/-- The map gives a triple just appended to it, if it did not hold the triple's key before. -/
theorem rmapFind_append_singleton {m : List RevEntry} {len val : Nat} (sym : Byte) (hfree : rmapFind m len val = none) :
    rmapFind (m ++ [{ len := len, val := val, sym := sym }]) len val = some sym := by
  rw [rmapFind_append_of_none _ hfree]
  simp [rmapFind]

/-- When no entry fails, each of them was accepted. -/
theorem deserialize_accepted {le : Bool} {n first : Nat} {body : List Byte} {m m' : List RevEntry}
    (h : deserialize le n first body m = (m', none)) : ∀ k, k < n → EntryAccepted le body m' k := by
  induction n generalizing first body m with
  | zero => exact fun k hk => absurd hk (Nat.not_lt_zero k)
  | succ n ih =>
    have hrest {m₁ : List RevEntry} (h0 : EntryAccepted le body m₁ 0)
        (hd : deserialize le n (first + 1) (body.drop 10) m₁ = (m', none)) : ∀ k, k < n + 1 → EntryAccepted le body m' k := by
      have hm := prefix_deserialize le n (first + 1) (body.drop 10) m₁
      rw [hd] at hm
      intro k hk
      cases k with
      | zero => exact h0.mono hm
      | succ k => exact (ih hd k (Nat.lt_of_succ_lt_succ hk)).of_drop
    rcases deserialize_first_cases le n first body m with
      ⟨-, hd⟩ | ⟨-, -, -, hd⟩ | ⟨h1, h64, hfound, hd⟩ | ⟨h1, h64, hfree, hd⟩ <;> rw [hd] at h
    · cases h
    · cases h
    · exact hrest ⟨h1, h64, hfound⟩ h
    · exact hrest ⟨h1, h64, rmapFind_append_singleton _ hfree⟩ h

/-! ### The full alphabet (R91, R199) -/

/-- Bits that extend a candidate to 64 bits without ever matching, and one bit more: the walk overruns at that bit (R191). The fold is
the candidate's value after `k` bits, `bitsVal` of them when the candidate starts empty. -/
theorem walkBits_overrun (l : Latched) (p : Platform) {m : List RevEntry} (i : Nat) {T : List Bool} {w : Walk} {j : Nat}
    (hfull : w.candLen + j = 64) (hT : j < T.length)
    (hfree : ∀ k, 1 ≤ k → k ≤ j →
      rmapFind m (w.candLen + k) ((T.take k).foldl (fun v b => 2 * v + b.toNat) w.candVal) = none) :
    (walkBits l p m i T w).2 = some (.fmtOverrun, i + j) := by
  induction j generalizing i T w with
  | zero =>
    cases T with
    | nil => cases hT
    | cons b T =>
      rcases walkStep_cases l p m i b w with ⟨-, hstep⟩ | ⟨hne, -⟩ | ⟨hne, -⟩
      · rw [walkBits_cons_of_some hstep]; rfl
      · exact absurd hfull hne
      · exact absurd hfull hne
  | succ j ih =>
    cases T with
    | nil => cases hT
    | cons b T =>
      rcases walkStep_cases l p m i b w with ⟨h64, -⟩ | ⟨-, -, hstep⟩ | ⟨-, s, hs, -⟩
      · omega
      · rw [walkBits_cons_of_none hstep, ih (i + 1) (by dsimp only; omega) (Nat.lt_of_succ_lt_succ hT), Nat.add_right_comm i 1 j]
        · rfl
        · intro k h1 hk
          have := hfree (k + 1) (by omega) (by omega)
          rwa [List.take_succ_cons, List.foldl_cons, Nat.add_comm k 1, ← Nat.add_assoc] at this
      · cases hs.symm.trans (hfree 1 (Nat.le_refl 1) (by omega))

/-- A source that holds every byte has the full alphabet (R142). -/
theorem alphabet_length_of_all {src : List Byte} (h : ∀ b : Byte, b ∈ src) : (alphabet (frequencies src)).length = 256 := by
  have hall : ∀ s ∈ (List.range 256).map (BitVec.ofNat 8), decide (1 ≤ entry (frequencies src) s) = true := by
    intro s _
    rw [decide_eq_true_eq, entry_frequencies]
    exact List.one_le_count_iff.mpr (h s)
  rw [alphabet, List.filter_eq_self.mpr hall]
  simp

/-- The container between its count byte and its padding byte: the entries and the packed payload (R89). -/
def containerBody (le : Bool) (freq cbLen cbVal : List Nat) (A src : List Byte) : List Byte :=
  let B := payloadBits freq cbLen A
  A.flatMap (codebookEntry le cbLen cbVal)
    ++ packBits (payloadBytes B) (payload cbLen cbVal src ++ List.replicate (padCount B) false)

theorem container_eq (le : Bool) (freq cbLen cbVal : List Nat) (A src : List Byte) :
    container le freq cbLen cbVal A src =
      BitVec.ofNat 8 (A.length % 256) ::
        (containerBody le freq cbLen cbVal A src ++ [BitVec.ofNat 8 (padCount (payloadBits freq cbLen A))]) := by
  simp [container, containerBody]

theorem containerBody_length (le : Bool) (freq cbLen cbVal : List Nat) (A src : List Byte) :
    (containerBody le freq cbLen cbVal A src).length = 10 * A.length + payloadBytes (payloadBits freq cbLen A) := by
  simp only [containerBody, List.length_append, flatMap_codebookEntry_length, packBits_length]

theorem payloadToBits_length (bytes : List Byte) (pad : Nat) : (payloadToBits bytes pad).length = 8 * bytes.length - pad := by
  simp [payloadToBits, Nat.mul_comm]

/-- A container that announces no entries goes to the payload stages with an empty map (R182 to R184). -/
theorem decodeStages_of_no_entries {l : Latched} {p : Platform} {C : List Byte} (w : Work) (hcount : (C.getD 0 0).toNat = 0)
    (hlen : 2 ≤ C.length) : decodeStages l p C w = expandPayload l p [] (C.drop 1) { w with rmap := [] } := by
  have hcases := decodeStages_cases l p C w
  dsimp only at hcases
  rw [hcount] at hcases
  rcases hcases with ⟨hshort, -⟩ | ⟨-, e, info, hr, -⟩ | ⟨-, -, hd⟩
  · omega
  · cases hr
  · exact hd

/-- An error of the walk over a payload of legal padding ends the payload stages (R187 to R191). -/
theorem expandPayload_of_walk_error {l : Latched} {p : Platform} {m : List RevEntry} {bytes : List Byte} {pad : Nat} (w : Work)
    {e : CmdError} {info : Nat} (hpad : pad ≤ 7) (hbits : pad ≤ 8 * bytes.length)
    (hwalk : (walkBits l p m 0 (payloadToBits bytes pad) Walk.start).2 = some (e, info)) :
    (expandPayload l p m (bytes ++ [BitVec.ofNat 8 pad]) w).2 = .raise e info := by
  have hbyte : (BitVec.ofNat 8 pad).toNat = pad := by rw [BitVec.toNat_ofNat, Nat.mod_eq_of_lt (by omega)]
  have hcases := expandPayload_cases l p m (bytes ++ [BitVec.ofNat 8 pad]) w
  dsimp only at hcases
  rw [List.dropLast_concat, List.getLastD_concat, hbyte, hwalk] at hcases
  rcases hcases with ⟨hbad, -⟩ | ⟨-, e', info', he, hx⟩ | ⟨-, hnone, -⟩
  · omega
  · cases he
    rw [hx]
  · cases hnone

end Sys2Proof.Machine

open Sys2Proof Sys2Proof.Machine

/-- Settles O44: the padded bits fill whole bytes, and unpacking whole bytes inverts packing. -/
theorem unpackingThePackedPayloadStripsThePadding : Obligations.UnpackingThePackedPayloadStripsThePadding :=
  fun P => ⟨padCount_le P.length, payloadToBits_packBits P⟩

/-- Settles O45: an empty map accepts any entry of a legal length, and the entry's fields are those that were written. -/
theorem codebookEntryReadsBackAsWritten : Obligations.CodebookEntryReadsBackAsWritten := by
  intro le cbLen cbVal s rest h1 h64 hval
  have hlen := entryLen_codebookEntry le cbLen cbVal s rest h64
  have hv := entryVal_codebookEntry le cbLen cbVal s rest h64 hval
  rcases deserialize_first_cases le 0 0 (codebookEntry le cbLen cbVal s ++ rest) [] with
    ⟨hbad, -⟩ | ⟨-, -, ⟨s', hs', -⟩, -⟩ | ⟨-, -, hs', -⟩ | ⟨-, -, -, hd⟩
  · omega
  · cases hs'
  · cases hs'
  · rw [hd, hlen, hv]; rfl

/-- Settles O49, by induction over the entries. -/
theorem everyAcceptedEntryIsRegistered : Obligations.EveryAcceptedEntryIsRegistered := by
  intro le n body m h k hk
  obtain ⟨-, -, hfound⟩ := deserialize_accepted h k hk
  exact hfound

/-- Settles O54: the count byte of 256 entries is 0, so the map is empty and the 2560 bytes of entries are walked as payload. -/
theorem legacyContainerOverruns : Obligations.LegacyContainerOverruns := by
  intro l p le cbLen cbVal src w h
  have hA := alphabet_length_of_all h
  rw [container_eq, hA, decodeStages_of_no_entries w rfl (by simp)]
  have hlen := containerBody_length le (frequencies src) cbLen cbVal (alphabet (frequencies src)) src
  have hpad := padCount_le (payloadBits (frequencies src) cbLen (alphabet (frequencies src)))
  rw [hA] at hlen
  refine expandPayload_of_walk_error _ hpad (by omega) (walkBits_overrun l p 0 (j := 64) rfl ?_ fun k _ _ => rfl)
  rw [payloadToBits_length]
  omega

end

section
/-! ## What an instruction leaves alone

No instruction reaches memory, the working state or the other agents (O16); what RD returns (O12) and WR writes (O13), register by
register; and the commands NOP (O18), ENCODE and DECODE (O19), an illegal word (O20) and any of them while BUSY (O21). -/

namespace Sys2Proof.Machine

/-! ### The frame of an instruction (R112) -/

/-- What a host access that led from `s` to `t` leaves as it was: memory, the working state, the platform, the pending acts, the
draws and the bytes of the last MEMR. -/
structure HostAccessFrame (s t : State) : Prop where
  mem : t.mem = s.mem
  work : t.work = s.work
  platform : t.platform = s.platform
  inputs : t.inputs = s.inputs
  draws : t.draws = s.draws
  hostBytes : t.hostBytes = s.hostBytes

theorem HostAccessFrame.refl (s : State) : HostAccessFrame s s := ⟨rfl, rfl, rfl, rfl, rfl, rfl⟩

theorem dropCommand_hostAccessFrame (s : State) : HostAccessFrame s (dropCommand s) := ⟨rfl, rfl, rfl, rfl, rfl, rfl⟩

theorem startCommand_hostAccessFrame (op : Op) (s : State) : HostAccessFrame s (startCommand op s) :=
  ⟨rfl, rfl, rfl, rfl, rfl, rfl⟩

theorem illegalCommand_hostAccessFrame (w : Word) (s : State) : HostAccessFrame s (illegalCommand w s) :=
  ⟨rfl, rfl, rfl, rfl, rfl, rfl⟩

theorem issue_hostAccessFrame (w : Word) (s : State) : HostAccessFrame s (issue w s) := by
  rcases issue_cases w s with ⟨-, hi⟩ | ⟨-, -, hi⟩ | ⟨-, -, hi⟩ | ⟨-, -, hi⟩ | ⟨-, -, -, -, hi⟩ <;> rw [hi]
  · exact dropCommand_hostAccessFrame s
  · exact .refl s
  · exact startCommand_hostAccessFrame .encode s
  · exact startCommand_hostAccessFrame .decode s
  · exact illegalCommand_hostAccessFrame w s

theorem clearStatus_hostAccessFrame (w : Word) (s : State) : HostAccessFrame s (clearStatus w s) := by
  rw [clearStatus_eq]
  exact ⟨rfl, rfl, rfl, rfl, rfl, rfl⟩

theorem hostRead_hostAccessFrame (r : Reg) (s : State) : HostAccessFrame s (hostRead r s) := by
  cases r <;> exact ⟨rfl, rfl, rfl, rfl, rfl, rfl⟩

theorem writeReg_hostAccessFrame (r : Reg) (w : Word) (s : State) : HostAccessFrame s (writeReg r w s) := by
  cases r with
  | cmd => exact issue_hostAccessFrame w s
  | status => exact clearStatus_hostAccessFrame w s
  | _ => exact ⟨rfl, rfl, rfl, rfl, rfl, rfl⟩

theorem afterInstr_hostAccessFrame (i : Instr) (s : State) : HostAccessFrame s (afterInstr i s) := by
  have hcmd {t : State} (ht : HostAccessFrame s t) : HostAccessFrame s (if s.phase = .busy then dropCommand s else t) := by
    split
    · exact dropCommand_hostAccessFrame s
    · exact ht
  cases i with
  | nop => exact hcmd (.refl s)
  | encode => exact hcmd (startCommand_hostAccessFrame .encode s)
  | decode => exact hcmd (startCommand_hostAccessFrame .decode s)
  | illegal w => exact hcmd (illegalCommand_hostAccessFrame w s)
  | rd r => exact hostRead_hostAccessFrame r s
  | wr r w => exact writeReg_hostAccessFrame r w s

/-! ### Registers -/

/-- A concatenation's value: the left part stands above the bits of the right one. -/
theorem toNat_append_eq_add {m n : Nat} (x : BitVec m) (y : BitVec n) : (x ++ y).toNat = x.toNat * 2 ^ n + y.toNat := by
  rw [BitVec.toNat_append, ← Nat.shiftLeft_add_eq_or_of_lt y.isLt, Nat.shiftLeft_eq]

/-- The value of STATUS, its fields at their bit positions (R25). -/
theorem statusWord_toNat (s : State) :
    s.statusWord.toNat = s.lastOp.toNat * 2 ^ 12 + s.errCode.toNat * 2 ^ 8 + s.cmdOvr.toNat * 2 ^ 3 + s.err.toNat * 2 ^ 2
      + s.done.toNat * 2 + s.busy.toNat := by
  simp only [State.statusWord, toNat_append_eq_add, BitVec.toNat_ofBool, BitVec.toNat_ofNat]
  omega

theorem busy_toNat (s : State) : s.busy.toNat = if s.phase = .busy then 1 else 0 := by
  cases h : s.phase <;> simp [State.busy, h]

/-- A read of STATUS ends the host duties unless a command runs (R270). -/
theorem hostRead_status_duties (s : State) : (hostRead .status s).duties = if s.phase = .busy then s.duties else [] := by
  cases h : s.phase <;> simp [hostRead, State.busy, h]

/-- A host read changes what the host has received, and the duties at most (R110). -/
theorem hostRead_eq (r : Reg) (s : State) :
    hostRead r s = { s with hostData := readReg r s, duties := (hostRead r s).duties } := by
  cases r <;> rfl

theorem hostRead_duties_of_ne {r : Reg} (h : r ≠ .status) (s : State) : (hostRead r s).duties = s.duties := by
  cases r with
  | status => exact absurd rfl h
  | _ => rfl

/-! ### Commands, by phase -/

section
variable {s t : State}

/-- What every command answers while BUSY: the drop (R115). -/
theorem next_command_of_busy (hp : s.phase = .busy) :
    (Host.Outcome.next (if s.phase = .busy then dropCommand s else t) : Host.Outcome State Fault Refusal) =
      .next (dropCommand s) := by
  rw [if_pos hp]

/-- What every command answers while IDLE: its own effect (R114). -/
theorem next_command_of_idle (hp : s.phase = .idle) :
    (Host.Outcome.next (if s.phase = .busy then dropCommand s else t) : Host.Outcome State Fault Refusal) = .next t := by
  rw [hp, if_neg nofun]

end

/-- A word whose RSVD field is not 0 is illegal (R83). -/
theorem decodeCommand_of_rsvd {w : Word} (h : w.extractLsb' 4 28 ≠ 0#28) : decodeCommand w = .illegal w := if_neg h

end Sys2Proof.Machine

open Sys2Proof Sys2Proof.Machine

/-- Settles O16, from the frame of each instruction. -/
theorem hostAccessLeavesMemoryAndWorkAlone : Obligations.HostAccessLeavesMemoryAndWorkAlone := by
  intro s i
  have h := afterInstr_hostAccessFrame i s
  exact ⟨_, exec_eq_next i s, h.mem, h.work, h.platform, h.inputs, h.draws, h.hostBytes⟩

/-- Settles O12: `readReg` register by register, and what a read leaves of the state. -/
theorem rdReturnsTheRegister : Obligations.RdReturnsTheRegister := by
  intro s r
  have hdata : (hostRead r s).hostData = readReg r s := by rw [hostRead_eq]
  refine ⟨hostRead r s, rfl, ?_, by rw [hdata]; exact hostRead_eq r s, fun h => hostRead_duties_of_ne h s, ?_⟩
  · rw [hdata]
    cases r with
    | ctrl => exact BitVec.toNat_setWidth_of_le (by decide)
    | status => exact (statusWord_toNat s).trans (by rw [busy_toNat])
    | _ => rfl
  · rintro rfl
    exact hostRead_status_duties s

/-- Settles O13: `writeReg` register by register, and the write-1-to-clear field by field. -/
theorem wrWritesExactlyItsRegister : Obligations.WrWritesExactlyItsRegister := by
  intro s w
  refine ⟨rfl, rfl, rfl, fun _ => rfl, ⟨_, rfl, ?_, rfl⟩, ⟨clearStatus w s, rfl, ?_⟩, rfl, rfl, rfl, rfl, rfl⟩
  · exact BitVec.toNat_setWidth 3 w
  · rw [clearStatus_eq]
    exact ⟨rfl, rfl, rfl, rfl, rfl⟩

/-- Settles O18, by NOP's two phases and the RSVD test of the decoder. -/
theorem nopChangesNothing : Obligations.NopChangesNothing :=
  ⟨by decide, fun _ hp => next_command_of_idle hp, fun _ hp => next_command_of_busy hp, fun _ h => decodeCommand_of_rsvd h⟩

/-- Settles O19: both commands run `startCommand` in IDLE, whose fields are the stated ones. -/
theorem commandStartLatchesItsOperands : Obligations.CommandStartLatchesItsOperands := by
  intro s i op hp hi
  have hexec : exec i s = .next (startCommand op s) := by
    rcases hi with ⟨rfl, rfl⟩ | ⟨rfl, rfl⟩
    · exact next_command_of_idle hp
    · exact next_command_of_idle hp
  exact ⟨startCommand op s, hexec, rfl, rfl, rfl, rfl, rfl, by cases op <;> rfl, rfl, rfl, irq_of_no_flag rfl rfl, rfl, rfl, rfl,
    rfl, rfl, rfl, rfl, rfl, rfl, rfl⟩

/-- Settles O20: an illegal word runs `illegalCommand` in IDLE. -/
theorem illegalWordRaisesIllegalCmd : Obligations.IllegalWordRaisesIllegalCmd :=
  fun _ _ hp => next_command_of_idle hp

/-- Settles O21: while BUSY every command, and every word written to CMD, is dropped. -/
theorem commandWhileBusyIsDropped : Obligations.CommandWhileBusyIsDropped := by
  intro s w hp
  exact ⟨next_command_of_busy hp, next_command_of_busy hp, next_command_of_busy hp, next_command_of_busy hp,
    next_command_of_busy hp⟩

end

section
/-! ## How a running command ends

The two common checks (O23, O24), error entry (O25), success (O29), that one of the two always comes (O26), and the block agent's turn
(O6). -/

namespace Sys2Proof.Machine

/-! ### The errors of the common checks (R119, R120) -/

/-- The configuration check, from the latched operands (R119). -/
theorem configCheck_eq (l : Latched) :
    configCheck l =
      if 2 ^ 32 < l.srcAddr.toNat + l.srcLen.toNat then some 1
      else if 2 ^ 32 < l.dstAddr.toNat + l.dstCap.toNat then some 2
      else if 0 < l.srcLen.toNat ∧ 0 < l.dstCap.toNat ∧ l.srcAddr.toNat < l.dstAddr.toNat + l.dstCap.toNat ∧
        l.dstAddr.toNat < l.srcAddr.toNat + l.srcLen.toNat then some 3
      else none := rfl

theorem commonChecks_of_config {s : State} {info : Nat} (h : configCheck s.latched = some info) :
    commonChecks s = some (.config, info) := by
  rw [commonChecks, h]

theorem commonChecks_of_failing {s : State} {a : Nat} (hconf : configCheck s.latched = none)
    (hfail : firstFailing s.platform s.latched.source = some a) : commonChecks s = some (.io, a) := by
  rw [commonChecks, hconf, hfail]

/-- The lowest address of a span at which `memOk` is false (R120, R153). -/
theorem firstFailing_eq_some {p : Platform} {w : Span} {a : Nat} (hlo : w.lo ≤ a) (hhi : a < w.hi) (hfail : p.memOk a = false)
    (hok : ∀ b, w.lo ≤ b → b < a → p.memOk b = true) : firstFailing p w = some a := by
  refine (firstIn_eq_some_iff p.failing w a).mpr ⟨(Span.has_iff w a).mpr ⟨hlo, hhi⟩, by simpa [Platform.memOk] using hfail, ?_⟩
  intro b hb hin
  by_contra hlt
  have hb' := hok b ((Span.has_iff w b).mp hb).1 (Nat.lt_of_not_le hlt)
  simp [Platform.memOk, hin] at hb'

/-! ### Errors (R122, R220, R228, R229) -/

theorem CmdError.code_eq_two_iff (e : CmdError) : e.code = 0x2#4 ↔ e = .config := by
  cases e <;> decide

theorem memoryAfterError_of_no_write {e : CmdError} (h : e = .config ∨ e = .illegalCmd) (s : State) :
    memoryAfterError e s = s.mem := by
  rcases h with rfl | rfl <;> rfl

/-- After an error other than CONFIG and ILLEGAL_CMD a destination byte is the free value of the error's draw (R229). -/
theorem read_memoryAfterError_inside {e : CmdError} (hill : e ≠ .illegalCmd) (hconf : e ≠ .config) {s : State} {a : Nat}
    (hlo : s.latched.dstAddr.toNat ≤ a) (hhi : a < s.latched.dstAddr.toNat + s.latched.dstCap.toNat) (hspace : a < 2 ^ 32) :
    (memoryAfterError e s).read a = Config.freeByte s.draws a := by
  rw [memoryAfterError_of_ne hill hconf]
  exact Memory.read_unspecify_inside _ _ _ ((Latched.destination_clip_has s.latched a).mpr ⟨hlo, hhi, hspace⟩)

/-- With legal windows a command's end does not bring ERRCODE to CONFIG (R119). -/
theorem completeCommand_errCode_ne_config {s t : State} (hconf : configCheck s.latched = none) (hs : s.errCode ≠ 0x2#4)
    (ht : completeCommand s = .next t) : t.errCode ≠ 0x2#4 := by
  rcases completeCommand_cases s with ⟨-, hc⟩ | ⟨-, e, info, hchecks, hc⟩ | ⟨-, -, w, r, hst, hc⟩ <;>
    cases hc.symm.trans ht
  · rw [raise_errCode, Ne, CmdError.code_eq_two_iff]
    rcases commonChecks_error hchecks with ⟨-, hinfo⟩ | ⟨rfl, -, -⟩
    · rw [hconf] at hinfo; cases hinfo
    · exact nofun
  · cases r with
    | finish out => exact hs
    | raise e info =>
      rw [endCommand, raise_errCode, Ne, CmdError.code_eq_two_iff]
      exact (stagesOf_raise hst).2

/-! ### The end of a command (R121 to R123) -/

/-- What the end of a command looks like to the host: success without an error, or an error of R222 with OUT_LEN 0. -/
def SuccessOrError (t : State) : Prop :=
  (t.done = true ∧ t.err = false ∧ t.errCode = 0 ∧ t.errInfo = 0) ∨
    (t.done = false ∧ t.err = true ∧ 2 ≤ t.errCode.toNat ∧ t.errCode.toNat ≤ 12 ∧ t.outLen = 0)

theorem raise_successOrError {e : CmdError} (he : e ≠ .illegalCmd) (info : Nat) {s : State} (hd : s.done = false) :
    SuccessOrError (raise e info s) :=
  .inr ⟨hd, rfl, CmdError.code_ge_two he, e.code_range.2, rfl⟩

theorem commonChecks_ne_illegalCmd {s : State} {e : CmdError} {info : Nat} (h : commonChecks s = some (e, info)) :
    e ≠ .illegalCmd := by
  rcases commonChecks_error h with ⟨rfl, -⟩ | ⟨rfl, -, -⟩ <;> exact nofun

/-- A running command on memory without side effects comes to its end, in IDLE (R123, R127). -/
theorem completeCommand_idle {s : State} (hside : s.platform.sideEffects.any (touchesWindows s) = false) :
    ∃ t, completeCommand s = .next t ∧ t.phase = .idle := by
  rcases completeCommand_cases s with ⟨hs, -⟩ | ⟨-, e, info, -, hc⟩ | ⟨-, -, w, r, -, hc⟩
  · rw [hside] at hs; cases hs
  · exact ⟨_, hc, rfl⟩
  · exact ⟨_, hc, by cases r <;> rfl⟩

/-- A running command ends in success or in an error, never both or neither (R121, R122). -/
theorem completeCommand_successOrError {s t : State} (h : Inv s) (hp : s.phase = .busy) (ht : completeCommand s = .next t) :
    SuccessOrError t := by
  obtain ⟨hdone, herr⟩ := h.busy.flags hp
  rcases completeCommand_cases s with ⟨-, hc⟩ | ⟨-, e, info, hchecks, hc⟩ | ⟨-, -, w, r, hst, hc⟩ <;>
    cases hc.symm.trans ht
  · exact raise_successOrError (commonChecks_ne_illegalCmd hchecks) info hdone
  · cases r with
    | raise e info => exact raise_successOrError (s := { s with work := w }) (stagesOf_raise hst).1 info hdone
    | finish out => exact .inl ⟨rfl, herr, h.status.noErr herr, (h.busy.registers hp).2⟩

end Sys2Proof.Machine

open Sys2Proof Sys2Proof.Machine

/-- Settles O23: each branch of the check gives its CONFIG, and past the check no error is CONFIG. -/
theorem configErrorsInOrder : Obligations.ConfigErrorsInOrder := by
  intro s hside src len dst cap raisesConfig
  have hcheck := configCheck_eq s.latched
  have hraise {info : Nat} (h : configCheck s.latched = some info) (hlt : info < 2 ^ 32) :
      raisesConfig (BitVec.ofNat 32 info) :=
    ⟨raise .config info s, completeCommand_of_error hside (commonChecks_of_config h), rfl, rfl, rfl, if_pos hlt, rfl, rfl⟩
  split
  · next h1 => exact hraise (hcheck.trans (if_pos h1)) (by decide)
  · next h1 =>
    rw [if_neg h1] at hcheck
    split
    · next h2 => exact hraise (hcheck.trans (if_pos h2)) (by decide)
    · next h2 =>
      rw [if_neg h2] at hcheck
      split
      · next h3 => exact hraise (hcheck.trans (if_pos h3)) (by decide)
      · next h3 => exact fun t ht hs => completeCommand_errCode_ne_config (hcheck.trans (if_neg h3)) hs ht

/-- Settles O24: the address is the first failing one of the source window, and a legal window's addresses fit ERR_INFO. -/
theorem lowestFailingSourceAddressIsIo : Obligations.LowestFailingSourceAddressIsIo := by
  intro s a hside hconf hlo hhi hfail hok
  have hfirst : firstFailing s.platform s.latched.source = some a := firstFailing_eq_some hlo hhi hfail hok
  obtain ⟨hsrc, -, -⟩ := (configCheck_eq_none_iff s.latched).mp hconf
  exact ⟨raise .io a s, completeCommand_of_error hside (commonChecks_of_failing hconf hfirst), rfl, rfl, rfl,
    errInfoValue_toNat (hhi.trans_le hsrc) s.draws, rfl⟩

/-- Settles O25: `raise` with what an error leaves of memory, and the end of a command whose stages raise. -/
theorem raiseEntersTheError : Obligations.RaiseEntersTheError := by
  constructor
  · intro e info s
    refine ⟨memoryAfterError e s, errInfoValue info s.draws, by cases e <;> rfl, fun h => errInfoValue_toNat h s.draws,
      fun h => memoryAfterError_of_no_write h s, fun hconf hill => ⟨fun a ha => read_memoryAfterError_outside e s ha,
        fun a hlo hhi hspace => read_memoryAfterError_inside hill hconf hlo hhi hspace⟩⟩
  · intro s w e info hside hconf hfail hst
    have hst' : stagesOf s.latched.op s.latched s.platform (sourceBytes s) s.work = (w, .raise e info) := by
      cases hop : s.latched.op <;> rw [hop] at hst <;> exact hst
    obtain ⟨hill, hconfig⟩ := stagesOf_raise hst'
    exact ⟨completeCommand_of_stages hside ((commonChecks_eq_none_iff s).mpr ⟨hconf, hfail⟩) hst', hconfig, hill⟩

/-- Settles O26: the completion step answers an IDLE state, and the flags the start cleared are set by the one end that comes. -/
theorem everyCommandEndsInSuccessOrError : Obligations.EveryCommandEndsInSuccessOrError := by
  intro s h hp hside
  obtain ⟨t, ht, hidle⟩ := completeCommand_idle hside
  exact ⟨t, ht, hidle, completeCommand_successOrError h hp ht⟩

/-- Settles O29: `finish` writes the output and nothing else, and the output fits the destination. -/
theorem successWritesExactlyItsOutput : Obligations.SuccessWritesExactlyItsOutput := by
  intro s w out hwf hside hconf hfail hst
  have hst' : stagesOf s.latched.op s.latched s.platform (sourceBytes s) s.work = (w, .finish out) := by
    cases hop : s.latched.op <;> rw [hop] at hst <;> exact hst
  have hlen : out.length ≤ s.latched.dstCap.toNat := stagesOf_finish_length hst'
  obtain ⟨-, hdst, -⟩ := (configCheck_eq_none_iff s.latched).mp hconf
  have hspace : s.latched.dstAddr.toNat + out.length ≤ Config.addressSpace := (Nat.add_le_add_left hlen _).trans hdst
  have hword : (BitVec.ofNat 32 out.length).toNat = out.length := by
    rw [BitVec.toNat_ofNat, Nat.mod_eq_of_lt (hlen.trans_lt s.latched.dstCap.isLt)]
  refine ⟨_, completeCommand_of_stages hside ((commonChecks_eq_none_iff s).mpr ⟨hconf, hfail⟩) hst', rfl, rfl, hword, hlen,
    rfl, rfl, rfl, fun j hj => ?_, fun a ha => Memory.read_writeBytes_outside s.mem out ha⟩
  rw [List.getElem?_eq_getElem hj]
  exact congrArg some (Memory.read_writeBytes_inside hwf hspace hj).symm

/-- Settles O6, by the step's cases of an empty list and of the block agent's turn. -/
theorem blockAgentCompletesTheRunningCommand : Obligations.BlockAgentCompletesTheRunningCommand :=
  fun _ => ⟨fun hs hp => step_nil_busy hs hp, fun hs hp => step_nil_idle hs hp, fun _ hs hp => step_block_busy hs hp,
    fun _ hs hp => step_block_idle hs hp⟩

end

section
/-! ## A started command completes

Bounded liveness (O60): an act of another agent leaves a running command running, resets it or stops, and the block's turn ends it. -/

namespace Sys2Proof.Machine

/-! ### A running command on memory without side effects -/

/-- A command runs, and its windows lie on memory without side effects (R69, R123). -/
structure CommandRunning (s : State) : Prop where
  inv : Inv s
  busy : s.phase = .busy
  plain : s.platform.sideEffects.any (touchesWindows s) = false

/-- No window of the running command lies on memory with side effects, address by address. -/
theorem sideEffects_apart_iff (s : State) :
    s.platform.sideEffects.any (touchesWindows s) = false ↔
      ∀ a, s.latched.source.has a = true ∨ s.latched.destination.has a = true → inSpans s.platform.sideEffects a = false := by
  rw [← Bool.not_eq_true, List.any_eq_true, not_exists]
  simp only [touchesWindows, Duty.touches_iff, Latched.duty_source, Latched.duty_destination, Span.overlaps_iff_exists,
    inSpans, List.any_eq_false]
  constructor
  · rintro h a (ha | ha) v hv hva
    · exact h v ⟨hv, .inl ⟨a, ha, hva⟩⟩
    · exact h v ⟨hv, .inr ⟨a, ha, hva⟩⟩
  · rintro h v ⟨hv, ⟨a, ha, hva⟩ | ⟨a, ha, hva⟩⟩
    · exact h a (.inl ha) v hv hva
    · exact h a (.inr ha) v hv hva

theorem CommandRunning.congr {s t : State} (h : CommandRunning s) (hinv : Inv t) (hphase : t.phase = s.phase)
    (hlatched : t.latched = s.latched) (hplatform : t.platform = s.platform) : CommandRunning t where
  inv := hinv
  busy := hphase.trans h.busy
  plain := by
    have hplain := h.plain
    rw [sideEffects_apart_iff] at hplain ⊢
    rw [hlatched, hplatform]
    exact hplain

theorem CommandRunning.with_inputs {s : State} (h : CommandRunning s) (l : List Input) :
    CommandRunning { s with inputs := l } := h.congr (h.inv.with_inputs l) rfl rfl rfl

/-- The windows of a running command are under the duties of R270. -/
theorem CommandRunning.window_mem_dutyWindows {s : State} (h : CommandRunning s) {v : Span}
    (hv : v = s.latched.source ∨ v = s.latched.destination) : v ∈ s.dutyWindows :=
  (mem_dutyWindows s v).mpr ⟨s.latched.duty, h.inv.busy.duties h.busy, hv⟩

/-! ### Acts of the other agents -/

@[simp] theorem applyChange_phase (c : PlatformChange) (s : State) : (applyChange c s).phase = s.phase := by cases c <;> rfl

@[simp] theorem applyChange_latched (c : PlatformChange) (s : State) : (applyChange c s).latched = s.latched := by
  cases c <;> rfl

@[simp] theorem applyChange_inputs (c : PlatformChange) (s : State) : (applyChange c s).inputs = s.inputs := by
  cases c <;> rfl

/-- Putting side effects on memory is no breach only off every window with duties (R270). -/
theorem dutyWindows_apart_of_device {s : State} {w : Span} (h : changeBreach s (.device w) = none) :
    ∀ v ∈ s.dutyWindows, v.overlaps w.clip = false := by
  simpa [changeBreach] using h

/-- A change of the platform that is no breach puts no side effects under the running command (R69, R270). -/
theorem CommandRunning.applyChange {s : State} (h : CommandRunning s) {c : PlatformChange} (hc : changeBreach s c = none) :
    CommandRunning (applyChange c s) where
  inv := applyChange_inv h.inv c
  busy := (applyChange_phase c s).trans h.busy
  plain := by
    have hplain := (sideEffects_apart_iff s).mp h.plain
    rw [sideEffects_apart_iff, applyChange_platform, applyChange_latched]
    intro a ha
    cases c with
    | answers w => exact hplain a ha
    | fails w => exact hplain a ha
    | plain w => rw [Platform.change, inSpans_carveSpans, hplain a ha, Bool.false_and]
    | device w =>
      have hoff {v : Span} (hv : v = s.latched.source ∨ v = s.latched.destination) (hva : v.has a = true) :
          w.clip.has a = false := by
        have hapart := dutyWindows_apart_of_device hc v (h.window_mem_dutyWindows hv)
        rw [Span.overlaps_comm] at hapart
        exact (Span.overlaps_eq_false_iff _ v).mp hapart a hva
      have hw : w.clip.has a = false := ha.elim (hoff (.inl rfl)) (hoff (.inr rfl))
      rw [Platform.change, inSpans_addSpan, hplain a ha, hw, Bool.false_or]

/-- An instruction leaves the command running, and the acts pending as they are. -/
theorem CommandRunning.afterInstr {s : State} (h : CommandRunning s) (i : Instr) : CommandRunning (afterInstr i s) :=
  have hsame := afterInstr_sameCommand h.busy i
  h.congr (afterInstr_inv h.inv i) hsame.phase hsame.latched hsame.platform

/-- What an act of another agent makes of a running command: it runs on with the same acts pending, or with the block's turn put
first (R275). -/
structure RunsOn (s t : State) : Prop where
  running : CommandRunning t
  inputs : t.inputs = s.inputs ∨ ∃ rest, t.inputs = .block :: rest

theorem CommandRunning.poll {s : State} (h : CommandRunning s) (r : Reg) (mask value : Word) : RunsOn s (poll r mask value s) := by
  have hread : CommandRunning (hostRead r s) := h.afterInstr (.rd r)
  unfold Machine.poll
  dsimp only
  split
  · exact ⟨hread, .inl (hostRead_hostAccessFrame r s).inputs⟩
  · exact ⟨hread.with_inputs _, .inr ⟨_, rfl⟩⟩

/-- A read of the line changes what the host has received, and the duties at most (R240, R270). -/
theorem readIrq_eq (s : State) : readIrq s = { s with hostIrq := s.irq, duties := (readIrq s).duties } := by
  unfold readIrq
  dsimp only
  split <;> rfl

theorem readIrq_inputs (s : State) : (readIrq s).inputs = s.inputs := by rw [readIrq_eq]

theorem CommandRunning.readIrq {s : State} (h : CommandRunning s) : CommandRunning (readIrq s) :=
  h.congr (readIrq_inv h.inv) (by rw [readIrq_eq]) (by rw [readIrq_eq]) (by rw [readIrq_eq])

theorem CommandRunning.waitIrq {s : State} (h : CommandRunning s) : RunsOn s (waitIrq s) := by
  unfold Machine.waitIrq
  dsimp only
  split
  · exact ⟨h.readIrq, .inl (readIrq_inputs s)⟩
  · exact ⟨h.readIrq.with_inputs _, .inr ⟨_, rfl⟩⟩

/-- Everything an act of another agent can do with a running command: it stops with a fault, resets the block, or lets the command
run on. -/
theorem CommandRunning.applyEvent_cases {s : State} (h : CommandRunning s) (e : EnvEvent) :
    (∃ f, applyEvent e s = .fault f) ∨ (∃ t, applyEvent e s = .next t ∧ (t.phase = .idle ∨ RunsOn s t)) := by
  cases e with
  | memWrite addr data =>
    rcases hostMemWrite_cases addr data s with ⟨-, hw⟩ | ⟨-, -, hw⟩ | ⟨-, -, hw⟩
    · exact .inl ⟨_, hw⟩
    · exact .inl ⟨_, hw⟩
    · exact .inr ⟨_, hw, .inr ⟨h.congr (hostMemWrite_inv h.inv hw) rfl rfl rfl, .inl rfl⟩⟩
  | memRead addr count =>
    rcases Nat.lt_or_ge Config.addressSpace (addr + count) with hout | hin
    · exact .inl ⟨.outsideMemory, if_pos hout⟩
    · have hr := hostMemRead_of_inSpace hin s
      exact .inr ⟨_, hr, .inr ⟨h.congr (hostMemRead_inv h.inv hr) rfl rfl rfl, .inl rfl⟩⟩
  | poll r mask value => exact .inr ⟨_, rfl, .inr (h.poll r mask value)⟩
  | readIrq => exact .inr ⟨_, rfl, .inr ⟨h.readIrq, .inl (readIrq_inputs s)⟩⟩
  | waitIrq => exact .inr ⟨_, rfl, .inr h.waitIrq⟩
  | reset => exact .inr ⟨resetBlock s, rfl, .inl rfl⟩
  | platform c =>
    rcases changePlatform_cases c s with ⟨f, -, hc⟩ | ⟨hb, hc⟩
    · exact .inl ⟨f, hc⟩
    · exact .inr ⟨_, hc, .inr ⟨h.applyChange hb, .inl (applyChange_inputs c s)⟩⟩

/-! ### The run to the command's end -/

/-- Another agent than the block stops at `t`: its pending act is a fault or has no meaning. -/
def StoppedByOtherAgent (t : State) : Prop :=
  ∃ x rest, t.inputs = x :: rest ∧ x ≠ .block ∧ ((∃ f, step t = .fault f) ∨ ∃ r, step t = .refused r)

/-- Within `n` steps the machine is IDLE, or another agent than the block stops it. -/
def EndsWithin (n : Nat) (s : State) : Prop :=
  ∃ (k : Nat) (t : State), k ≤ n ∧ Host.Core.run Sys2Proof.core k s = .next t ∧ (t.phase = .idle ∨ StoppedByOtherAgent t)

theorem EndsWithin.of_idle {s : State} (h : s.phase = .idle) (n : Nat) : EndsWithin n s := ⟨0, s, Nat.zero_le n, rfl, .inl h⟩

theorem EndsWithin.of_stop {s : State} (h : StoppedByOtherAgent s) (n : Nat) : EndsWithin n s :=
  ⟨0, s, Nat.zero_le n, rfl, .inr h⟩

/-- A run's first step (the recursion of `Host.Core.run`). -/
theorem run_succ_of_next (M : Host.Core) {s t : M.State} (h : M.step s = .next t) (k : Nat) : M.run (k + 1) s = M.run k t := by
  rw [Host.Core.run, h]

theorem EndsWithin.of_step {n : Nat} {s t : State} (hstep : step s = .next t) (h : EndsWithin n t) : EndsWithin (n + 1) s := by
  obtain ⟨k, u, hk, hrun, hend⟩ := h
  exact ⟨k + 1, u, Nat.succ_le_succ hk, (run_succ_of_next Sys2Proof.core hstep k).trans hrun, hend⟩

/-- A step that is the running command's completion ends the run. -/
theorem CommandRunning.endsWithin_of_complete {s s' : State} (h : CommandRunning s') (hstep : step s = completeCommand s')
    (n : Nat) : EndsWithin (n + 1) s := by
  obtain ⟨t, ht, hidle⟩ := completeCommand_idle h.plain
  exact .of_step (hstep.trans ht) (.of_idle hidle n)

/-- At the block agent's turn a running command needs one step. -/
theorem CommandRunning.endsWithin_of_block {s : State} (h : CommandRunning s) {rest : List Input}
    (hs : s.inputs = .block :: rest) (n : Nat) : EndsWithin (n + 1) s :=
  (h.with_inputs rest).endsWithin_of_complete (step_block_busy hs h.busy) n

/-- A host transaction before a running command's end is refused, or runs and leaves the acts behind it pending. -/
theorem CommandRunning.endsWithin_of_instr {s : State} {x : Input} {rest : List Input} {n : Nat} (h : CommandRunning s)
    (hs : s.inputs = x :: rest) (hx : x ≠ .block) {d : Except DecodeError Instr}
    (hstep : step s = match d with
      | .ok i => exec i { s with inputs := rest }
      | .error e => .refused (.illegalAccess e))
    (ih : ∀ t, CommandRunning t → t.inputs = rest → EndsWithin n t) : EndsWithin (n + 1) s := by
  cases d with
  | error e => exact .of_stop ⟨x, rest, hs, hx, .inr ⟨_, hstep⟩⟩ _
  | ok i =>
    exact .of_step (hstep.trans (exec_eq_next i _))
      (ih _ ((h.with_inputs rest).afterInstr i) (afterInstr_hostAccessFrame i { s with inputs := rest }).inputs)

/-- A running command ends within one step more than there are acts pending: an act of another agent uses up its own step, or puts
the block's turn first, which ends the command in the next. -/
theorem CommandRunning.endsWithin {l : List Input} {s : State} (h : CommandRunning s) (hs : s.inputs = l) :
    EndsWithin (l.length + 1) s := by
  induction l generalizing s with
  | nil => exact h.endsWithin_of_complete (step_nil_busy hs h.busy) _
  | cons x rest ih =>
    have ih' : ∀ t, CommandRunning t → t.inputs = rest → EndsWithin (rest.length + 1) t := fun _ => ih
    cases x with
    | block => exact h.endsWithin_of_block hs _
    | host w => exact h.endsWithin_of_instr hs nofun (step_host hs) ih'
    | access addr bytes write => exact h.endsWithin_of_instr hs nofun (step_access hs) ih'
    | env e =>
      rcases (h.with_inputs rest).applyEvent_cases e with ⟨f, he⟩ | ⟨t, he, ht⟩
      · exact .of_stop ⟨_, rest, hs, nofun, .inl ⟨f, (step_env hs).trans he⟩⟩ _
      · refine .of_step ((step_env hs).trans he) ?_
        rcases ht with hidle | ⟨hrun, hsame | ⟨rest', hblock⟩⟩
        · exact .of_idle hidle _
        · exact ih hrun hsame
        · exact hrun.endsWithin_of_block hblock _

end Sys2Proof.Machine

open Sys2Proof Sys2Proof.Machine

/-- Settles O60, by induction over the pending acts. -/
theorem startedCommandCompletes : Obligations.StartedCommandCompletes :=
  fun _ hinv hbusy hplain => CommandRunning.endsWithin ⟨hinv, hbusy, hplain⟩ rfl

end

section
/-! ## Bits that never match

A walk whose remaining bits match no code overruns or ends unterminated, whatever the reverse map (O53). -/

namespace Sys2Proof.Machine

/-- A step that extends the candidate: it has room, and what it becomes is no code (R191). -/
theorem walkStep_of_no_match (l : Latched) (p : Platform) {m : List RevEntry} (i : Nat) {b : Bool} {w : Walk}
    (hroom : w.candLen ≠ 64) (hfree : rmapFind m (w.candLen + 1) (2 * w.candVal + b.toNat) = none) :
    walkStep l p m i b w = ({ w with candVal := 2 * w.candVal + b.toNat, candLen := w.candLen + 1 }, none) := by
  rcases walkStep_cases l p m i b w with ⟨h64, -⟩ | ⟨-, -, hstep⟩ | ⟨-, s, hs, -⟩
  · exact absurd h64 hroom
  · exact hstep
  · rw [hfree] at hs; cases hs

/-- Bits that extend a candidate to at most 64 bits without ever matching: the walk ends with all of them in the candidate (R193).
The fold is the candidate's value after `k` bits, as in `walkBits_overrun`. -/
theorem walkBits_unterminated (l : Latched) (p : Platform) {m : List RevEntry} (i : Nat) {T : List Bool} {w : Walk}
    (hsome : 0 < w.candLen + T.length) (hlen : w.candLen + T.length ≤ 64)
    (hfree : ∀ k, 1 ≤ k → k ≤ T.length →
      rmapFind m (w.candLen + k) ((T.take k).foldl (fun v b => 2 * v + b.toNat) w.candVal) = none) :
    (walkBits l p m i T w).2 = some (.fmtUnterminated, w.candLen + T.length) := by
  induction T generalizing i w with
  | nil => exact if_pos hsome
  | cons b T ih =>
    rw [List.length_cons] at hlen hfree ⊢
    have hstep := walkStep_of_no_match l p i (by omega) (hfree 1 (Nat.le_refl 1) (by omega))
    rw [walkBits_cons_of_none hstep, ih (i + 1) (by dsimp only; omega) (by dsimp only; omega), Nat.add_assoc, Nat.add_comm 1]
    intro k h1 hk
    have := hfree (k + 1) (by omega) (by omega)
    rwa [List.take_succ_cons, List.foldl_cons, Nat.add_comm k 1, ← Nat.add_assoc] at this

end Sys2Proof.Machine

open Sys2Proof Sys2Proof.Machine

/-- Settles O53: from an empty candidate the walk takes the bits one by one, `walkBits_overrun` for more than 64 of them and
`walkBits_unterminated` for fewer. -/
theorem unmatchedBitsOverrunOrAreUnterminated : Obligations.UnmatchedBitsOverrunOrAreUnterminated := by
  intro l p m i T w hcand hval hfree
  have hfree' (k : Nat) (h1 : 1 ≤ k) (h64 : k ≤ 64) (hT : k ≤ T.length) :
      rmapFind m (w.candLen + k) ((T.take k).foldl (fun v b => 2 * v + b.toNat) w.candVal) = none := by
    rw [hcand, hval, Nat.zero_add]
    exact hfree k h1 h64 hT
  constructor
  · intro hlong
    exact walkBits_overrun l p i (by rw [hcand]) hlong fun k h1 hk => hfree' k h1 hk (by omega)
  · intro hne hshort
    have hpos := List.length_pos_of_ne_nil hne
    have h := walkBits_unterminated l p (w := w) i (by omega) (by omega) fun k h1 hk => hfree' k h1 (by omega) hk
    rwa [hcand, Nat.zero_add] at h

end

section
/-! ## The encoder's tables and the extraction

The counters (O30), the alphabet (O31) and the member that `extractMin` takes (O32). -/

namespace Sys2Proof.Machine

/-- The alphabet rises strictly (R142). -/
theorem alphabet_pairwise (freq : List Nat) : (alphabet freq).Pairwise (fun s t => s.toNat < t.toNat) := by
  refine List.Pairwise.filter _ (List.pairwise_map.mpr (List.pairwise_lt_range.imp_of_mem fun {i j} hi hj hij => ?_))
  have hi' := List.mem_range.mp hi
  have hj' := List.mem_range.mp hj
  simp only [BitVec.toNat_ofNat, Config.symbols] at hi' hj' ⊢
  omega

/-- Node `j` does not come after node `k` in the order of R146: by freq, then by index. -/
def KeyLe (nodes : List Node) (j k : Nat) : Prop :=
  nodeFreq nodes j < nodeFreq nodes k ∨ (nodeFreq nodes j = nodeFreq nodes k ∧ j ≤ k)

theorem KeyLe.refl (nodes : List Node) (k : Nat) : KeyLe nodes k k := .inr ⟨rfl, Nat.le_refl k⟩

theorem KeyLe.trans {nodes : List Node} {i j k : Nat} (hij : KeyLe nodes i j) (hjk : KeyLe nodes j k) : KeyLe nodes i k := by
  unfold KeyLe at *
  omega

theorem KeyLe.freq_le {nodes : List Node} {j k : Nat} (h : KeyLe nodes j k) : nodeFreq nodes j ≤ nodeFreq nodes k := by
  unfold KeyLe at h
  omega

/-- The earlier of two nodes comes after neither. -/
theorem keyLe_earlier (nodes : List Node) (j k : Nat) :
    KeyLe nodes (if keyBefore nodes j k then j else k) j ∧ KeyLe nodes (if keyBefore nodes j k then j else k) k := by
  have hiff : keyBefore nodes j k = true ↔
      nodeFreq nodes j < nodeFreq nodes k ∨ (nodeFreq nodes j = nodeFreq nodes k ∧ j < k) := by
    simp [keyBefore]
  split
  · next h =>
    refine ⟨.refl nodes j, ?_⟩
    rw [hiff] at h
    unfold KeyLe
    omega
  · next h =>
    refine ⟨?_, .refl nodes k⟩
    rw [hiff] at h
    unfold KeyLe
    omega

/-- The fold of `extractMin` ends with a node that comes after no member. -/
theorem keyLe_foldl_min (nodes : List Node) (k : Nat) (q : List Nat) :
    ∀ j ∈ k :: q, KeyLe nodes (q.foldl (fun m j => if keyBefore nodes j m then j else m) k) j := by
  induction q generalizing k with
  | nil =>
    intro j hj
    rw [List.mem_singleton.mp hj]
    exact .refl nodes k
  | cons i q ih =>
    intro j hj
    have hleast := ih (if keyBefore nodes i k then i else k)
    have hfirst := hleast _ List.mem_cons_self
    obtain ⟨hi, hk⟩ := keyLe_earlier nodes i k
    rw [List.foldl_cons]
    rcases List.mem_cons.mp hj with rfl | hj
    · exact hfirst.trans hk
    · rcases List.mem_cons.mp hj with rfl | hj
      · exact hfirst.trans hi
      · exact hleast j (List.mem_cons_of_mem _ hj)

/-- `extractMin` takes the member with the least key (R146). -/
theorem extractMin_least {nodes : List Node} {q rest : List Nat} {m : Nat} (h : extractMin nodes q = some (m, rest)) :
    ∀ k ∈ q, KeyLe nodes m k := by
  cases q with
  | nil => cases h
  | cons k q =>
    cases h
    exact keyLe_foldl_min nodes k q

end Sys2Proof.Machine

open Sys2Proof Sys2Proof.Machine

/-- Settles O30, by counting the source onto the empty table. -/
theorem frequencyIsTheNumberOfOccurrences : Obligations.FrequencyIsTheNumberOfOccurrences :=
  fun src => ⟨frequencies_length src, entry_frequencies src⟩

/-- Settles O31: the alphabet is the part of the ascending list of all symbols whose count is not 0. -/
theorem alphabetIsThePresentSymbolsAscending : Obligations.AlphabetIsThePresentSymbolsAscending :=
  fun src => ⟨mem_alphabet src, alphabet_pairwise _, alphabet_length_le _⟩

/-- Settles O32, by the fold that keeps the earlier of two members. -/
theorem extractMinTakesTheLeastKey : Obligations.ExtractMinTakesTheLeastKey := by
  intro nodes q
  constructor
  · intro hq
    obtain ⟨m, rest, h⟩ := extractMin_of_ne_nil nodes hq
    rw [h]
    rfl
  · intro m rest h
    exact ⟨(extractMin_perm h).mem_iff.mpr List.mem_cons_self, extractMin_eq h, extractMin_least h⟩

end

section
/-! ## The tree

Every round of the merge loop merges the two least of the nodes still waiting (O33). -/

namespace Sys2Proof.Machine

/-- Every edge of the arena leads to an older node. -/
def EdgesOlder (nodes : List Node) : Prop := ∀ k l r f, nodes[k]? = some (Node.internal l r f) → l < k ∧ r < k

theorem TreeInv.edgesOlder {n total : Nat} {nodes : List Node} {q : List Nat} (h : TreeInv n total nodes q) :
    EdgesOlder nodes := fun k l r f hk => (h.children k l r f hk).2

/-- A property that every round of the merge loop keeps holds at the loop's end (R147). -/
theorem mergeLoop_induct {P : List Node → List Nat → Prop}
    (hround : ∀ nodes q q1 q2 x y, P nodes q → extractMin nodes q = some (x, q1) → extractMin nodes q1 = some (y, q2) →
      P (nodes ++ [.internal y x (nodeFreq nodes x + nodeFreq nodes y)]) (nodes.length :: q2))
    (rounds : Nat) {nodes : List Node} {q : List Nat} (h : P nodes q) :
    P (mergeLoop rounds nodes q).1 (mergeLoop rounds nodes q).2 := by
  induction rounds generalizing nodes q with
  | zero => exact h
  | succ rounds ih =>
    cases hx : extractMin nodes q with
    | none => simpa only [mergeLoop, hx] using h
    | some xq =>
      cases hy : extractMin nodes xq.2 with
      | none => simpa only [mergeLoop, hx, hy] using h
      | some yq =>
        rw [mergeLoop_round hx hy]
        exact ih (hround _ _ _ _ _ _ h hx hy)

/-- Node `j` is older than node `k` and no child of a node older than `k`: it was in `Q` when `k` was made (R147). -/
def WaitsAt (nodes : List Node) (j k : Nat) : Prop :=
  j < k ∧ ∀ i l r f, i < k → nodes[i]? = some (Node.internal l r f) → j ≠ l ∧ j ≠ r

/-- Node `k` merges `r`, the least of the nodes that waited for it, and `l`, the second least (R147). -/
structure MergesLeast (nodes : List Node) (k l r f : Nat) : Prop where
  left : WaitsAt nodes l k
  right : WaitsAt nodes r k
  order : r ≠ l ∧ KeyLe nodes r l
  least : ∀ j, WaitsAt nodes j k → j ≠ r → KeyLe nodes l j
  freq : f = nodeFreq nodes l + nodeFreq nodes r

/-- What the merge loop keeps for the symbols `A`: `Q` holds the nodes that are no child yet, each once; the leaves stand first, in
the order of `A`; and every other node merged the two least (R145 to R147). -/
structure MergeInv (freq : List Nat) (A : List Byte) (nodes : List Node) (q : List Nat) : Prop where
  queue : ∀ j, j ∈ q ↔ WaitsAt nodes j nodes.length
  nodup : q.Nodup
  leaves : ∀ (k : Nat) (s : Byte), A[k]? = some s → nodes[k]? = some (Node.leaf s (entry freq s))
  merges : ∀ k, A.length ≤ k → k < nodes.length →
    ∃ l r f, nodes[k]? = some (Node.internal l r f) ∧ MergesLeast nodes k l r f

/-! ### Appending a node -/

theorem waitsAt_append {nodes : List Node} {k : Nat} (hk : k ≤ nodes.length) (x : Node) (j : Nat) :
    WaitsAt (nodes ++ [x]) j k ↔ WaitsAt nodes j k := by
  have hsame (i : Nat) (hi : i < k) : (nodes ++ [x])[i]? = nodes[i]? := List.getElem?_append_left (by omega)
  refine and_congr_right fun _ => ⟨fun h i l r f hi hn => ?_, fun h i l r f hi hn => ?_⟩
  · exact h i l r f hi (by rwa [hsame i hi])
  · exact h i l r f hi (by rwa [← hsame i hi])

theorem keyLe_append {nodes : List Node} {j k : Nat} (hj : j < nodes.length) (hk : k < nodes.length) (x : Node) :
    KeyLe (nodes ++ [x]) j k ↔ KeyLe nodes j k := by
  rw [KeyLe, KeyLe, nodeFreq_append_of_lt hj, nodeFreq_append_of_lt hk]

/-- A node keeps its merge when the arena grows. -/
theorem MergesLeast.append {nodes : List Node} {k l r f : Nat} (h : MergesLeast nodes k l r f) (hk : k ≤ nodes.length) (x : Node) :
    MergesLeast (nodes ++ [x]) k l r f := by
  have hl : l < nodes.length := h.left.1.trans_le hk
  have hr : r < nodes.length := h.right.1.trans_le hk
  refine
    { left := (waitsAt_append hk x l).mpr h.left
      right := (waitsAt_append hk x r).mpr h.right
      order := ⟨h.order.1, (keyLe_append hr hl x).mpr h.order.2⟩
      least := fun j hj hne => ?_
      freq := ?_ }
  · have hj' := (waitsAt_append hk x j).mp hj
    exact (keyLe_append hl (hj'.1.trans_le hk) x).mpr (h.least j hj' hne)
  · rw [nodeFreq_append_of_lt hl, nodeFreq_append_of_lt hr]
    exact h.freq

/-- Once a node with the children `l` and `r` is made, the waiting nodes are the new one and the others that waited before. -/
theorem waitsAt_append_internal {nodes : List Node} {l r : Nat} (f j : Nat) (hl : l < nodes.length) (hr : r < nodes.length)
    (hold : EdgesOlder nodes) :
    WaitsAt (nodes ++ [.internal l r f]) j (nodes.length + 1) ↔
      j = nodes.length ∨ (WaitsAt nodes j nodes.length ∧ j ≠ l ∧ j ≠ r) := by
  have hnew : (nodes ++ [Node.internal l r f])[nodes.length]? = some (.internal l r f) := List.getElem?_concat_length
  constructor
  · rintro ⟨hj, hchild⟩
    rcases Nat.lt_succ_iff_lt_or_eq.mp hj with hlt | heq
    · exact .inr ⟨(waitsAt_append le_rfl _ j).mp ⟨hlt, fun i l' r' f' hi => hchild i l' r' f' (by omega)⟩,
        hchild _ l r f (Nat.lt_succ_self _) hnew⟩
    · exact .inl heq
  · intro h
    refine ⟨by rcases h with rfl | ⟨⟨hj, -⟩, -⟩ <;> omega, fun i l' r' f' hi hn => ?_⟩
    rcases Nat.lt_succ_iff_lt_or_eq.mp hi with hlt | rfl
    · rw [List.getElem?_append_left hlt] at hn
      rcases h with rfl | ⟨⟨-, hchild⟩, -⟩
      · have := hold i l' r' f' hn
        omega
      · exact hchild i l' r' f' hlt hn
    · rw [hnew] at hn
      cases hn
      rcases h with rfl | ⟨-, hne⟩
      · omega
      · exact hne

/-! ### The loop -/

theorem seedLeaves_getElem? (freq : List Nat) (A : List Byte) (k : Nat) :
    (seedLeaves freq A)[k]? = A[k]?.map (fun s => .leaf s (entry freq s)) := by
  rw [seedLeaves, List.getElem?_map]

theorem seedLeaves_mergeInv (freq : List Nat) (A : List Byte) :
    MergeInv freq A (seedLeaves freq A) (List.range A.length) := by
  have hlen : (seedLeaves freq A).length = A.length := List.length_map _
  refine { queue := fun j => ?_, nodup := List.nodup_range, leaves := fun k s hk => ?_, merges := fun k hk hlt => ?_ }
  · rw [hlen, List.mem_range]
    refine ⟨fun hj => ⟨hj, fun i l r f _ hi => ?_⟩, fun hj => hj.1⟩
    rw [seedLeaves_getElem?] at hi
    obtain ⟨s, -, hs⟩ := Option.map_eq_some_iff.mp hi
    cases hs
  · rw [seedLeaves_getElem?, hk]
    rfl
  · omega

/-- What two extractions in a row take and leave (R146). -/
theorem extractMin_two {nodes : List Node} {q q1 q2 : List Nat} {x y : Nat} (hnodup : q.Nodup)
    (hx : extractMin nodes q = some (x, q1)) (hy : extractMin nodes q1 = some (y, q2)) :
    x ∈ q ∧ y ∈ q ∧ x ≠ y ∧ KeyLe nodes x y ∧ (∀ j ∈ q, j ≠ x → KeyLe nodes y j) ∧
    q2.Nodup ∧ ∀ j, j ∈ q2 ↔ j ∈ q ∧ j ≠ y ∧ j ≠ x := by
  have hq1 : ∀ j, j ∈ q1 ↔ j ∈ q ∧ j ≠ x := by
    intro j
    rw [extractMin_eq hx, hnodup.mem_erase_iff, and_comm]
  have hnodup1 : q1.Nodup := extractMin_eq hx ▸ hnodup.erase x
  have hyq1 : y ∈ q1 := (extractMin_perm hy).mem_iff.mpr List.mem_cons_self
  obtain ⟨hyq, hyx⟩ := (hq1 y).mp hyq1
  refine ⟨(extractMin_perm hx).mem_iff.mpr List.mem_cons_self, hyq, hyx.symm, extractMin_least hx y hyq,
    fun j hj hne => extractMin_least hy j ((hq1 j).mpr ⟨hj, hne⟩), extractMin_eq hy ▸ hnodup1.erase y, fun j => ?_⟩
  rw [extractMin_eq hy, hnodup1.mem_erase_iff, hq1]
  tauto

/-- One round of the merge loop (R147). -/
theorem MergeInv.round {freq : List Nat} {A : List Byte} {nodes : List Node} {q q1 q2 : List Nat} {x y : Nat}
    (h : MergeInv freq A nodes q) (hold : EdgesOlder nodes)
    (hx : extractMin nodes q = some (x, q1)) (hy : extractMin nodes q1 = some (y, q2)) :
    MergeInv freq A (nodes ++ [.internal y x (nodeFreq nodes x + nodeFreq nodes y)]) (nodes.length :: q2) := by
  obtain ⟨hxq, hyq, hxy, horder, hleast, hnodup, hrest⟩ := extractMin_two h.nodup hx hy
  have hxw := (h.queue x).mp hxq
  have hyw := (h.queue y).mp hyq
  refine
    { queue := fun j => ?_
      nodup := List.nodup_cons.mpr ⟨fun hmem => ?_, hnodup⟩
      leaves := fun k s hk => ?_
      merges := fun k hk hlt => ?_ }
  · rw [List.length_append, List.length_singleton, waitsAt_append_internal _ j hyw.1 hxw.1 hold, List.mem_cons, hrest, h.queue]
  · exact ((h.queue _).mp ((hrest _).mp hmem).1).1.false
  · have hs := h.leaves k s hk
    obtain ⟨hlt, -⟩ := List.getElem?_eq_some_iff.mp hs
    rw [List.getElem?_append_left hlt, hs]
  · rw [List.length_append, List.length_singleton] at hlt
    rcases Nat.lt_succ_iff_lt_or_eq.mp hlt with hlt | rfl
    · obtain ⟨l, r, f, hn, hm⟩ := h.merges k hk hlt
      exact ⟨l, r, f, by rw [List.getElem?_append_left hlt, hn], hm.append hlt.le _⟩
    · refine ⟨y, x, _, List.getElem?_concat_length, MergesLeast.append ?_ le_rfl _⟩
      exact { left := hyw, right := hxw, order := ⟨hxy, horder⟩,
              least := fun j hj hne => hleast j ((h.queue j).mpr hj) hne, freq := Nat.add_comm _ _ }

/-- The tree of a nonempty alphabet, by every round's merge (R145 to R148). -/
theorem buildTree_mergeInv (freq : List Nat) {A : List Byte} (h : A ≠ []) :
    MergeInv freq A (buildTree freq A).1 (buildTree freq A).2 := by
  exact (mergeLoop_induct
    (P := fun nodes q => TreeInv A.length (A.map (entry freq)).sum nodes q ∧ MergeInv freq A nodes q)
    (fun nodes q q1 q2 x y ⟨htree, hmerge⟩ hx hy => ⟨htree.round hx hy, hmerge.round htree.edgesOlder hx hy⟩)
    A.length ⟨seedLeaves_treeInv freq h, seedLeaves_mergeInv freq A⟩).2

end Sys2Proof.Machine

open Sys2Proof Sys2Proof.Machine

/-- Settles O33: the sizes by `buildTree_treeInv`, and the leaves and merges by `buildTree_mergeInv`. -/
theorem treeHasOneInternalNodeLessThanLeaves : Obligations.TreeHasOneInternalNodeLessThanLeaves := by
  intro freq A hA T before waiting
  obtain ⟨-, hlen, hroot⟩ := buildTree_treeInv freq hA
  have hinv := buildTree_mergeInv freq hA
  have hbefore {j k : Nat} (hle : KeyLe T.1 j k) (hne : j ≠ k) : before j k :=
    hle.imp id fun ⟨hfreq, hindex⟩ => ⟨hfreq, hindex.lt_of_ne hne⟩
  refine ⟨hlen, hroot, hinv.leaves, fun k hk hlt => ?_⟩
  obtain ⟨l, r, f, hn, hm⟩ := hinv.merges k hk (hlt.trans_eq hlen.symm)
  exact ⟨l, r, f, hn, hm.left, hm.right, hbefore hm.order.2 hm.order.1,
    fun j hj hjr hjl => hbefore (hm.least j hj hjr) hjl.symm, hm.freq⟩

end

section
/-! ## The codes

Every present symbol's code is the path from the root to its leaf (O35), and a path of 65 edges would need a source of 2^32 bytes
or more (O37). -/

namespace Sys2Proof.Machine

/-! ### Paths (R149) -/

/-- The bits lead from a node to a node below it: 0 to the left child, 1 to the right one (R149). -/
inductive TreePath (nodes : List Node) : Nat → List Bool → Nat → Prop
  | here (k : Nat) : TreePath nodes k [] k
  | step {k l r f j : Nat} {b : Bool} {bits : List Bool} (hk : nodes[k]? = some (Node.internal l r f))
      (rest : TreePath nodes (if b then r else l) bits j) : TreePath nodes k (b :: bits) j

/-- From a leaf only the empty path leads on. -/
theorem TreePath.of_leaf {nodes : List Node} {k j f : Nat} {s : Byte} {bits : List Bool}
    (h : TreePath nodes k bits j) (hk : nodes[k]? = some (Node.leaf s f)) : bits = [] ∧ j = k := by
  cases h with
  | here => exact ⟨rfl, rfl⟩
  | step hk' => cases hk.symm.trans hk'

/-- No path to another node begins with the path to a leaf. -/
theorem TreePath.eq_of_prefix {nodes : List Node} {k i j f : Nat} {s : Byte} {c d : List Bool} (hc : TreePath nodes k c i)
    (hd : TreePath nodes k d j) (hi : nodes[i]? = some (Node.leaf s f)) (hprefix : c <+: d) : j = i := by
  induction hc generalizing d with
  | here k => exact (hd.of_leaf hi).2
  | step hk _ ih =>
    cases hd with
    | here => cases List.prefix_nil.mp hprefix
    | step hk' hrest =>
      obtain ⟨rfl, htail⟩ := List.cons_prefix_cons.mp hprefix
      cases hk.symm.trans hk'
      exact ih hrest hi htail

/-- The nodes on a path, the first and the last included. -/
theorem TreePath.nodes_on_path {nodes : List Node} {k j : Nat} {bits : List Bool}
    (h : TreePath nodes k bits j) :
    ∃ path : List Nat, path.length = bits.length + 1 ∧ path[0]? = some k ∧ path[bits.length]? = some j ∧
      ∀ (i : Nat) (b : Bool), bits[i]? = some b → ∃ k l r f : Nat, path[i]? = some k ∧
        nodes[k]? = some (Node.internal l r f) ∧ path[i + 1]? = some (if b then r else l) := by
  induction h with
  | here k => exact ⟨[k], rfl, rfl, rfl, fun i b hb => by cases hb⟩
  | @step k l r f j b bits hk _ ih =>
    obtain ⟨path, hlen, hfirst, hlast, hedge⟩ := ih
    refine ⟨k :: path, by rw [List.length_cons, hlen, List.length_cons], rfl, hlast, fun i b' hb => ?_⟩
    cases i with
    | zero =>
      cases hb
      exact ⟨k, l, r, f, rfl, hk, hfirst⟩
    | succ i => exact hedge i b' hb

/-- Each code below node `k` is the path to its symbol's leaf, after the bits that lead to `k` (R149). -/
theorem leafCodes_treePath {nodes : List Node} (d k : Nat) (c : List Bool) : ∀ e ∈ leafCodes nodes d k c,
    ∃ bits j f, e.2 = c ++ bits ∧ TreePath nodes k bits j ∧ nodes[j]? = some (Node.leaf e.1 f) := by
  induction d generalizing k c with
  | zero => intro e he; cases he
  | succ d ih =>
    intro e he
    rw [leafCodes] at he
    split at he
    · cases he
    · next s f hk =>
      rw [List.mem_singleton.mp he]
      exact ⟨[], k, f, (List.append_nil c).symm, .here k, hk⟩
    · next l r f hk =>
      rcases List.mem_append.mp he with he | he
      · obtain ⟨bits, j, f', hbits, hpath, hleaf⟩ := ih l (c ++ [false]) e he
        exact ⟨false :: bits, j, f', by rw [hbits, List.append_assoc]; rfl, .step hk hpath, hleaf⟩
      · obtain ⟨bits, j, f', hbits, hpath, hleaf⟩ := ih r (c ++ [true]) e he
        exact ⟨true :: bits, j, f', by rw [hbits, List.append_assoc]; rfl, .step hk hpath, hleaf⟩

/-! ### Every symbol has one leaf -/

/-- The symbols below a node, in the order of the walk. -/
def symsBelow (nodes : List Node) (k : Nat) : List Byte := (leafCodes nodes (k + 1) k []).map Prod.fst

/-- Neither the bits that lead to a node, nor a larger bound on the depth, nor newer nodes change the symbols below it. -/
theorem leafCodes_syms_congr {nodes : List Node} (hold : EdgesOlder nodes) (more : List Node) (d d' : Nat) {k : Nat}
    (hk : k < nodes.length) (hd : k < d) (hd' : k < d') (c c' : List Bool) :
    (leafCodes (nodes ++ more) d k c).map Prod.fst = (leafCodes nodes d' k c').map Prod.fst := by
  induction d generalizing d' k c c' with
  | zero => omega
  | succ d ih =>
    obtain ⟨d', rfl⟩ : ∃ n, d' = n + 1 := ⟨d' - 1, by omega⟩
    rw [leafCodes, leafCodes, List.getElem?_append_left hk]
    cases hn : nodes[k]? with
    | none => rfl
    | some node =>
      cases node with
      | leaf s f => rfl
      | internal l r f =>
        obtain ⟨hl, hr⟩ := hold k l r f hn
        simp only [List.map_append]
        rw [ih d' (hl.trans hk) (by omega) (by omega) (c ++ [false]) (c' ++ [false]),
          ih d' (hr.trans hk) (by omega) (by omega) (c ++ [true]) (c' ++ [true])]

theorem leafCodes_syms {nodes : List Node} (hold : EdgesOlder nodes) {d k : Nat} (hk : k < nodes.length) (hd : k < d)
    (c : List Bool) : (leafCodes nodes d k c).map Prod.fst = symsBelow nodes k := by
  have h := leafCodes_syms_congr hold [] d (k + 1) hk hd k.lt_succ_self c []
  rwa [List.append_nil] at h

theorem symsBelow_append {nodes : List Node} (hold : EdgesOlder nodes) (x : Node) {k : Nat} (hk : k < nodes.length) :
    symsBelow (nodes ++ [x]) k = symsBelow nodes k :=
  leafCodes_syms_congr hold [x] (k + 1) (k + 1) hk k.lt_succ_self k.lt_succ_self [] []

theorem symsBelow_leaf {nodes : List Node} {k f : Nat} {s : Byte} (hk : nodes[k]? = some (Node.leaf s f)) :
    symsBelow nodes k = [s] := by
  simp only [symsBelow, leafCodes, hk, List.map_cons, List.map_nil]

/-- Below a new node stand the symbols below its children. -/
theorem symsBelow_new {nodes : List Node} (hold : EdgesOlder nodes) {l r : Nat} (f : Nat) (hl : l < nodes.length)
    (hr : r < nodes.length) :
    symsBelow (nodes ++ [.internal l r f]) nodes.length = symsBelow nodes l ++ symsBelow nodes r := by
  rw [symsBelow, leafCodes, List.getElem?_concat_length]
  simp only [List.map_append]
  rw [leafCodes_syms_congr hold _ _ (l + 1) hl hl l.lt_succ_self _ [],
    leafCodes_syms_congr hold _ _ (r + 1) hr hr r.lt_succ_self _ []]
  rfl

/-- A round of the merge loop moves no symbol in or out of the trees in `Q`. -/
theorem flatMap_symsBelow_round {nodes : List Node} {q q1 q2 : List Nat} {x y : Nat} (f : Nat) (hold : EdgesOlder nodes)
    (hq : ∀ k ∈ q, k < nodes.length) (hx : extractMin nodes q = some (x, q1)) (hy : extractMin nodes q1 = some (y, q2)) :
    ((nodes.length :: q2).flatMap (symsBelow (nodes ++ [.internal y x f]))).Perm (q.flatMap (symsBelow nodes)) := by
  have hperm : q.Perm (y :: x :: q2) :=
    ((extractMin_perm hx).trans ((extractMin_perm hy).cons x)).trans (List.Perm.swap y x q2)
  have hmem (k : Nat) (hk : k ∈ y :: x :: q2) : k < nodes.length := hq k (hperm.mem_iff.mpr hk)
  have hrest : q2.flatMap (symsBelow (nodes ++ [.internal y x f])) = q2.flatMap (symsBelow nodes) :=
    List.flatMap_congr fun k hk => symsBelow_append hold _ (hmem k (List.mem_cons_of_mem _ (List.mem_cons_of_mem _ hk)))
  rw [List.flatMap_cons, symsBelow_new hold f (hmem y List.mem_cons_self) (hmem x (List.mem_cons_of_mem _ List.mem_cons_self)),
    hrest, List.append_assoc, ← List.flatMap_cons, ← List.flatMap_cons]
  exact hperm.symm.flatMap_right _

theorem seedLeaves_symsBelow (freq : List Nat) (A : List Byte) :
    (List.range A.length).flatMap (symsBelow (seedLeaves freq A)) = A := by
  have hleaf : ∀ k ∈ List.range A.length, symsBelow (seedLeaves freq A) k = [A.getD k 0] := by
    intro k hk
    have hk' := List.mem_range.mp hk
    refine symsBelow_leaf (f := entry freq (A.getD k 0)) ?_
    rw [seedLeaves_getElem?, List.getElem?_eq_getElem hk', List.getD_eq_getElem _ _ hk']
    rfl
  rw [List.flatMap_congr hleaf, ← List.map_eq_flatMap]
  exact List.ext_getElem (by simp) fun i _ hi => by simp [hi]

/-- The symbols below the root are the alphabet's (R149). -/
theorem symsBelow_root (freq : List Nat) {A : List Byte} (h : A ≠ []) :
    (symsBelow (buildTree freq A).1 (2 * A.length - 2)).Perm A := by
  obtain ⟨-, -, hroot⟩ := buildTree_treeInv freq h
  have hperm : ((buildTree freq A).2.flatMap (symsBelow (buildTree freq A).1)).Perm A := (mergeLoop_induct
    (P := fun nodes q => TreeInv A.length (A.map (entry freq)).sum nodes q ∧ (q.flatMap (symsBelow nodes)).Perm A)
    (fun nodes q q1 q2 x y ⟨hinv, hperm⟩ hx hy =>
      ⟨hinv.round hx hy, (flatMap_symsBelow_round _ hinv.edgesOlder hinv.waiting hx hy).trans hperm⟩)
    A.length ⟨seedLeaves_treeInv freq h, .of_eq (seedLeaves_symsBelow freq A)⟩).2
  rwa [hroot, List.flatMap_singleton] at hperm

/-! ### The assigned codes (R149, R150) -/

/-- With two symbols or more the codes are read off the tree from the root on (R149). -/
theorem assignCodes_buildTree (freq : List Nat) {A : List Byte} (h : 2 ≤ A.length) :
    assignCodes (buildTree freq A).1 (buildTree freq A).2 A =
      leafCodes (buildTree freq A).1 (buildTree freq A).1.length (2 * A.length - 2) [] := by
  match A, h with
  | s :: s' :: A, _ =>
    obtain ⟨-, -, hroot⟩ := buildTree_treeInv freq (List.cons_ne_nil s (s' :: A))
    rw [assignCodes_of_two, hroot]
    rfl

/-- The only symbol has the code "0" (R150). -/
theorem assignCodes_singleton (nodes : List Node) (queue : List Nat) (s : Byte) :
    assignCodes nodes queue [s] = [(s, [false])] := rfl

theorem singleton_or_two_le {A : List Byte} (h : A ≠ []) : (∃ s, A = [s]) ∨ 2 ≤ A.length := by
  have hpos := List.length_pos_of_ne_nil h
  rcases Nat.lt_or_ge A.length 2 with hone | htwo
  · exact .inl (List.length_eq_one_iff.mp (by omega))
  · exact .inr htwo

/-- The coded symbols are the alphabet's. -/
theorem assignCodes_syms (freq : List Nat) {A : List Byte} (h : A ≠ []) :
    ((assignCodes (buildTree freq A).1 (buildTree freq A).2 A).map Prod.fst).Perm A := by
  rcases singleton_or_two_le h with ⟨s, rfl⟩ | htwo
  · exact .refl _
  · obtain ⟨hinv, hlen, -⟩ := buildTree_treeInv freq h
    rw [assignCodes_buildTree freq htwo, leafCodes_syms hinv.edgesOlder (by omega) (by omega)]
    exact symsBelow_root freq h

/-- With two symbols or more a code is the path from the root to its symbol's leaf (R149). -/
theorem assignCodes_treePath (freq : List Nat) {A : List Byte} (h : 2 ≤ A.length) :
    ∀ c ∈ assignCodes (buildTree freq A).1 (buildTree freq A).2 A, ∃ j f,
      TreePath (buildTree freq A).1 (2 * A.length - 2) c.2 j ∧ (buildTree freq A).1[j]? = some (Node.leaf c.1 f) := by
  intro c hc
  rw [assignCodes_buildTree freq h] at hc
  obtain ⟨bits, j, f, hbits, hpath, hleaf⟩ := leafCodes_treePath _ _ _ c hc
  rw [List.nil_append] at hbits
  exact ⟨j, f, hbits ▸ hpath, hleaf⟩

/-- The root of two symbols or more is no leaf. -/
theorem root_ne_leaf (freq : List Nat) {A : List Byte} (h : 2 ≤ A.length) (s : Byte) (f : Nat) :
    (buildTree freq A).1[2 * A.length - 2]? ≠ some (Node.leaf s f) := by
  have hA : A ≠ [] := List.ne_nil_of_length_pos (by omega)
  obtain ⟨-, hlen, -⟩ := buildTree_treeInv freq hA
  obtain ⟨l, r, f', hroot, -⟩ := (buildTree_mergeInv freq hA).merges (2 * A.length - 2) (by omega) (by omega)
  rw [hroot]
  exact nofun

/-- No code is empty. -/
theorem assignCodes_ne_nil (freq : List Nat) {A : List Byte} (h : A ≠ []) :
    ∀ c ∈ assignCodes (buildTree freq A).1 (buildTree freq A).2 A, c.2 ≠ [] := by
  intro c hc hnil
  rcases singleton_or_two_le h with ⟨s, rfl⟩ | htwo
  · rw [assignCodes_singleton, List.mem_singleton] at hc
    cases hc
    cases hnil
  · obtain ⟨j, f, hpath, hleaf⟩ := assignCodes_treePath freq htwo c hc
    rw [hnil] at hpath
    cases hpath
    exact root_ne_leaf freq htwo c.1 f hleaf

/-- A code that begins with another code belongs to the same symbol. -/
theorem assignCodes_sym_eq_of_prefix (freq : List Nat) {A : List Byte} (h : A ≠ []) {c d : Byte × List Bool}
    (hc : c ∈ assignCodes (buildTree freq A).1 (buildTree freq A).2 A)
    (hd : d ∈ assignCodes (buildTree freq A).1 (buildTree freq A).2 A) (hprefix : c.2 <+: d.2) : c.1 = d.1 := by
  rcases singleton_or_two_le h with ⟨s, rfl⟩ | htwo
  · rw [assignCodes_singleton, List.mem_singleton] at hc hd
    rw [hc, hd]
  · obtain ⟨i, f, hpath, hleaf⟩ := assignCodes_treePath freq htwo c hc
    obtain ⟨j, f', hpath', hleaf'⟩ := assignCodes_treePath freq htwo d hd
    obtain rfl := hpath.eq_of_prefix hpath' hleaf hprefix
    exact (Node.leaf.inj (Option.some.inj (hleaf.symm.trans hleaf'))).1

/-! ### How heavy a long path is (R151) -/

theorem nodeFreq_of_getElem? {nodes : List Node} {k : Nat} {x : Node} (h : nodes[k]? = some x) : nodeFreq nodes k = x.freq := by
  rw [nodeFreq, h]
  rfl

/-- `u` is a child of `v`. -/
def IsChild (nodes : List Node) (v u : Nat) : Prop := ∃ l r f, nodes[v]? = some (Node.internal l r f) ∧ (u = l ∨ u = r)

section
variable {freq : List Nat} {A : List Byte} {total : Nat} {nodes : List Node} {q : List Nat}
  (htree : TreeInv A.length total nodes q) (hmerge : MergeInv freq A nodes q)
include htree hmerge

/-- Every internal node stands after the leaves and merged the two least. -/
theorem mergesLeast_of_internal {k l r f : Nat} (hk : nodes[k]? = some (Node.internal l r f)) :
    A.length ≤ k ∧ MergesLeast nodes k l r f := by
  obtain ⟨hn, -⟩ := htree.children k l r f hk
  obtain ⟨hlt, -⟩ := List.getElem?_eq_some_iff.mp hk
  obtain ⟨l', r', f', hk', hm⟩ := hmerge.merges k hn hlt
  cases hk.symm.trans hk'
  exact ⟨hn, hm⟩

/-- A child of a node made before `k` is no heavier than a node that waits for `k`. -/
theorem child_le_waiting {u x : Nat} (hux : IsChild nodes u x) {w k : Nat} (hw : WaitsAt nodes w k) (huk : u < k)
    (hk : k ≤ nodes.length) : nodeFreq nodes x ≤ nodeFreq nodes w := by
  obtain ⟨l, r, f, hnode, hx⟩ := hux
  obtain ⟨hu, hm⟩ := mergesLeast_of_internal htree hmerge hnode
  have hxl : nodeFreq nodes x ≤ nodeFreq nodes l := by
    rcases hx with rfl | rfl
    · exact le_rfl
    · exact hm.order.2.freq_le
  refine hxl.trans ?_
  clear hxl hx x
  induction w using Nat.strong_induction_on generalizing k with
  | _ w ih =>
    rcases Nat.lt_trichotomy w u with hlt | rfl | hgt
    · have hwu : WaitsAt nodes w u := ⟨hlt, fun i l' r' f' hi => hw.2 i l' r' f' (hi.trans huk)⟩
      exact (hm.least w hwu (hw.2 u l r f huk hnode).2).freq_le
    · rw [nodeFreq_of_getElem? hnode, Node.freq, hm.freq]
      exact Nat.le_add_right _ _
    · have hwlen : w < nodes.length := hw.1.trans_le hk
      obtain ⟨l', r', f', hnode', hm'⟩ := hmerge.merges w (hu.trans hgt.le) hwlen
      rw [nodeFreq_of_getElem? hnode', Node.freq, hm'.freq]
      exact (ih l' hm'.left.1 hm'.left hgt hwlen.le).trans (Nat.le_add_right _ _)

theorem child_le {v u : Nat} (hvu : IsChild nodes v u) : nodeFreq nodes u ≤ nodeFreq nodes v := by
  obtain ⟨l, r, f, hnode, hu⟩ := hvu
  rw [nodeFreq_of_getElem? hnode, Node.freq, (mergesLeast_of_internal htree hmerge hnode).2.freq]
  rcases hu with rfl | rfl
  · exact Nat.le_add_right _ _
  · exact Nat.le_add_left _ _

/-- A node is at least as heavy as its child and a child of that together: its other child waited for it too. -/
theorem child_add_grandchild_le {v u x : Nat} (hvu : IsChild nodes v u) (hux : IsChild nodes u x) :
    nodeFreq nodes u + nodeFreq nodes x ≤ nodeFreq nodes v := by
  obtain ⟨l, r, f, hnode, hu⟩ := hvu
  obtain ⟨hlt, -⟩ := List.getElem?_eq_some_iff.mp hnode
  have hm := (mergesLeast_of_internal htree hmerge hnode).2
  rw [nodeFreq_of_getElem? hnode, Node.freq, hm.freq]
  rcases hu with rfl | rfl
  · exact Nat.add_le_add_left (child_le_waiting htree hmerge hux hm.right hm.left.1 hlt.le) _
  · rw [Nat.add_comm]
    exact Nat.add_le_add_right (child_le_waiting htree hmerge hux hm.left hm.right.1 hlt.le) _

/-- A path of `d` edges to a node that is not empty starts at a node as heavy as the `(d + 1)`-th Fibonacci number, and at a child of
one as heavy as the next (93_implementation_defined.md G1). -/
theorem fib_le_of_treePath {k j : Nat} {bits : List Bool} (h : TreePath nodes k bits j) (hj : 1 ≤ nodeFreq nodes j) :
    Nat.fib (bits.length + 1) ≤ nodeFreq nodes k ∧ ∀ v, IsChild nodes v k → Nat.fib (bits.length + 2) ≤ nodeFreq nodes v := by
  induction h with
  | here k => exact ⟨hj, fun v hv => hj.trans (child_le htree hmerge hv)⟩
  | @step k l r f j b bits hk _ ih =>
    obtain ⟨hchild, hparent⟩ := ih hj
    have hedge : IsChild nodes k (if b then r else l) := ⟨l, r, f, hk, by cases b <;> simp⟩
    have hself := hparent k hedge
    refine ⟨hself, fun v hv => ?_⟩
    rw [List.length_cons, Nat.fib_add_two, Nat.add_comm]
    exact (Nat.add_le_add hself hchild).trans (child_add_grandchild_le htree hmerge hv hedge)

end

/-- A leaf is a symbol of the alphabet with its count. -/
theorem MergeInv.leaf_freq {freq : List Nat} {A : List Byte} {nodes : List Node} {q : List Nat} (h : MergeInv freq A nodes q)
    {k f : Nat} {s : Byte} (hk : nodes[k]? = some (Node.leaf s f)) : s ∈ A ∧ f = entry freq s := by
  obtain ⟨hlt, -⟩ := List.getElem?_eq_some_iff.mp hk
  rcases Nat.lt_or_ge k A.length with hn | hn
  · have hA := List.getElem?_eq_getElem hn
    cases hk.symm.trans (h.leaves k _ hA)
    exact ⟨List.mem_of_getElem? hA, rfl⟩
  · obtain ⟨l, r, f', hk', -⟩ := h.merges k hn hlt
    cases hk.symm.trans hk'

/-- A present symbol's code has at most 64 bits when the source has fewer than 2^32 bytes (R151). -/
theorem assignCodes_length_le_of_source {src : List Byte} (hlen : src.length < 2 ^ 32) :
    let A := alphabet (frequencies src)
    let T := buildTree (frequencies src) A
    ∀ c ∈ assignCodes T.1 T.2 A, c.2.length ≤ 64 := by
  intro A T c hc
  rcases Nat.lt_or_ge A.length 2 with hone | htwo
  · exact (assignCodes_length_le _ A c hc).trans (by omega)
  · have hA : A ≠ [] := List.ne_nil_of_length_pos (by omega)
    obtain ⟨htree, -, -⟩ := buildTree_treeInv (frequencies src) hA
    have hmerge := buildTree_mergeInv (frequencies src) hA
    obtain ⟨j, f, hpath, hleaf⟩ := assignCodes_treePath _ htwo c hc
    obtain ⟨hpresent, hfreq⟩ := hmerge.leaf_freq hleaf
    have hpos : 1 ≤ nodeFreq T.1 j := by
      rw [nodeFreq_of_getElem? hleaf, Node.freq, hfreq, entry_frequencies]
      exact List.one_le_count_iff.mpr ((mem_alphabet src c.1).mp hpresent)
    have hfib := (fib_le_of_treePath htree hmerge hpath hpos).1
    rw [nodeFreq_root _ hA, sum_frequencies_alphabet] at hfib
    by_contra hlong
    have hmono : Nat.fib 66 ≤ Nat.fib (c.2.length + 1) := Nat.fib_mono (by omega)
    have h66 : 2 ^ 32 ≤ Nat.fib 66 := by norm_num
    omega

/-- CB_LEN of a present symbol is the length of its code (R149). -/
theorem buildCodebook_cbLen (freq : List Nat) {A : List Byte} (hA : A.Nodup) (w : Work) {s : Byte} (hs : s ∈ A) :
    ∃ c ∈ assignCodes (buildTree freq A).1 (buildTree freq A).2 A, c.1 = s ∧
      entry (buildCodebook freq A w).cbLen s = c.2.length := by
  have hne : A ≠ [] := List.ne_nil_of_mem hs
  have hperm := assignCodes_syms freq hne
  obtain ⟨c, hc, rfl⟩ := List.mem_map.mp (hperm.mem_iff.mpr hs)
  refine ⟨c, hc, rfl, ?_⟩
  rw [buildCodebook_of_ne_nil freq w hne]
  exact entry_codeLengths (hperm.nodup_iff.mpr hA) hc

theorem tooLong_eq_none_iff (cbLen : List Nat) (A : List Byte) : tooLong cbLen A = none ↔ ∀ s ∈ A, entry cbLen s ≤ 64 := by
  simp [tooLong]

/-- CB_LEN of a present symbol is at most 64 (R151). -/
theorem buildCodebook_cbLen_le {src : List Byte} (hlen : src.length < 2 ^ 32) (w : Work) :
    ∀ s ∈ alphabet (frequencies src), entry (buildCodebook (frequencies src) (alphabet (frequencies src)) w).cbLen s ≤ 64 := by
  intro s hs
  obtain ⟨c, hc, -, hcb⟩ := buildCodebook_cbLen (frequencies src) (alphabet_nodup _) w hs
  exact hcb.trans_le (assignCodes_length_le_of_source hlen c hc)

/-- ENCODE's stages do not raise CODE_TOO_LONG (R151). -/
theorem encodeStages_ne_codeTooLong {l : Latched} {p : Platform} {src : List Byte} (hlen : src.length < 2 ^ 32) {w w' : Work}
    {e : CmdError} {info : Nat} (h : encodeStages l p src w = (w', .raise e info)) : e ≠ .codeTooLong := by
  rintro rfl
  rcases encodeStages_cases l p src w with ⟨-, -, he⟩ | ⟨-, s, hs, -⟩ | ⟨-, -, he⟩
  · cases he.symm.trans h
  · rw [(tooLong_eq_none_iff _ _).mpr (buildCodebook_cbLen_le hlen _)] at hs
    cases hs
  · have hemit := (congrArg Prod.snd (he.symm.trans h))
    rcases emitContainer_cases l p (alphabet (frequencies src)) src
      (buildCodebook (frequencies src) (alphabet (frequencies src)) { w with freq := frequencies src })
      with ⟨-, hc⟩ | ⟨-, a, -, hc⟩ | ⟨-, -, hc⟩ <;> cases hc.symm.trans hemit

theorem CmdError.code_eq_six_iff (e : CmdError) : e.code = 0x6#4 ↔ e = .codeTooLong := by
  cases e <;> decide

end Sys2Proof.Machine

open Sys2Proof Sys2Proof.Machine

/-- Settles O35: the symbols by what the trees in `Q` keep, and the codes by their paths in the tree. -/
theorem codesArePrefixFree : Obligations.CodesArePrefixFree := by
  intro src hsrc A T codes
  have hA : A ≠ [] := alphabet_ne_nil hsrc
  have hsyms : (codes.map Prod.fst).Perm A := assignCodes_syms _ hA
  refine ⟨hsyms.nodup_iff.mpr (alphabet_nodup _), fun s => hsyms.mem_iff.trans (mem_alphabet src s),
    assignCodes_ne_nil _ hA, fun c hc d hd hne hprefix => hne (assignCodes_sym_eq_of_prefix _ hA hc hd hprefix), ?_, ?_⟩
  · intro s hs
    exact (congrArg (assignCodes T.1 T.2) hs).trans (assignCodes_singleton _ _ s)
  · intro htwo c hc
    obtain ⟨j, f, hpath, hleaf⟩ := assignCodes_treePath _ htwo c hc
    obtain ⟨path, hlen, hfirst, hlast, hedges⟩ := hpath.nodes_on_path
    exact ⟨path, hlen, hfirst, ⟨j, f, hlast, hleaf⟩, hedges⟩

/-- Settles O37: the code lengths by the Fibonacci bound, and no other stage or check raises CODE_TOO_LONG. -/
theorem codeTooLongIsUnreachable : Obligations.CodeTooLongIsUnreachable := by
  refine ⟨fun src w hlen => buildCodebook_cbLen_le hlen _, fun s t hinv hbusy hop ht => ?_⟩
  rcases completeCommand_cases s with ⟨-, hc⟩ | ⟨-, e, info, hchecks, hc⟩ | ⟨-, -, w, r, hst, hc⟩ <;>
    cases hc.symm.trans ht
  · rw [raise_errCode, Ne, CmdError.code_eq_six_iff]
    rcases commonChecks_error hchecks with ⟨rfl, -⟩ | ⟨rfl, -, -⟩ <;> exact nofun
  · cases r with
    | finish out =>
      have hcode : s.errCode = 0 := hinv.status.noErr (hinv.busy.flags hbusy).2
      rw [endCommand, finish_errCode, hcode]
      exact nofun
    | raise e info =>
      have hlen : (sourceBytes s).length < 2 ^ 32 := (sourceBytes_length s).trans_lt s.latched.srcLen.isLt
      rw [hop] at hst
      rw [endCommand, raise_errCode, Ne, CmdError.code_eq_six_iff]
      exact encodeStages_ne_codeTooLong hlen hst

end

section
/-! ## The container

How ENCODE's stages end (O41), what the container holds (O40, O42, O43, O46), and the two sources that need no code: the one
with every byte value (O38) and the empty one (O39). -/

namespace Sys2Proof.Machine

/-! ### The container's parts (R89, R155 to R159) -/

/-- Lists of ten, one after the other: item `10 k + j` is item `j` of the `k`-th. -/
theorem getElem?_flatMap_ten {α β : Type} {g : α → List β} (hg : ∀ a, (g a).length = 10) {l : List α} {k : Nat} {a : α}
    (hk : l[k]? = some a) {j : Nat} (hj : j < 10) : (l.flatMap g)[10 * k + j]? = (g a)[j]? := by
  induction l generalizing k with
  | nil => cases hk
  | cons b l ih =>
    rw [List.flatMap_cons]
    cases k with
    | zero =>
      cases hk
      rw [Nat.mul_zero, Nat.zero_add, List.getElem?_append_left (by rw [hg]; exact hj)]
    | succ k =>
      rw [List.getElem?_append_right (by rw [hg]; omega), hg, show 10 * (k + 1) + j - 10 = 10 * k + j by omega]
      exact ih hk

section
variable (le : Bool) (freq cbLen cbVal : List Nat) (A src : List Byte)

/-- The count byte stands first. -/
theorem container_count : (container le freq cbLen cbVal A src)[0]? = some (BitVec.ofNat 8 A.length) := by
  rw [container_eq, List.getElem?_cons_zero]
  exact congrArg some (BitVec.eq_of_toNat_eq (by simp))

/-- The padding count stands last. -/
theorem container_pad : (container le freq cbLen cbVal A src)[(container le freq cbLen cbVal A src).length - 1]? =
    some (BitVec.ofNat 8 (padCount (payloadBits freq cbLen A))) := by
  rw [← List.getLast?_eq_getElem?, container_eq, ← List.cons_append, List.getLast?_concat]

/-- Byte `j` of entry `k` stands at offset `1 + 10 k + j`. -/
theorem container_entry {k : Nat} {s : Byte} (hk : A[k]? = some s) {j : Nat} (hj : j < 10) :
    (container le freq cbLen cbVal A src)[1 + 10 * k + j]? = (codebookEntry le cbLen cbVal s)[j]? := by
  obtain ⟨hlt, -⟩ := List.getElem?_eq_some_iff.mp hk
  have hentries := flatMap_codebookEntry_length le cbLen cbVal A
  rw [container_eq, show 1 + 10 * k + j = 10 * k + j + 1 by omega, List.getElem?_cons_succ, containerBody, List.append_assoc,
    List.getElem?_append_left (by omega), getElem?_flatMap_ten (codebookEntry_length le cbLen cbVal) hk hj]

/-- Payload byte `j` stands after the entries. -/
theorem container_payload {j : Nat} (hj : j < payloadBytes (payloadBits freq cbLen A)) :
    (container le freq cbLen cbVal A src)[1 + 10 * A.length + j]? =
      (packBits (payloadBytes (payloadBits freq cbLen A))
        (payload cbLen cbVal src ++ List.replicate (padCount (payloadBits freq cbLen A)) false))[j]? := by
  have hentries := flatMap_codebookEntry_length le cbLen cbVal A
  rw [container_eq, show 1 + 10 * A.length + j = 10 * A.length + j + 1 by omega, List.getElem?_cons_succ, containerBody,
    List.append_assoc, List.getElem?_append_right (by omega), hentries, Nat.add_sub_cancel_left,
    List.getElem?_append_left (by rw [packBits_length]; exact hj)]

end

/-- The empty source has no symbols (R143). -/
theorem alphabet_frequencies_nil : alphabet (frequencies []) = [] :=
  List.eq_nil_iff_forall_not_mem.mpr fun s hs => List.not_mem_nil ((mem_alphabet [] s).mp hs)

/-- The empty source's container is two zero bytes, whatever the tables hold (R143). -/
theorem container_nil (le : Bool) (freq cbLen cbVal : List Nat) : container le freq cbLen cbVal [] [] = [0, 0] := by
  simp [container, payloadBits, payload, payloadBytes, padCount, packBits]

/-! ### The payload's bits (R98, R157, R158) -/

/-- Byte `j` packs the bits from `8 j` on. -/
theorem packBits_getElem? {m j : Nat} (hj : j < m) (bits : List Bool) :
    (packBits m bits)[j]? = some (byteOfBits ((bits.drop (8 * j)).take 8)) := by
  induction m generalizing j bits with
  | zero => omega
  | succ m ih =>
    rw [packBits]
    cases j with
    | zero => rfl
    | succ j =>
      rw [List.getElem?_cons_succ, ih (Nat.lt_of_succ_lt_succ hj), List.drop_drop, Nat.mul_succ, Nat.add_comm]

/-- Bit `7 - t` of a byte is its `t`-th bit from the top (R65). -/
theorem getLsbD_byteOfBits {bits : List Bool} (h : bits.length = 8) {t : Nat} (ht : t < 8) :
    (byteOfBits bits).getLsbD (7 - t) = bits.getD t false := by
  have hbits : bitsOf 8 (byteOfBits bits).toNat = bits := msbBits_byteOfBits h
  calc (byteOfBits bits).getLsbD (7 - t) = (bitsOf 8 (byteOfBits bits).toNat).getD t false := by
        rw [List.getD_eq_getElem _ _ (by simpa using ht), bitsOf_getElem]
        rfl
    _ = bits.getD t false := by rw [hbits]

/-- The number of payload bits is the codes' lengths, added over the source (R152, R157). -/
theorem payloadBits_frequencies (cbLen : List Nat) (src : List Byte) :
    payloadBits (frequencies src) cbLen (alphabet (frequencies src)) = (src.map (entry cbLen)).sum := by
  have hsyms : (alphabet (frequencies src)).toFinset = src.toFinset := by
    ext s
    rw [List.mem_toFinset, List.mem_toFinset, mem_alphabet]
  rw [payloadBits, ← List.sum_toFinset _ (alphabet_nodup _), hsyms, Finset.sum_list_map_count]
  exact Finset.sum_congr rfl fun s _ => by rw [entry_frequencies, smul_eq_mul]

theorem payload_length (cbLen cbVal : List Nat) (src : List Byte) :
    (payload cbLen cbVal src).length = (src.map (entry cbLen)).sum := by
  simp [payload, codeOf, List.length_flatMap]

/-- A bit of the padded bit sequence, as the payload bytes hold it: 0 beyond the sequence. -/
theorem getD_append_replicate_false (bits : List Bool) (n i : Nat) :
    (bits ++ List.replicate n false).getD i false = bits.getD i false := by
  rcases Nat.lt_or_ge i bits.length with hi | hi
  · rw [List.getD_append _ _ _ _ hi]
  · rw [List.getD_append_right _ _ _ _ hi, List.getD_eq_default _ _ hi, List.getD_eq_getElem?_getD,
      List.getElem?_getD_replicate_default_eq]

/-- Bit `7 - t` of payload byte `j` is bit `8 j + t` of the sequence, and 0 beyond its end (R158). -/
theorem packBits_padded {bits : List Bool} {j t : Nat} (hj : j < payloadBytes bits.length) (ht : t < 8) :
    ∃ b, (packBits (payloadBytes bits.length) (bits ++ List.replicate (padCount bits.length) false))[j]? = some b ∧
      b.getLsbD (7 - t) = bits.getD (8 * j + t) false := by
  refine ⟨_, packBits_getElem? hj _, ?_⟩
  have hlen : (((bits ++ List.replicate (padCount bits.length) false).drop (8 * j)).take 8).length = 8 := by
    have := eight_mul_payloadBytes bits.length
    simp only [List.length_take, List.length_drop, List.length_append, List.length_replicate]
    omega
  rw [getLsbD_byteOfBits hlen ht, ← getD_append_replicate_false bits (padCount bits.length) (8 * j + t)]
  simp [List.getD_eq_getElem?_getD, List.getElem?_drop, ht]

/-! ### The end of the stages (R151 to R153) -/

/-- Past the alphabet and code-length checks comes the emit stage. -/
theorem encodeStages_of_checks {l : Latched} (p : Platform) {src : List Byte} {w : Work}
    (halphabet : (alphabet (frequencies src)).length ≠ 256 ∨ l.wrap256 = true)
    (hlong : ∀ s ∈ alphabet (frequencies src),
      entry (buildCodebook (frequencies src) (alphabet (frequencies src)) { w with freq := frequencies src }).cbLen s ≤ 64) :
    let A := alphabet (frequencies src)
    let W := buildCodebook (frequencies src) A { w with freq := frequencies src }
    encodeStages l p src w = (W, emitContainer l p A src W) := by
  rcases encodeStages_cases l p src w with ⟨hfull, hwrap, -⟩ | ⟨-, s, hs, -⟩ | ⟨-, -, he⟩
  · rcases halphabet with h | h
    · exact absurd hfull h
    · cases hwrap.symm.trans h
  · rw [(tooLong_eq_none_iff _ _).mpr hlong] at hs
    cases hs
  · exact he

/-- A code of a finished ENCODE has 1 to 64 bits. -/
theorem cbLen_of_finish {l : Latched} {p : Platform} {src : List Byte} {w w' : Work} {C : List Byte}
    (h : encodeStages l p src w = (w', .finish C)) {s : Byte} (hs : s ∈ alphabet (frequencies src)) :
    1 ≤ entry w'.cbLen s ∧ entry w'.cbLen s ≤ 64 := by
  obtain ⟨hw, -, hlong, -⟩ := encodeStages_finish h
  refine ⟨?_, (tooLong_eq_none_iff _ _).mp hlong s hs⟩
  obtain ⟨c, hc, -, hlen⟩ := buildCodebook_cbLen (frequencies src) (alphabet_nodup _) { w with freq := frequencies src } hs
  rw [hw, hlen]
  exact List.length_pos_of_ne_nil (assignCodes_ne_nil _ (List.ne_nil_of_mem hs) c hc)

/-- The empty source's stages end with its container when its two bytes fit and answer (R143, R152, R153). -/
theorem encodeStages_nil {l : Latched} {p : Platform} (w : Work) (hcap : 2 ≤ l.dstCap.toNat)
    (hok : p.memOk l.dstAddr.toNat = true) (hok' : p.memOk (l.dstAddr.toNat + 1) = true) :
    encodeStages l p [] w = ({ w with freq := frequencies [] }, .finish [0, 0]) := by
  have hst := encodeStages_of_checks (l := l) p (src := []) (w := w) (.inl (by rw [alphabet_frequencies_nil]; decide))
    (by rw [alphabet_frequencies_nil]; exact fun s hs => absurd hs List.not_mem_nil)
  rw [alphabet_frequencies_nil] at hst
  have hN : containerLength ([] : List Byte).length (payloadBits (frequencies []) w.cbLen []) = 2 := by
    simp [containerLength, payloadBits, payloadBytes_eq]
  have hfree : firstFailing p { lo := l.dstAddr.toNat, hi := l.dstAddr.toNat + 2 } = none :=
    (firstFailing_eq_none_iff p _).mpr fun b hlo hhi => by
      obtain rfl | rfl : b = l.dstAddr.toNat ∨ b = l.dstAddr.toNat + 1 := by
        dsimp only at hlo hhi
        omega
      · exact hok
      · exact hok'
  have hcases := emitContainer_cases l p [] [] { w with freq := frequencies [] }
  dsimp only at hcases
  rw [hN, hfree, container_nil] at hcases
  rcases hcases with ⟨hfull, -⟩ | ⟨-, a, ha, -⟩ | ⟨-, -, he⟩
  · omega
  · cases ha
  · exact hst.trans (congrArg (Prod.mk _) he)

/-! ### One symbol (R150, R162) -/

theorem alphabet_replicate {n : Nat} (hn : 1 ≤ n) (x : Byte) : alphabet (frequencies (List.replicate n x)) = [x] := by
  have hmem (s : Byte) : s ∈ alphabet (frequencies (List.replicate n x)) ↔ s ∈ [x] := by
    rw [mem_alphabet, List.mem_replicate, List.mem_singleton, and_iff_right (Nat.ne_of_gt hn)]
  exact List.perm_singleton.mp ((List.perm_ext_iff_of_nodup (alphabet_nodup _) (List.nodup_singleton x)).mpr hmem)

theorem byteOfBits_replicate_false (n : Nat) : byteOfBits (List.replicate n false) = 0 := by
  have hval : bitsVal (List.replicate n false) = 0 := by
    induction n with
    | zero => rfl
    | succ n ih => rw [List.replicate_succ', bitsVal_append_singleton, ih]; rfl
  rw [byteOfBits, hval]
  rfl

/-- Zero bits pack into zero bytes. -/
theorem packBits_replicate_false (m n : Nat) : packBits m (List.replicate n false) = List.replicate m 0 := by
  induction m generalizing n with
  | zero => rfl
  | succ m ih => rw [packBits, List.take_replicate, List.drop_replicate, byteOfBits_replicate_false, ih, List.replicate_succ]

theorem blockBytes_zero (le : Bool) : blockBytes le 0 = List.replicate 8 0 := by
  cases le <;> rfl

/-- The codebook of one symbol holds the code "0" (R150). -/
theorem buildCodebook_singleton (freq : List Nat) (x : Byte) (w : Work) :
    entry (buildCodebook freq [x] w).cbLen x = 1 ∧ entry (buildCodebook freq [x] w).cbVal x = 0 := by
  have hnodup : ([(x, [false])].map Prod.fst : List Byte).Nodup := List.nodup_singleton x
  rw [buildCodebook_of_ne_nil freq w (List.cons_ne_nil x [])]
  exact ⟨entry_codeLengths hnodup List.mem_cons_self, entry_codeValues hnodup List.mem_cons_self (show 1 ≤ 64 by decide)⟩

/-- The container of `n` copies of a symbol with the code "0" (R162). -/
theorem container_replicate (le : Bool) (cbLen cbVal : List Nat) (x : Byte) (n : Nat) (hlen : entry cbLen x = 1)
    (hval : entry cbVal x = 0) :
    container le (frequencies (List.replicate n x)) cbLen cbVal [x] (List.replicate n x) =
      [1, x, 1, 0, 0, 0, 0, 0, 0, 0, 0] ++ List.replicate ((n + 7) / 8) 0 ++ [BitVec.ofNat 8 (padCount n)] := by
  have hB : payloadBits (frequencies (List.replicate n x)) cbLen [x] = n := by
    simp [payloadBits, entry_frequencies, hlen]
  have hcode : codeOf cbLen cbVal x = [false] := by
    rw [codeOf, hlen, hval]
    rfl
  have hP : payload cbLen cbVal (List.replicate n x) = List.replicate n false := by
    rw [payload, List.flatMap_replicate, hcode]
    simp
  have hentry : codebookEntry le cbLen cbVal x = [x, 1, 0, 0, 0, 0, 0, 0, 0, 0] := by
    rw [codebookEntry, hlen, hval, blockBytes_zero]
    rfl
  rw [container, hB, hP, List.replicate_append_replicate, packBits_replicate_false, payloadBytes_eq, List.flatMap_singleton,
    hentry]
  rfl

end Sys2Proof.Machine

open Sys2Proof Sys2Proof.Machine

/-- Settles O41, by the three ends of the emit stage. -/
theorem encodeReportsTheRequiredLength : Obligations.EncodeReportsTheRequiredLength := by
  intro l p src w freq A W B N dst halphabet hlong
  have hst : encodeStages l p src w = (W, emitContainer l p A src W) := encodeStages_of_checks p halphabet hlong
  have hN : containerLength A.length (payloadBits W.freq W.cbLen A) = N := by
    rw [containerLength, payloadBytes_eq, buildCodebook_freq]
    rfl
  have hcases := emitContainer_cases l p A src W
  dsimp only at hcases
  rw [hN] at hcases
  rcases hcases with ⟨hfull, he⟩ | ⟨hfits, a, ha, he⟩ | ⟨hfits, hok, he⟩ <;> rw [he] at hst
  · exact ⟨fun _ => hst, fun hfits => by omega⟩
  · refine ⟨fun hfull => by omega, fun _ => ⟨fun b hlo hhi hfail hbefore => ?_, fun hall => ?_⟩⟩
    · cases ha.symm.trans (firstFailing_eq_some hlo hhi hfail hbefore)
      exact hst
    · cases ha.symm.trans ((firstFailing_eq_none_iff p _).mpr hall)
  · refine ⟨fun hfull => by omega, fun _ => ⟨fun b hlo hhi hfail _ => ?_, fun _ => ⟨_, ?_, hst⟩⟩⟩
    · cases hfail.symm.trans ((firstFailing_eq_none_iff p _).mp hok b hlo hhi)
    · rw [container_length, hN]

/-- Settles O42: the container's parts, one after the other. -/
theorem containerLayout : Obligations.ContainerLayout := by
  intro l p src w w' C h A B
  obtain ⟨-, -, -, rfl, -⟩ := encodeStages_finish h
  have hB : payloadBits (frequencies src) w'.cbLen A = B := payloadBits_frequencies w'.cbLen src
  refine ⟨?_, container_count .., ?_, fun k s hk => ?_⟩
  · rw [container_length, hB, containerLength, payloadBytes_eq]
  · rw [container_pad, hB]
    rfl
  · have hentry {j : Nat} := container_entry l.blkle (frequencies src) w'.cbLen w'.cbVal A src hk (j := j)
    obtain ⟨hpos, h64⟩ := cbLen_of_finish h (List.mem_of_getElem? hk)
    refine ⟨hentry (j := 0) (by decide), ?_, hpos, h64, fun j hj => ?_⟩
    · rw [show 2 + 10 * k = 1 + 10 * k + 1 by omega, hentry (by decide)]
      rfl
    · rw [show 3 + 10 * k + j = 1 + 10 * k + (j + 2) by omega, hentry (by omega), ← blockBytes_getElem? l.blkle _ j hj]
      rfl

/-- Settles O43, by the bits of one packed byte. -/
theorem payloadIsPackedMostSignificantBitFirst : Obligations.PayloadIsPackedMostSignificantBitFirst := by
  intro l p src w w' C h P j t hj ht
  obtain ⟨-, -, -, rfl, -⟩ := encodeStages_finish h
  have hB : payloadBits (frequencies src) w'.cbLen (alphabet (frequencies src)) = P.length :=
    (payloadBits_frequencies w'.cbLen src).trans (payload_length w'.cbLen w'.cbVal src).symm
  have hj' : j < payloadBytes P.length := (payloadBytes_eq P.length).symm ▸ hj
  obtain ⟨b, hb, hbit⟩ := packBits_padded hj' ht
  refine ⟨b, ?_, hbit⟩
  rw [container_payload _ _ _ _ _ _ (hB.symm ▸ hj'), hB]
  exact hb

/-- Settles O46: a finished ENCODE's container is a function of the source and the byte order, because with an empty alphabet the
container holds no code. -/
theorem containerDependsOnSourceAndSelectorsOnly : Obligations.ContainerDependsOnSourceAndSelectorsOnly := by
  intro l l' p p' src w w' v v' C C' hle h h'
  obtain ⟨rfl, -, -, rfl, -⟩ := encodeStages_finish h
  obtain ⟨rfl, -, -, rfl, -⟩ := encodeStages_finish h'
  rw [hle]
  by_cases hsrc : src = []
  · rw [hsrc, alphabet_frequencies_nil, container_nil, container_nil]
  · rw [buildCodebook_of_ne_nil _ _ (alphabet_ne_nil hsrc), buildCodebook_of_ne_nil _ _ (alphabet_ne_nil hsrc)]

/-- Settles O40: the only symbol's code is "0", so entry and payload are written out. -/
theorem singleSymbolSourceGivesZeroBits : Obligations.SingleSymbolSourceGivesZeroBits := by
  intro l p x n w w' C hn h
  obtain ⟨hw, -, -, hC, -⟩ := encodeStages_finish h
  rw [alphabet_replicate hn] at hw hC
  obtain ⟨hlen, hval⟩ := buildCodebook_singleton (frequencies (List.replicate n x)) x
    { w with freq := frequencies (List.replicate n x) }
  rw [← hw] at hlen hval
  exact hC.trans (container_replicate _ _ _ x n hlen hval)

/-- Settles O38: a source with every byte has 256 symbols, and 256 fits ERR_INFO. -/
theorem fullAlphabetIsReported : Obligations.FullAlphabetIsReported := by
  intro s hop hwrap hside hconf hfail hall
  have hst : stagesOf s.latched.op s.latched s.platform (sourceBytes s) s.work =
      ({ s.work with freq := frequencies (sourceBytes s) }, .raise .alphabetFull 256) := by
    rw [hop]
    have hfull := alphabet_length_of_all hall
    rcases encodeStages_cases s.latched s.platform (sourceBytes s) s.work with ⟨-, -, he⟩ | ⟨hnot, -⟩ | ⟨hnot, -⟩
    · exact he
    · exact absurd ⟨hfull, hwrap⟩ hnot
    · exact absurd ⟨hfull, hwrap⟩ hnot
  exact ⟨_, completeCommand_of_stages hside ((commonChecks_eq_none_iff s).mpr ⟨hconf, hfail⟩) hst, rfl, rfl, rfl,
    errInfoValue_toNat (by decide) s.draws, rfl⟩

/-- Settles O39: the empty window passes the checks, and success writes the two bytes and nothing else. -/
theorem emptySourceGivesTheTwoByteContainer : Obligations.EmptySourceGivesTheTwoByteContainer := by
  intro s hwf hop hempty hcap hdst hok hok' hside
  have hsrcLen : s.latched.srcLen.toNat = 0 := by rw [hempty]; rfl
  have hconf : configCheck s.latched = none := (configCheck_eq_none_iff s.latched).mpr ⟨by omega, hdst, by omega⟩
  have hfail : firstFailing s.platform s.latched.source = none :=
    (firstFailing_eq_none_iff s.platform _).mpr fun b hlo hhi => by
      rw [Latched.source_lo] at hlo
      rw [Latched.source_hi] at hhi
      omega
  have hsrc : sourceBytes s = [] := List.eq_nil_of_length_eq_zero ((sourceBytes_length s).trans hsrcLen)
  have hst : encodeStages s.latched s.platform (sourceBytes s) s.work =
      ({ s.work with freq := frequencies [] }, .finish [0, 0]) := by
    rw [hsrc]
    exact encodeStages_nil s.work hcap hok hok'
  obtain ⟨t, ht, hidle, hdone, hlen, -, -, -, -, hinside, houtside⟩ :=
    successWritesExactlyItsOutput s _ _ hwf hside hconf hfail (by rw [hop]; exact hst)
  refine ⟨t, ht, hidle, hdone, BitVec.eq_of_toNat_eq hlen, ?_, ?_, fun a ha ha' => houtside a ?_⟩
  · exact (Option.some.inj (hinside 0 (by decide))).symm
  · exact (Option.some.inj (hinside 1 (by decide))).symm
  · simp only [List.length_cons, List.length_nil]
    omega

end

section
/-! ## The decoder's stages and the round trip

A truncated container (O47), the payload's padding (O50), a step of the walk (O51), and DECODE of what ENCODE wrote (O56): the
no code begins with another, so the reverse map gives each code its symbol and the walk cuts the payload where ENCODE joined it. -/

namespace Sys2Proof.Machine

/-! ### How the stages end (R180, R182, R183, R187 to R193) -/

/-- A container too short for its header or for the entries it announces (R182, R183). -/
theorem decodeStages_of_truncated {l : Latched} {p : Platform} {C : List Byte} (w : Work)
    (h : C.length < 2 ∨ C.length < 2 + 10 * (C.getD 0 0).toNat) : decodeStages l p C w = (w, .raise .fmtTruncated C.length) := by
  rcases decodeStages_cases l p C w with ⟨-, hd⟩ | ⟨hlen, -⟩ | ⟨hlen, -⟩
  · exact hd
  · omega
  · omega

/-- A container whose entries are accepted goes on to its payload (R187). -/
theorem decodeStages_of_accepted {l : Latched} {p : Platform} {C : List Byte} {n : Nat} {m : List RevEntry} (w : Work)
    (hcount : (C.getD 0 0).toNat = n) (hlen : 2 + 10 * n ≤ C.length) (hm : deserialize l.blkle n 0 (C.drop 1) [] = (m, none)) :
    decodeStages l p C w = expandPayload l p m (C.drop (1 + 10 * n)) { w with rmap := m } := by
  subst hcount
  have hcases := decodeStages_cases l p C w
  dsimp only at hcases
  rw [hm] at hcases
  rcases hcases with ⟨hshort, -⟩ | ⟨-, e, info, he, -⟩ | ⟨-, -, hd⟩
  · omega
  · cases he
  · exact hd

/-- A bad padding count ends DECODE, whatever the payload (R188). -/
theorem expandPayload_of_bad_padding (l : Latched) (p : Platform) (m : List RevEntry) {tail : List Byte} (w : Work)
    (h : 7 < (tail.getLastD 0).toNat ∨ 8 * tail.dropLast.length < (tail.getLastD 0).toNat) :
    expandPayload l p m tail w = (w, .raise .fmtBadPadding (tail.getLastD 0).toNat) := by
  rcases expandPayload_cases l p m tail w with ⟨-, hx⟩ | ⟨hgood, -⟩ | ⟨hgood, -⟩
  · exact hx
  · exact absurd h hgood
  · exact absurd h hgood

/-- How DECODE ends when its walk has ended (R191 to R193). -/
def walkEnd (v : Walk × Option (CmdError × Nat)) : CmdEnd :=
  match v.2 with
  | some (e, info) => .raise e info
  | none => .finish v.1.emitted.reverse

/-- After a good padding count DECODE ends as its walk ends (R189 to R193). -/
theorem expandPayload_of_good_padding (l : Latched) (p : Platform) (m : List RevEntry) {tail : List Byte} (w : Work)
    (h7 : (tail.getLastD 0).toNat ≤ 7) (hbits : (tail.getLastD 0).toNat ≤ 8 * tail.dropLast.length) :
    (expandPayload l p m tail w).2 =
      walkEnd (walkBits l p m 0 (payloadToBits tail.dropLast (tail.getLastD 0).toNat) Walk.start) := by
  rcases expandPayload_cases l p m tail w with ⟨hbad, -⟩ | ⟨-, e, info, hv, hx⟩ | ⟨-, hv, hx⟩
  · omega
  · rw [hx, walkEnd, hv]
  · rw [hx, walkEnd, hv]

/-- The padding count of what stands after the entries is the container's last byte (R187). -/
theorem getLastD_drop {C : List Byte} {k : Nat} (hk : k < C.length) : (C.drop k).getLastD 0 = C.getD (C.length - 1) 0 := by
  rw [List.getLastD_eq_getLast?, List.getLast?_drop, if_neg (by omega), List.getLast?_eq_getElem?,
    List.getD_eq_getElem?_getD]

theorem dropLast_drop_eq_take (C : List Byte) (k : Nat) : (C.drop k).dropLast = (C.drop k).take (C.length - 1 - k) := by
  rw [List.dropLast_eq_take, List.length_drop, Nat.sub_right_comm]

theorem payloadToBits_eq_take {bytes : List Byte} {n : Nat} (h : bytes.length = n) (pad : Nat) :
    payloadToBits bytes pad = (bytes.flatMap msbBits).take (8 * n - pad) := by
  rw [payloadToBits, ← h]
  simp [Nat.mul_comm]

/-! ### A step of the walk (R191, R192) -/

/-- A candidate of 64 bits takes no further bit. -/
theorem walkStep_of_full (l : Latched) (p : Platform) (m : List RevEntry) (i : Nat) (b : Bool) {w : Walk} (h : w.candLen = 64) :
    walkStep l p m i b w = (w, some (.fmtOverrun, i)) := by
  rcases walkStep_cases l p m i b w with ⟨-, hstep⟩ | ⟨hroom, -⟩ | ⟨hroom, -⟩
  · exact hstep
  · exact absurd h hroom
  · exact absurd h hroom

/-- A step that completes a code emits the code's symbol. -/
theorem walkStep_of_match (l : Latched) (p : Platform) {m : List RevEntry} (i : Nat) {b : Bool} {w : Walk} {s : Byte}
    (hroom : w.candLen ≠ 64) (hmatch : rmapFind m (w.candLen + 1) (2 * w.candVal + b.toNat) = some s) :
    walkStep l p m i b w = emitSymbol l p s { w with candVal := 2 * w.candVal + b.toNat, candLen := w.candLen + 1 } := by
  rcases walkStep_cases l p m i b w with ⟨h64, -⟩ | ⟨-, hfree, -⟩ | ⟨-, s', hs', hstep⟩
  · exact absurd h64 hroom
  · cases hfree.symm.trans hmatch
  · cases hs'.symm.trans hmatch
    exact hstep

section
variable {l : Latched} {p : Platform} (s : Byte) {w : Walk}

theorem emitSymbol_of_full (hfull : w.outCnt = l.dstCap.toNat) :
    emitSymbol l p s w = (w, some (.dstFull, min (l.dstCap.toNat + 1) Config.wordMax)) := if_pos hfull

theorem emitSymbol_of_failing (hcap : w.outCnt ≠ l.dstCap.toNat) (hfail : p.memOk (l.dstAddr.toNat + w.outCnt) = false) :
    emitSymbol l p s w = (w, some (.io, l.dstAddr.toNat + w.outCnt)) := (if_neg hcap).trans (if_pos hfail)

theorem emitSymbol_of_ok (hcap : w.outCnt ≠ l.dstCap.toNat) (hok : p.memOk (l.dstAddr.toNat + w.outCnt) = true) :
    emitSymbol l p s w = ({ candLen := 0, candVal := 0, outCnt := w.outCnt + 1, emitted := s :: w.emitted }, none) :=
  (if_neg hcap).trans (if_neg (by rw [hok]; exact nofun))

end

/-! ### The walk over one code -/

/-- Bits that complete a code with the last of them and match nothing before: the walk emits the code's symbol and goes on with an
empty candidate. The fold is the candidate's value after `k` bits, as in `walkBits_overrun`. -/
theorem walkBits_code {l : Latched} {p : Platform} {m : List RevEntry} (i : Nat) {c : List Bool} (rest : List Bool) {w : Walk}
    {s : Byte} (hc : c ≠ []) (hlen : w.candLen + c.length ≤ 64)
    (hfree : ∀ k, 1 ≤ k → k < c.length →
      rmapFind m (w.candLen + k) ((c.take k).foldl (fun v b => 2 * v + b.toNat) w.candVal) = none)
    (hmatch : rmapFind m (w.candLen + c.length) (c.foldl (fun v b => 2 * v + b.toNat) w.candVal) = some s)
    (hcap : w.outCnt ≠ l.dstCap.toNat) (hok : p.memOk (l.dstAddr.toNat + w.outCnt) = true) :
    walkBits l p m i (c ++ rest) w = walkBits l p m (i + c.length) rest
      { candLen := 0, candVal := 0, outCnt := w.outCnt + 1, emitted := s :: w.emitted } := by
  induction c generalizing i w with
  | nil => exact absurd rfl hc
  | cons b c ih =>
    rw [List.length_cons] at hlen hfree hmatch
    have hroom : w.candLen ≠ 64 := by omega
    rw [List.cons_append]
    by_cases hlast : c = []
    · subst hlast
      have hstep := (walkStep_of_match l p i hroom hmatch).trans (emitSymbol_of_ok s hcap hok)
      exact walkBits_cons_of_none hstep
    · have hpos := List.length_pos_of_ne_nil hlast
      have hrest := ih (i + 1) (w := { w with candVal := 2 * w.candVal + b.toNat, candLen := w.candLen + 1 }) hlast
        (by dsimp only; omega) ?_ ?_ hcap hok
      · rw [walkBits_cons_of_none (walkStep_of_no_match l p i hroom (hfree 1 (Nat.le_refl 1) (by omega))), hrest,
          List.length_cons, Nat.add_assoc, Nat.add_comm 1]
      · intro k h1 hk
        have := hfree (k + 1) (by omega) (by omega)
        rwa [List.take_succ_cons, List.foldl_cons, Nat.add_comm k 1, ← Nat.add_assoc] at this
      · rwa [List.foldl_cons, Nat.add_comm c.length 1, ← Nat.add_assoc] at hmatch

/-! ### The reverse map of an ENCODE's codebook (R45, R184, R186) -/

/-- The tables hold, for the symbols of `A`, codes of 1 to 64 bits none of which begins with another's. -/
structure PrefixCode (cbLen cbVal : List Nat) (A : List Byte) : Prop where
  syms : A.Nodup
  length : ∀ s ∈ A, 1 ≤ entry cbLen s ∧ entry cbLen s ≤ 64
  value : ∀ s ∈ A, entry cbVal s < 2 ^ entry cbLen s
  prefixFree : ∀ s ∈ A, ∀ t ∈ A, codeOf cbLen cbVal s <+: codeOf cbLen cbVal t → s = t

/-- The triple that a symbol's codebook entry registers. -/
def revEntryOf (cbLen cbVal : List Nat) (s : Byte) : RevEntry := { len := entry cbLen s, val := entry cbVal s, sym := s }

section
variable {cbLen cbVal : List Nat} {A : List Byte} (hcode : PrefixCode cbLen cbVal A)
include hcode

theorem PrefixCode.of_subset {B : List Byte} (hB : B ⊆ A) (hnodup : B.Nodup) : PrefixCode cbLen cbVal B where
  syms := hnodup
  length := fun s hs => hcode.length s (hB hs)
  value := fun s hs => hcode.value s (hB hs)
  prefixFree := fun s hs t ht => hcode.prefixFree s (hB hs) t (hB ht)

theorem PrefixCode.bitsVal_codeOf {s : Byte} (hs : s ∈ A) : bitsVal (codeOf cbLen cbVal s) = entry cbVal s := by
  rw [codeOf, bitsVal_bitsOf, Nat.mod_eq_of_lt (hcode.value s hs)]

/-- The map gives each code its symbol, and gives no other bits a symbol (R45). -/
theorem PrefixCode.rmapFind_eq_some_iff (c : List Bool) (s : Byte) :
    rmapFind (A.map (revEntryOf cbLen cbVal)) c.length (bitsVal c) = some s ↔ s ∈ A ∧ codeOf cbLen cbVal s = c := by
  have hfound {t : Byte} (h : rmapFind (A.map (revEntryOf cbLen cbVal)) c.length (bitsVal c) = some t) :
      t ∈ A ∧ codeOf cbLen cbVal t = c := by
    obtain ⟨e, he, hlen, hval, rfl⟩ := rmapFind_some h
    obtain ⟨t, ht, rfl⟩ := List.mem_map.mp he
    refine ⟨ht, ?_⟩
    change entry cbLen t = c.length at hlen
    change entry cbVal t = bitsVal c at hval
    rw [revEntryOf, codeOf, hlen, hval, bitsOf_bitsVal]
  refine ⟨hfound, fun ⟨hs, hc⟩ => ?_⟩
  cases h : rmapFind (A.map (revEntryOf cbLen cbVal)) c.length (bitsVal c) with
  | none =>
    refine absurd ⟨?_, ?_⟩ (rmapFind_none h _ (List.mem_map_of_mem hs))
    · rw [← hc, codeOf, bitsOf_length]; rfl
    · rw [← hc, hcode.bitsVal_codeOf hs]; rfl
  | some t =>
    obtain ⟨ht, htc⟩ := hfound h
    rw [hcode.prefixFree t ht s hs (by rw [htc, hc])]

/-- A proper beginning of a code is no code. -/
theorem PrefixCode.rmapFind_take_eq_none {s : Byte} (hs : s ∈ A) {k : Nat} (hk : k < (codeOf cbLen cbVal s).length) :
    rmapFind (A.map (revEntryOf cbLen cbVal)) k (bitsVal ((codeOf cbLen cbVal s).take k)) = none := by
  have hlen : ((codeOf cbLen cbVal s).take k).length = k := List.length_take_of_le hk.le
  refine Option.eq_none_iff_forall_ne_some.mpr fun t ht => ?_
  have hfound := hcode.rmapFind_eq_some_iff ((codeOf cbLen cbVal s).take k) t
  rw [hlen] at hfound
  obtain ⟨htA, htc⟩ := hfound.mp ht
  obtain rfl := hcode.prefixFree t htA s hs (htc ▸ List.take_prefix k _)
  rw [← htc] at hlen
  omega

end

/-- Entries that ENCODE wrote are accepted one after the other, each with its own triple (R184 to R186). -/
theorem deserialize_codebook (le : Bool) {cbLen cbVal : List Nat} (first : Nat) {old new : List Byte} (rest : List Byte)
    (hcode : PrefixCode cbLen cbVal (old ++ new)) :
    deserialize le new.length first (new.flatMap (codebookEntry le cbLen cbVal) ++ rest) (old.map (revEntryOf cbLen cbVal)) =
      ((old ++ new).map (revEntryOf cbLen cbVal), none) := by
  induction new generalizing first old with
  | nil => rw [List.append_nil]; rfl
  | cons s new ih =>
    have hs : s ∈ old ++ s :: new := List.mem_append_right old List.mem_cons_self
    obtain ⟨h1, h64⟩ := hcode.length s hs
    have hold : PrefixCode cbLen cbVal old :=
      hcode.of_subset (List.subset_append_left old _) (List.nodup_append.mp hcode.syms).1
    have hfree : rmapFind (old.map (revEntryOf cbLen cbVal)) (entry cbLen s) (entry cbVal s) = none := by
      refine Option.eq_none_iff_forall_ne_some.mpr fun t ht => ?_
      have hfound := hold.rmapFind_eq_some_iff (codeOf cbLen cbVal s) t
      rw [hcode.bitsVal_codeOf hs, codeOf, bitsOf_length, ← codeOf] at hfound
      obtain ⟨htold, htc⟩ := hfound.mp ht
      obtain rfl := hcode.prefixFree t (List.mem_append_left _ htold) s hs (by rw [htc])
      exact (List.nodup_append.mp hcode.syms).2.2 t htold t List.mem_cons_self rfl
    have hlen := entryLen_codebookEntry le cbLen cbVal s (new.flatMap (codebookEntry le cbLen cbVal) ++ rest) h64
    have hval := entryVal_codebookEntry le cbLen cbVal s (new.flatMap (codebookEntry le cbLen cbVal) ++ rest) h64
      (hcode.value s hs)
    have hnext := ih (first + 1) (old := old ++ [s]) (by rwa [List.append_assoc])
    rw [List.map_append, List.append_assoc] at hnext
    rw [List.flatMap_cons, List.append_assoc, List.length_cons]
    rcases deserialize_first_cases le new.length first
        (codebookEntry le cbLen cbVal s ++ (new.flatMap (codebookEntry le cbLen cbVal) ++ rest))
        (old.map (revEntryOf cbLen cbVal)) with
      ⟨hbad, -⟩ | ⟨-, -, ⟨t, ht, -⟩, -⟩ | ⟨-, -, ht, -⟩ | ⟨-, -, -, hd⟩
    · omega
    · rw [entryFound, hlen, hval, hfree] at ht; cases ht
    · rw [entryFound, hlen, hval, hfree] at ht; cases ht
    · rw [hd, hlen, hval, List.drop_left' (codebookEntry_length le cbLen cbVal s)]
      exact hnext

/-- The walk over a payload emits its source, if the source fits and its addresses answer (R191, R192). -/
theorem walkBits_payload {l : Latched} {p : Platform} {cbLen cbVal : List Nat} {A : List Byte} (hcode : PrefixCode cbLen cbVal A)
    (i : Nat) {src : List Byte} {w : Walk} (hsrc : src ⊆ A) (hempty : w.candLen = 0 ∧ w.candVal = 0)
    (hcap : w.outCnt + src.length ≤ l.dstCap.toNat)
    (hok : ∀ j, j < src.length → p.memOk (l.dstAddr.toNat + (w.outCnt + j)) = true) :
    walkBits l p (A.map (revEntryOf cbLen cbVal)) i (payload cbLen cbVal src) w =
      ({ candLen := 0, candVal := 0, outCnt := w.outCnt + src.length, emitted := src.reverse ++ w.emitted }, none) := by
  obtain ⟨hcand, hval⟩ := hempty
  induction src generalizing i w with
  | nil =>
    rw [payload, List.flatMap_nil, walkBits, hcand]
    cases w
    cases hcand
    cases hval
    rfl
  | cons s src ih =>
    rw [List.length_cons] at hcap hok
    obtain ⟨hs, hrest⟩ := List.cons_subset.mp hsrc
    obtain ⟨h1, h64⟩ := hcode.length s hs
    have hlen : (codeOf cbLen cbVal s).length = entry cbLen s := bitsOf_length _ _
    have hwalk := walkBits_code (l := l) (p := p) (m := A.map (revEntryOf cbLen cbVal)) (w := w) (s := s) i
      (payload cbLen cbVal src) (List.ne_nil_of_length_pos (hlen ▸ h1)) (by rw [hcand]; omega)
      (fun k _ hk => by rw [hcand, hval, Nat.zero_add]; exact hcode.rmapFind_take_eq_none hs hk)
      (by rw [hcand, hval, Nat.zero_add]; exact (hcode.rmapFind_eq_some_iff _ s).mpr ⟨hs, rfl⟩) (by omega) (hok 0 (by omega))
    rw [payload, List.flatMap_cons, ← payload, hwalk, ih _ hrest (by dsimp only; omega) ?_ rfl rfl]
    · simp [Nat.add_assoc, Nat.add_comm 1]
    · intro j hj
      dsimp only
      rw [Nat.add_assoc, Nat.add_comm 1]
      exact hok (j + 1) (by omega)

/-! ### The round trip (R197) -/

/-- The codes of a finished ENCODE, as its codebook holds them, are those of the tree (R149 to R151). -/
theorem prefixCode_of_finish {l : Latched} {p : Platform} {src : List Byte} {w w' : Work} {C : List Byte}
    (h : encodeStages l p src w = (w', .finish C)) : PrefixCode w'.cbLen w'.cbVal (alphabet (frequencies src)) := by
  obtain ⟨hw, -⟩ := encodeStages_finish h
  have hlength {s : Byte} (hs : s ∈ alphabet (frequencies src)) := cbLen_of_finish h hs
  have hassigned {s : Byte} (hs : s ∈ alphabet (frequencies src)) :
      ∃ c ∈ assignCodes (buildTree (frequencies src) (alphabet (frequencies src))).1
        (buildTree (frequencies src) (alphabet (frequencies src))).2 (alphabet (frequencies src)),
        c.1 = s ∧ codeOf w'.cbLen w'.cbVal s = c.2 ∧ entry w'.cbVal s < 2 ^ entry w'.cbLen s := by
    have hne := List.ne_nil_of_mem hs
    have hperm := assignCodes_syms (frequencies src) hne
    have hnodup := hperm.nodup_iff.mpr (alphabet_nodup (frequencies src))
    obtain ⟨c, hc, rfl⟩ := List.mem_map.mp (hperm.mem_iff.mpr hs)
    have h64 := (hlength hs).2
    rw [hw, buildCodebook_of_ne_nil _ _ hne] at h64 ⊢
    dsimp only at h64 ⊢
    rw [entry_codeLengths hnodup hc] at h64 ⊢
    exact ⟨c, hc, rfl, codeOf_codebook hnodup hc h64, (entry_codeValues hnodup hc h64).trans_lt (bitsVal_lt c.2)⟩
  refine ⟨alphabet_nodup _, fun s hs => hlength hs, fun s hs => ?_, fun s hs t ht hprefix => ?_⟩
  · obtain ⟨c, -, -, -, hval⟩ := hassigned hs
    exact hval
  · obtain ⟨c, hc, rfl, hsc, -⟩ := hassigned hs
    obtain ⟨d, hd, rfl, htd, -⟩ := hassigned ht
    rw [hsc, htd] at hprefix
    exact assignCodes_sym_eq_of_prefix _ (List.ne_nil_of_mem hs) hc hd hprefix

/-- What ENCODE writes after the codebook entries: the packed bits and their padding count (R158, R159). -/
def packedTail (P : List Bool) : List Byte :=
  packBits (payloadBytes P.length) (P ++ List.replicate (padCount P.length) false) ++ [BitVec.ofNat 8 (padCount P.length)]

theorem packedTail_length (P : List Bool) : (packedTail P).length = payloadBytes P.length + 1 := by
  rw [packedTail, List.length_append, packBits_length, List.length_singleton]

/-- The container as its count byte, its entries and its tail (R89). -/
theorem container_eq_packedTail (le : Bool) (cbLen cbVal : List Nat) (src : List Byte) :
    container le (frequencies src) cbLen cbVal (alphabet (frequencies src)) src =
      BitVec.ofNat 8 ((alphabet (frequencies src)).length % 256) ::
        ((alphabet (frequencies src)).flatMap (codebookEntry le cbLen cbVal) ++ packedTail (payload cbLen cbVal src)) := by
  have hbits : payloadBits (frequencies src) cbLen (alphabet (frequencies src)) = (payload cbLen cbVal src).length :=
    (payloadBits_frequencies cbLen src).trans (payload_length cbLen cbVal src).symm
  rw [container_eq, containerBody, hbits, List.append_assoc, packedTail]

/-- The tail that ENCODE wrote is walked bit for bit as it was packed (R161, R189). -/
theorem expandPayload_packedTail (l : Latched) (p : Platform) (m : List RevEntry) (P : List Bool) (w : Work) :
    (expandPayload l p m (packedTail P) w).2 = walkEnd (walkBits l p m 0 P Walk.start) := by
  have h7 := padCount_le P.length
  have hbits := eight_mul_payloadBytes P.length
  have hpad : ((packedTail P).getLastD 0).toNat = padCount P.length := by
    rw [packedTail, List.getLastD_concat, BitVec.toNat_ofNat, Nat.mod_eq_of_lt (by omega)]
  have hbytes : (packedTail P).dropLast = packBits (payloadBytes P.length) (P ++ List.replicate (padCount P.length) false) :=
    List.dropLast_concat
  rw [expandPayload_of_good_padding l p m w (by omega) (by rw [hbytes, packBits_length]; omega), hpad, hbytes,
    payloadToBits_packBits]

/-- DECODE's stages give back the source of a container of at most 255 symbols, none of whose codes begins with another (R197). -/
theorem decodeStages_container {l : Latched} {p : Platform} {src : List Byte} {cbLen cbVal : List Nat} (w : Work)
    (hcode : PrefixCode cbLen cbVal (alphabet (frequencies src))) (hsyms : (alphabet (frequencies src)).length < 256)
    (hcap : src.length ≤ l.dstCap.toNat) (hok : ∀ j, j < src.length → p.memOk (l.dstAddr.toNat + j) = true) :
    (decodeStages l p (container l.blkle (frequencies src) cbLen cbVal (alphabet (frequencies src)) src) w).2 = .finish src := by
  rw [container_eq_packedTail]
  set A := alphabet (frequencies src)
  have hcount (body : List Byte) : ((BitVec.ofNat 8 (A.length % 256) :: body).getD 0 0).toNat = A.length := by
    rw [List.getD_cons_zero, BitVec.toNat_ofNat]
    omega
  have hentries := flatMap_codebookEntry_length l.blkle cbLen cbVal A
  have hwalk := walkBits_payload (l := l) (p := p) (w := Walk.start) hcode 0 (fun s hs => (mem_alphabet src s).mpr hs)
    ⟨rfl, rfl⟩ ((Nat.zero_add _).trans_le hcap) (fun j hj => (Nat.zero_add j).symm ▸ hok j hj)
  rw [decodeStages_of_accepted w (hcount _) ?_ (deserialize_codebook l.blkle 0 (old := []) _ hcode), Nat.add_comm 1,
    List.drop_succ_cons, List.drop_left' hentries, expandPayload_packedTail, List.nil_append, hwalk, walkEnd]
  · simp [Walk.start]
  · rw [List.length_cons, List.length_append, packedTail_length]
    omega

/-- An alphabet of 256 symbols needs every byte value (R142). -/
theorem alphabet_length_lt {src : List Byte} (h : ∃ b : Byte, b ∉ src) : (alphabet (frequencies src)).length < 256 := by
  obtain ⟨b, hb⟩ := h
  have hall : b ∈ (List.range 256).map (BitVec.ofNat 8) := List.mem_map.mpr ⟨b.toNat, List.mem_range.mpr b.isLt, by simp⟩
  have habsent : ¬decide (1 ≤ entry (frequencies src) b) = true := by
    rw [decide_eq_true_eq, entry_frequencies, List.one_le_count_iff]
    exact hb
  exact (List.length_filter_lt_length_iff_exists.mpr ⟨b, hall, habsent⟩).trans_eq (by simp)

/-- DECODE's stages finish with the source of the ENCODE whose container they read, except in the legacy form (R197, R199). -/
theorem decodeStages_of_encodeStages {l l' : Latched} {p p' : Platform} {src C : List Byte} {w w' : Work}
    (h : encodeStages l p src w = (w', .finish C)) (hnotLegacy : l.wrap256 = false ∨ ∃ b : Byte, b ∉ src)
    (hle : l'.blkle = l.blkle) (hcap : src.length ≤ l'.dstCap.toNat)
    (hok : ∀ j, j < src.length → p'.memOk (l'.dstAddr.toNat + j) = true) (v : Work) :
    (decodeStages l' p' C v).2 = .finish src := by
  obtain ⟨-, hnotFull, -, hC, -⟩ := encodeStages_finish h
  have hsyms : (alphabet (frequencies src)).length < 256 := by
    rcases hnotLegacy with hwrap | hmissing
    · exact lt_of_le_of_ne (alphabet_length_le _) fun h256 => hnotFull ⟨h256, hwrap⟩
    · exact alphabet_length_lt hmissing
  rw [hC, ← hle]
  exact decodeStages_container v (prefixCode_of_finish h) hsyms hcap hok

/-- A command that DONE reports ended by `finish`, past the common checks (R121). -/
theorem completeCommand_done {s t : State} (hclear : s.done = false) (ht : completeCommand s = .next t) (hdone : t.done = true) :
    commonChecks s = none ∧ ∃ w out, stagesOf s.latched.op s.latched s.platform (sourceBytes s) s.work = (w, .finish out) ∧
      t = finish out { s with work := w } := by
  rcases completeCommand_cases s with ⟨-, hc⟩ | ⟨-, e, info, -, hc⟩ | ⟨-, hchecks, w, r, hst, hc⟩ <;> cases hc.symm.trans ht
  · cases hclear.symm.trans hdone
  · cases r with
    | raise e info => cases hclear.symm.trans hdone
    | finish out => exact ⟨hchecks, w, out, hst, rfl⟩

/-- What `finish` wrote is the source of a command that reads it from there (R63, R74, R121). -/
theorem sourceBytes_of_finish {s u : State} {out : List Byte} (hwf : s.mem.wf = true)
    (hspace : s.latched.dstAddr.toNat + out.length ≤ 2 ^ 32) (hlen : out.length < 2 ^ 32) (hmem : u.mem = (finish out s).mem)
    (haddr : u.latched.srcAddr = s.latched.dstAddr) (hsrc : u.latched.srcLen = (finish out s).outLen) : sourceBytes u = out := by
  have hword : (finish out s).outLen.toNat = out.length := by
    rw [finish_outLen, BitVec.toNat_ofNat, Nat.mod_eq_of_lt hlen]
  rw [sourceBytes, hmem, haddr, hsrc, hword, finish_mem]
  exact Memory.readBytes_writeBytes hwf hspace

end Sys2Proof.Machine

open Sys2Proof Sys2Proof.Machine

/-- Settles O56: ENCODE's `finish` wrote the container that DECODE reads, the stages invert each other, and DECODE's `finish` writes
the source. -/
theorem decodeOfEncodeReproducesTheSource : Obligations.DecodeOfEncodeReproducesTheSource := by
  intro s t u hwf hop hclear ht hdone hnotLegacy huop hmem haddr hlen hle hcap hconf hfail hok hside
  obtain ⟨hchecks, w, C, hst, rfl⟩ := completeCommand_done hclear ht hdone
  rw [hop] at hst
  obtain ⟨hsconf, -⟩ := (commonChecks_eq_none_iff s).mp hchecks
  obtain ⟨-, hdst, -⟩ := (configCheck_eq_none_iff s.latched).mp hsconf
  obtain ⟨-, -, -, -, hfits, -⟩ := encodeStages_finish hst
  have hspace : s.latched.dstAddr.toNat + C.length ≤ 2 ^ 32 := (Nat.add_le_add_left hfits _).trans hdst
  have hsource : sourceBytes u = C :=
    sourceBytes_of_finish (s := { s with work := w }) hwf hspace (hfits.trans_lt s.latched.dstCap.isLt) hmem haddr hlen
  have hsrcLen := sourceBytes_length s
  have hdecode := decodeStages_of_encodeStages hst hnotLegacy hle (hsrcLen.trans_le hcap)
    (fun j hj => hok _ (by omega) (by omega)) u.work
  have hust : stagesOf u.latched.op u.latched u.platform (sourceBytes u) u.work =
      ((decodeStages u.latched u.platform C u.work).1, .finish (sourceBytes s)) := by
    rw [huop, hsource]
    exact Prod.ext rfl hdecode
  have hv := completeCommand_of_stages hside ((commonChecks_eq_none_iff u).mpr ⟨hconf, hfail⟩) hust
  obtain ⟨-, hudst, -⟩ := (configCheck_eq_none_iff u.latched).mp hconf
  have huwf : u.mem.wf = true := by
    rw [hmem]
    exact Memory.writeBytes_wf hwf hspace
  refine ⟨_, hv, rfl, rfl, ?_, fun i hi => ?_⟩
  · rw [endCommand, finish_outLen, hsrcLen, BitVec.ofNat_toNat, BitVec.setWidth_eq]
  · have hi' : i < (sourceBytes s).length := by omega
    have hroom : u.latched.dstAddr.toNat + (sourceBytes s).length ≤ Config.addressSpace := by
      rw [hsrcLen]
      exact (Nat.add_le_add_left hcap _).trans hudst
    exact (Memory.read_writeBytes_inside huwf hroom hi').trans (Memory.readBytes_getElem _ _ _ i hi')

/-- Settles O47, by the first case of the stages. -/
theorem truncatedContainerIsReported : Obligations.TruncatedContainerIsReported :=
  fun _ _ _ w h => decodeStages_of_truncated w h

/-- Settles O50: past the entries the container's last byte is the padding count and the bytes before it are the payload. -/
theorem badPaddingIsReported : Obligations.BadPaddingIsReported := by
  intro l p C w n r m pad hlen hr
  have hdecode := decodeStages_of_accepted (p := p) w rfl hlen (Prod.ext rfl hr)
  have hpad : ((C.drop (1 + 10 * n)).getLastD 0).toNat = pad := congrArg BitVec.toNat (getLastD_drop (by omega))
  have hbytes : (C.drop (1 + 10 * n)).dropLast = (C.drop (1 + 10 * n)).take m := by
    rw [dropLast_drop_eq_take]
    congr 1
    omega
  have hcount : (C.drop (1 + 10 * n)).dropLast.length = m := by
    rw [List.length_dropLast, List.length_drop]
    omega
  refine ⟨fun hbad => ?_, fun h7 hbits => ?_⟩
  · rw [← hpad, ← hcount] at hbad
    exact hdecode.trans ((expandPayload_of_bad_padding l p _ _ hbad).trans (by rw [hpad]))
  · have hgood := expandPayload_of_good_padding l p r.1 (tail := C.drop (1 + 10 * n)) { w with rmap := r.1 }
      (hpad.trans_le h7) (by rwa [hpad, hcount])
    rw [hpad, payloadToBits_eq_take hcount, hbytes] at hgood
    exact (congrArg Prod.snd hdecode).trans hgood

/-- Settles O51, by the cases of a step and of an emit, in the order of the tests. -/
theorem walkStepRule : Obligations.WalkStepRule := by
  intro l p m i b w
  refine ⟨walkStep_of_full l p m i b, walkStep_of_no_match l p i, fun s hroom hmatch => ?_, rfl⟩
  rw [walkStep_of_match l p i hroom hmatch]
  refine ⟨fun hfull => ?_, fun hcap hfail => ?_, fun hcap hok => emitSymbol_of_ok s hcap hok⟩
  · rw [emitSymbol_of_full s]
    exact hfull
  · rw [emitSymbol_of_failing s] <;> assumption

end

section
/-! ## The errors of each command and the interrupt line

The errors that ENCODE and DECODE raise (O27), and the level of `irq` (O22). -/

namespace Sys2Proof.Machine

/-! ### The errors of each command (R222) -/

/-- The errors that a running command can end in (R222). -/
def Op.errors : Op → List CmdError
  | .encode => [.config, .io, .dstFull, .alphabetFull, .codeTooLong]
  | .decode =>
    [.config, .io, .dstFull, .fmtTruncated, .fmtBadLength, .fmtCollision, .fmtBadPadding, .fmtOverrun, .fmtUnterminated]

theorem commonChecks_mem_errors {s : State} {e : CmdError} {info : Nat} (h : commonChecks s = some (e, info)) (op : Op) :
    e ∈ op.errors := by
  rcases commonChecks_error h with ⟨rfl, -⟩ | ⟨rfl, -, -⟩ <;> cases op <;> decide

theorem stagesOf_mem_errors {op : Op} {l : Latched} {p : Platform} {src : List Byte} {w w' : Work} {e : CmdError} {info : Nat}
    (h : stagesOf op l p src w = (w', .raise e info)) : e ∈ op.errors := by
  cases op with
  | encode => rcases encodeStages_raise h with rfl | rfl | rfl | rfl <;> decide
  | decode =>
    have hsub : [CmdError.io, .dstFull, .fmtTruncated, .fmtBadLength, .fmtCollision, .fmtBadPadding, .fmtOverrun,
      .fmtUnterminated] ⊆ Op.decode.errors := List.subset_cons_self _ _
    exact hsub (decodeStages_raise h)

/-- A running command that ends with ERR set raised one of its own errors: `finish` leaves ERR clear, as the start left it. -/
theorem completeCommand_errCode {s t : State} (hinv : Inv s) (hbusy : s.phase = .busy) (ht : completeCommand s = .next t)
    (herr : t.err = true) : ∃ e ∈ s.latched.op.errors, t.errCode = e.code := by
  rcases completeCommand_cases s with ⟨-, hc⟩ | ⟨-, e, info, hchecks, hc⟩ | ⟨-, -, w, r, hst, hc⟩ <;>
    cases hc.symm.trans ht
  · exact ⟨e, commonChecks_mem_errors hchecks _, rfl⟩
  · cases r with
    | finish out => cases herr.symm.trans (hinv.busy.flags hbusy).2
    | raise e info => exact ⟨e, stagesOf_mem_errors hst, rfl⟩

/-! ### The interrupt line (R240) -/

theorem irq_eq_true_iff (s : State) : s.irq = true ↔ s.ctrl.getLsbD 0 = true ∧ (s.done = true ∨ s.err = true) := by
  rw [State.irq, State.ie, Bool.and_eq_true, Bool.or_eq_true]

theorem readIrq_hostIrq (s : State) : (readIrq s).hostIrq = s.irq := by rw [readIrq_eq]

theorem readIrq_irq (s : State) : (readIrq s).irq = s.irq := by
  rw [readIrq_eq]
  rfl

end Sys2Proof.Machine

open Sys2Proof Sys2Proof.Machine

/-- Settles O27: the raised error is in the command's list, so its code is among the list's codes. -/
theorem errorsOfEachCommand : Obligations.ErrorsOfEachCommand := by
  intro s t hinv hbusy ht herr
  obtain ⟨e, he, hcode⟩ := completeCommand_errCode hinv hbusy ht herr
  have hmem : t.errCode ∈ s.latched.op.errors.map CmdError.code := hcode ▸ List.mem_map_of_mem he
  exact ⟨fun hop => by rwa [hop] at hmem, fun hop => by rwa [hop] at hmem⟩

/-- Settles O22: the line is a function of IE, DONE and ERR, a read changes none of the three, and an illegal word sets ERR. -/
theorem irqIsEnabledDoneOrErr : Obligations.IrqIsEnabledDoneOrErr :=
  ⟨irq_eq_true_iff, fun s => ⟨readIrq s, rfl, readIrq_hostIrq s, readIrq_irq s⟩, fun s w hp hie =>
    ⟨illegalCommand w s, next_command_of_idle hp, (irq_eq_true_iff _).mpr ⟨hie, .inr rfl⟩⟩⟩

end

section
/-! ## Reset of a running command, and the host's duties

A reset while BUSY abandons the command and its destination (O2); a read-write register reads back what was written (O15); every
breach of the host's duties is a fault (O58). -/

namespace Sys2Proof.Machine

/-! ### Reset while BUSY (R261) -/

/-- A reset while BUSY and an error of a running command leave memory alike: the destination window unspecified (R229, R261). -/
theorem memoryAfterReset_eq_memoryAfterError {s : State} (hp : s.phase = .busy) :
    memoryAfterReset s = memoryAfterError .io s :=
  memoryAfterReset_busy hp

/-! ### Reading back a register (R274) -/

/-- The host gets the register's value (R110). -/
theorem hostRead_hostData (r : Reg) (s : State) : (hostRead r s).hostData = readReg r s := by
  rw [hostRead_eq]

/-- CTRL holds the low three bits of a written word, and its other bits read 0 (R23). -/
theorem readReg_ctrl_writeReg (w : Word) (s : State) : readReg .ctrl (writeReg .ctrl w s) = w &&& 0x00000007#32 := by
  apply BitVec.eq_of_toNat_eq
  calc ((w.setWidth 3).setWidth 32).toNat
      = w.toNat % 2 ^ 3 := (BitVec.toNat_setWidth_of_le (by decide)).trans (BitVec.toNat_setWidth 3 w)
    _ = w.toNat &&& (2 ^ 3 - 1) := (Nat.and_two_pow_sub_one_eq_mod _ _).symm
    _ = (w &&& 0x00000007#32).toNat := (BitVec.toNat_and w 7#32).symm

/-! ### Breaches of the duties (R270, R271) -/

theorem Span.meet_has (v w : Span) (a : Nat) : (v.meet w).has a = true ↔ v.has a = true ∧ w.has a = true := by
  simp only [Span.has_iff, Span.meet]
  omega

theorem memOk_eq_true_iff (p : Platform) (a : Nat) : p.memOk a = true ↔ inSpans p.failing a = false := by
  rw [Platform.memOk, Bool.not_eq_true']

theorem memOk_eq_false_iff (p : Platform) (a : Nat) : p.memOk a = false ↔ inSpans p.failing a = true := by
  rw [Platform.memOk, Bool.not_eq_false']

/-- An address of either window of a duty in force lies in one of the windows with duties. -/
theorem exists_dutyWindow_has {s : State} {d : Duty} {a : Nat} (hd : d ∈ s.duties)
    (ha : (d.source.lo ≤ a ∧ a < d.source.hi) ∨ (d.destination.lo ≤ a ∧ a < d.destination.hi)) :
    ∃ v ∈ s.dutyWindows, v.has a = true := by
  rcases ha with ha | ha
  · exact ⟨d.source, (mem_dutyWindows s _).mpr ⟨d, hd, .inl rfl⟩, (Span.has_iff _ a).mpr ha⟩
  · exact ⟨d.destination, (mem_dutyWindows s _).mpr ⟨d, hd, .inr rfl⟩, (Span.has_iff _ a).mpr ha⟩

/-- A duty touches every span that has an address of one of its windows. -/
theorem Duty.touches_of_has {d : Duty} {u : Span} {a : Nat} (hu : u.has a = true)
    (ha : (d.source.lo ≤ a ∧ a < d.source.hi) ∨ (d.destination.lo ≤ a ∧ a < d.destination.hi)) : d.touches u = true := by
  simp only [← Span.has_iff] at ha
  exact (d.touches_iff u).mpr (ha.imp (fun h => (Span.overlaps_iff_exists _ u).mpr ⟨a, h, hu⟩)
    (fun h => (Span.overlaps_iff_exists _ u).mpr ⟨a, h, hu⟩))

/-- The completion step of a command with memory with side effects under a window is a breach (R69, R270). -/
theorem completeCommand_of_sideEffect {s : State} {u : Span} (hu : u ∈ s.platform.sideEffects)
    (htouch : s.latched.duty.touches u = true) : completeCommand s = .fault .hostDutySideEffects :=
  if_pos (List.any_eq_true.mpr ⟨u, hu, htouch⟩)

/-- A change of the platform that is a breach is that breach's fault (R271). -/
theorem changePlatform_of_breach {s : State} {c : PlatformChange} {f : Fault} (h : changeBreach s c = some f) :
    changePlatform c s = .fault f := by
  rw [changePlatform, h]

section
variable {s : State} {a : Nat} (hwin : ∃ v ∈ s.dutyWindows, v.has a = true)
include hwin

/-- What holds of every span with the address holds of some window with duties. -/
theorem any_dutyWindows {p : Span → Bool} (hp : ∀ v : Span, v.has a = true → p v = true) : s.dutyWindows.any p = true := by
  obtain ⟨v, hv, hva⟩ := hwin
  exact List.any_eq_true.mpr ⟨v, hv, hp v hva⟩

/-- A host write to an address of a window with duties is a breach (R270). -/
theorem hostMemWrite_of_dutyWindow {addr : Nat} {data : List Byte} (hspace : addr + data.length ≤ Config.addressSpace)
    (hlo : addr ≤ a) (hhi : a < addr + data.length) : hostMemWrite addr data s = .fault .hostDutyWrite := by
  have hdata : ({ lo := addr, hi := addr + data.length } : Span).has a = true := (Span.has_iff _ a).mpr ⟨hlo, hhi⟩
  rw [hostMemWrite, if_neg (Nat.not_lt.mpr hspace),
    if_pos (any_dutyWindows hwin fun v hva => (v.overlaps_iff_exists _).mpr ⟨a, hva, hdata⟩)]

variable {w : Span} (hw : w.has a = true)
include hw

/-- `memOk` must not become true at a window's address (R270). -/
theorem changeBreach_answers (hfail : s.platform.memOk a = false) :
    changeBreach s (.answers w) = some .hostDutyMemOk := by
  rw [changeBreach, if_pos (any_dutyWindows hwin fun v hva => (firstIn_isSome_iff _ _).mpr
    ⟨a, (v.meet_has w a).mpr ⟨hva, hw⟩, (memOk_eq_false_iff _ a).mp hfail⟩)]

/-- Memory with side effects at a window's address must not be made plain (R69, R270). -/
theorem changeBreach_plain (hside : inSpans s.platform.sideEffects a = true) :
    changeBreach s (.plain w) = some .hostDutySideEffects := by
  rw [changeBreach, if_pos (any_dutyWindows hwin fun v hva => (firstIn_isSome_iff _ _).mpr
    ⟨a, (v.meet_has w a).mpr ⟨hva, hw⟩, hside⟩)]

variable (hspace : a < Config.addressSpace)
include hspace

/-- `memOk` must not become false at a window's address (R270). -/
theorem changeBreach_fails (hok : s.platform.memOk a = true) :
    changeBreach s (.fails w) = some .hostDutyMemOk := by
  have hclip : w.clip.has a = true := (w.clip_has hspace).trans hw
  rw [changeBreach, if_pos (any_dutyWindows hwin fun v hva => (someOutside_iff _ _).mpr
    ⟨a, (v.meet_has w.clip a).mpr ⟨hva, hclip⟩, (memOk_eq_true_iff _ a).mp hok⟩)]

/-- Memory with side effects must not come to a window's address (R69, R270). -/
theorem changeBreach_device : changeBreach s (.device w) = some .hostDutySideEffects := by
  have hclip : w.clip.has a = true := (w.clip_has hspace).trans hw
  rw [changeBreach, if_pos (any_dutyWindows hwin fun v hva => (v.overlaps_iff_exists _).mpr ⟨a, hva, hclip⟩)]

end

/-- A host read of a destination byte with duties gets a free value (R271). -/
theorem hostByte_of_destination {s : State} {d : Duty} {a : Nat} (hd : d ∈ s.duties) (ha : d.destination.has a = true) :
    hostByte s a = Config.freeByte s.draws a := by
  have hany : s.duties.any (fun d => d.destination.has a) = true := List.any_eq_true.mpr ⟨d, hd, ha⟩
  rw [hostByte, hany]
  rfl

end Sys2Proof.Machine

open Sys2Proof Sys2Proof.Machine

/-- Settles O2: the registers are those of reset, and memory is what an error of the running command would leave. -/
theorem resetWhileBusyAbandonsTheCommand : Obligations.ResetWhileBusyAbandonsTheCommand := by
  intro s hp
  have hmem : (resetBlock s).mem = memoryAfterError .io s := memoryAfterReset_eq_memoryAfterError hp
  refine ⟨resetBlock s, rfl, rfl, rfl, rfl, rfl, fun a hout => ?_, fun a hlo hhi hspace => ?_⟩
  · rw [hmem, read_memoryAfterError_outside .io s hout]
  · rw [hmem, read_memoryAfterError_inside (by decide) (by decide) hlo hhi hspace]

/-- Settles O15, register by register: CTRL keeps three bits, the other four the whole word. -/
theorem registerReadAfterWrite : Obligations.RegisterReadAfterWrite := by
  intro s w r hr
  refine ⟨writeReg r w s, hostRead r (writeReg r w s), rfl, rfl, ?_⟩
  rw [hostRead_hostData]
  rcases hr with rfl | rfl | rfl | rfl | rfl
  · exact readReg_ctrl_writeReg w s
  all_goals rfl

/-- Settles O58, breach by breach, at an address of a window with duties. -/
theorem breachOfTheHostDutiesFaults : Obligations.BreachOfTheHostDutiesFaults := by
  intro s d a hd hspace
  refine ⟨fun ha => ?_, fun hdest => ?_⟩
  · have hwin := exists_dutyWindow_has hd ha
    refine ⟨fun addr data hin hlo hhi => hostMemWrite_of_dutyWindow hwin hin hlo hhi, fun v hvlo hvhi => ?_, ?_⟩
    · have hv := (Span.has_iff v a).mpr ⟨hvlo, hvhi⟩
      refine ⟨fun hok => changePlatform_of_breach (changeBreach_fails hwin hv hspace hok),
        fun hfail => changePlatform_of_breach (changeBreach_answers hwin hv hfail),
        changePlatform_of_breach (changeBreach_device hwin hv hspace), fun ⟨u, hu, hua⟩ => ?_⟩
      have hside : inSpans s.platform.sideEffects a = true := List.any_eq_true.mpr ⟨u, hu, (Span.has_iff u a).mpr hua⟩
      exact changePlatform_of_breach (changeBreach_plain hwin hv hside)
    · rintro rfl ⟨u, hu, hua⟩
      exact completeCommand_of_sideEffect hu (Duty.touches_of_has ((Span.has_iff u a).mpr hua) ha)
  · refine ⟨_, hostMemRead_of_inSpace (addr := a) (count := 1) hspace s, ?_⟩
    exact congrArg (fun b => [b]) (hostByte_of_destination hd ((Span.has_iff _ a).mpr hdest))

end

section
/-! ## The platform's changes of `memOk`

With no duty in force, a change of the platform to failing or to answering changes `memOk` exactly on its span (O59). -/

namespace Sys2Proof.Machine

/-- With no duty in force every change of the platform takes effect (R270). -/
theorem changePlatform_of_no_duty {s : State} (h : s.duties = []) (c : PlatformChange) :
    changePlatform c s = .next (applyChange c s) := by
  rw [changePlatform, changeBreach_of_no_duty h]

/-- Failing is cut off at the end of the address space, so inside it the whole span fails (R60, R61). -/
theorem memOk_change_fails (p : Platform) (w : Span) {a : Nat} (hspace : a < Config.addressSpace) :
    (p.change (.fails w)).memOk a = (p.memOk a && !w.has a) := by
  rw [Platform.memOk, Platform.memOk, Platform.change, inSpans_addSpan, w.clip_has hspace, Bool.not_or]

theorem memOk_change_answers (p : Platform) (w : Span) (a : Nat) :
    (p.change (.answers w)).memOk a = (p.memOk a || w.has a) := by
  rw [Platform.memOk, Platform.memOk, Platform.change, inSpans_carveSpans, Bool.not_and, Bool.not_not]

end Sys2Proof.Machine

open Sys2Proof Sys2Proof.Machine

/-- Settles O59: without duties no change is a breach, and what `memOk` becomes is the law of each change. -/
theorem memOkChangesExactlyOnItsSpan : Obligations.MemOkChangesExactlyOnItsSpan := by
  intro s v a hduties hspace
  refine ⟨⟨applyChange (.fails v) s, changePlatform_of_no_duty hduties _, rfl, ?_⟩,
    ⟨applyChange (.answers v) s, changePlatform_of_no_duty hduties _, rfl, ?_⟩⟩
  · rw [applyChange_platform]
    exact memOk_change_fails s.platform v hspace
  · rw [applyChange_platform]
    exact memOk_change_answers s.platform v a

end
